-- ==== Sys2Proof/Word.lean ====
section
/-! DEFINITION. The word types of the TDE: bytes, 16-bit register values and 7-bit bus addresses (`00_scope.md` R8, R9). -/

namespace Sys2Proof

/-- A byte of the frame buffer, the text buffer, the font ROM or a bus transaction. -/
abbrev Byte := BitVec 8

/-- A 16-bit register value or command word. -/
abbrev Word := BitVec 16

/-- A 7-bit bus device address (`20_memory.md` R80). -/
abbrev BusAddr := BitVec 7

end Sys2Proof
end

