-- ==== Sys2Proof/Config.lean ====
section
/-! DEFINITION. The parameters of the TDE (`00_scope.md` R6, R7) and the free values: what the spec leaves unspecified. -/

namespace Sys2Proof

/-- `FB_CAPACITY`: bytes of frame-buffer store (`00_scope.md` R6; log 8). -/
abbrev Config.fbCapacity : Nat := 1025

/-- `TEXT_CAP`: bytes of the text buffer (`00_scope.md` R6; log 8). -/
abbrev Config.textCap : Nat := 128

/-- `CMD_COL_ADDR`: the controller byte that sets the column window (`00_scope.md` R6). PRESUMED by the spec itself, from the SSD1306 family (93 G1; log 9). -/
def Config.cmdColAddr : Byte := 0x21

/-- `CMD_PAGE_ADDR`: the controller byte that sets the page window (`00_scope.md` R6). PRESUMED by the spec itself, from the SSD1306 family (93 G1; log 9). -/
def Config.cmdPageAddr : Byte := 0x22

/-- The command prefix 0x80 of a command transaction (`30_encoding.md` R112). -/
def Config.commandMarker : Byte := 0x80

/-- The data prefix 0x40, byte 0 of the frame buffer and of a data transaction (`30_encoding.md` R112). -/
def Config.dataMarker : Byte := 0x40

/-- The font ROM and the glyph bases (`00_scope.md` R6): `FONT` with `FONT_LEN` its length, and the glyph numbers of 'A', '0' and 'a'. -/
structure FontRom where
  bytes  : List Byte
  gUpper : Nat
  gDigit : Nat
  gLower : Nat
  deriving DecidableEq, Repr

/-- The constraints of `00_scope.md` R7 on the font: whole glyphs, glyph 0 exists, and the three glyph ranges lie in the font and are pairwise disjoint. -/
abbrev FontRom.legal (r : FontRom) : Prop :=
  r.bytes.length % 8 = 0 ∧ 8 ≤ r.bytes.length ∧
  r.gUpper + 25 < r.bytes.length / 8 ∧ r.gDigit + 9 < r.bytes.length / 8 ∧ r.gLower + 25 < r.bytes.length / 8 ∧
  (r.gUpper + 25 < r.gDigit ∨ r.gDigit + 9 < r.gUpper) ∧
  (r.gUpper + 25 < r.gLower ∨ r.gLower + 25 < r.gUpper) ∧
  (r.gDigit + 9 < r.gLower ∨ r.gLower + 25 < r.gDigit)

/-- A font that obeys `00_scope.md` R7. -/
structure LegalFontRom where
  rom   : FontRom
  legal : rom.legal

/-- A blank font, there only to show that R7 can be met. -/
def FontRom.blank : FontRom := ⟨List.replicate 496 0, 0, 26, 36⟩

theorem FontRom.blank_legal : FontRom.blank.legal := by
  have h : FontRom.blank.bytes.length = 496 := List.length_replicate
  unfold FontRom.legal
  rw [h]
  decide

/-- The OPEN font of the machine: some font that obeys R7, nothing else is known of it (log 7). -/
opaque Config.openFont [Inhabited LegalFontRom] : LegalFontRom

/-- `FONT`, `FONT_LEN`, `G_UPPER`, `G_DIGIT`, `G_LOWER` of the machine (`00_scope.md` R6, OPEN; log 7). -/
def Config.font : FontRom := (@Config.openFont ⟨⟨FontRom.blank, FontRom.blank_legal⟩⟩).rom

/-- The machine's font obeys `00_scope.md` R7. -/
theorem Config.font_legal : Config.font.legal := LegalFontRom.legal _

/-- Free value: what byte `a` of the frame-buffer store holds after draw `n` (`10_state.md` R38, `40_sequencer.md` R142: unspecified; log 5, 6). -/
opaque Config.freeStoreByte : Nat → Nat → Byte

/-- Free value: what latched register `k` holds after draw `n`; 0 is LCMD, 1 to 4 are LA0 to LA3 (`10_state.md` R38: unspecified; log 5). -/
opaque Config.freeLatchWord : Nat → Nat → Word

/-- Free value: what latched text byte `k` holds after draw `n` (`10_state.md` R38: unspecified; log 5). -/
opaque Config.freeLatchText : Nat → Nat → Byte

end Sys2Proof
end

