-- ==== Sys2Proof/Syntax.lean ====
section
/-! DEFINITION. The command set (one constructor per row of the opcode table), the agents, the host's window accesses and the assembler's mnemonics. -/

namespace Sys2Proof

/-- The fourteen commands (`30_encoding.md` R103), with the V and F bits each of them uses (R107). -/
inductive Instr where
  /-- INIT; `ext` is F, the external-power flag. -/
  | init (ext : Bool)
  /-- CONFIG. -/
  | config
  /-- SEND_CMD. -/
  | sendCmd
  /-- FLUSH. -/
  | flush
  /-- SET_PIXEL; `v` is V, the pixel value. -/
  | setPixel (v : Bool)
  /-- GET_PIXEL. -/
  | getPixel
  /-- FILL; `v` is V. -/
  | fill (v : Bool)
  /-- READ_FB. -/
  | readFb
  /-- RECT; `v` is V, `filled` is F. -/
  | rect (v filled : Bool)
  /-- LINE; `v` is V. -/
  | line (v : Bool)
  /-- HLINE; `v` is V. -/
  | hline (v : Bool)
  /-- VLINE; `v` is V. -/
  | vline (v : Bool)
  /-- CHAR. -/
  | char
  /-- STRING. -/
  | string
  deriving DecidableEq, Repr

/-- The agents that act on TDE state (`10_state.md` R20), and the platform, which asserts reset (`70_reset_and_hazards.md` R270). -/
inductive Agent where
  | host
  | engine
  | transport
  | platform
  deriving DecidableEq, Repr

/-- One access of the host to the register window (`30_encoding.md` R108; `rd8` is the 8-bit read that `10_state.md` R31 and R32 give TEXT). -/
inductive HostAccess where
  | wr16 (off : Nat) (val : Word)
  | wr8 (off : Nat) (val : Byte)
  | rd16 (off : Nat)
  | rd8 (off : Nat)
  /-- Repeat `RD16 0x002` until BUSY reads 0. -/
  | waitIdle
  deriving DecidableEq, Repr

/-- The command mnemonics of the assembler (`30_encoding.md` R109) with their operands as written, before they are cut to 16 bits. -/
inductive Mnemonic where
  | init (w h addr : Int) (ext : Bool)
  | config
  | sendCmd (c : Int)
  | flush
  | setPix (x y : Int) (v : Bool)
  | getPix (x y : Int)
  | fill (v : Bool)
  | readFb (i : Int)
  | rect (top left w h : Int) (v f : Bool)
  | line (x0 y0 x1 y1 : Int) (v : Bool)
  | hline (a b y : Int) (v : Bool)
  | vline (a b x : Int) (v : Bool)
  | char (c x y : Int)
  | string (s : List Byte) (x y : Int)
  deriving DecidableEq, Repr

/-- The pseudo-instructions (`30_encoding.md` R110). -/
inductive Pseudo where
  | clear
  | pixOn (x y : Int)
  | pixOff (x y : Int)
  | square (x y : Int)
  | outline (top left w h : Int)
  | getPixW (x y : Int)
  | boot (w h addr : Int)
  deriving DecidableEq, Repr

end Sys2Proof
end

