-- ==== Sys2Proof/WellFormed.lean ====
section
/-! DEFINITION. Which terms of the syntax stand for something the spec admits. -/

namespace Sys2Proof

/-- Every term of `Instr` is a legal command: a constructor carries the V and F bits its opcode uses and no others, so a reserved bit cannot be written in it (`30_encoding.md` R101). -/
def Instr.wellFormed : Instr → Bool
  | .init _ => true
  | .config => true
  | .sendCmd => true
  | .flush => true
  | .setPixel _ => true
  | .getPixel => true
  | .fill _ => true
  | .readFb => true
  | .rect _ _ => true
  | .line _ => true
  | .hline _ => true
  | .vline _ => true
  | .char => true
  | .string => true

/-- The offset of an access lies in the 512-byte register window (`10_state.md` R22). -/
def HostAccess.inWindow : HostAccess → Bool
  | .wr16 off _ => off < 0x200
  | .wr8 off _ => off < 0x200
  | .rd16 off => off < 0x200
  | .rd8 off => off < 0x200
  | .waitIdle => true

/-- An operand fits its 16-bit register, as an unsigned or as a two's-complement number (`00_scope.md` R9, `30_encoding.md` R109). -/
def operandFits (v : Int) : Bool := -32768 ≤ v ∧ v ≤ 65535

/-- Every operand of a mnemonic fits its register, and a string fits the text buffer (`30_encoding.md` R109). -/
def Mnemonic.wellFormed : Mnemonic → Bool
  | .init w h a _ => operandFits w && operandFits h && operandFits a
  | .config => true
  | .sendCmd c => operandFits c
  | .flush => true
  | .setPix x y _ => operandFits x && operandFits y
  | .getPix x y => operandFits x && operandFits y
  | .fill _ => true
  | .readFb i => operandFits i
  | .rect t l w h _ _ => operandFits t && operandFits l && operandFits w && operandFits h
  | .line x0 y0 x1 y1 _ => operandFits x0 && operandFits y0 && operandFits x1 && operandFits y1
  | .hline a b y _ => operandFits a && operandFits b && operandFits y
  | .vline a b x _ => operandFits a && operandFits b && operandFits x
  | .char c x y => operandFits c && operandFits x && operandFits y
  | .string s x y => decide (s.length ≤ Config.textCap) && operandFits x && operandFits y

end Sys2Proof
end

