-- ==== Sys2Proof/Decode.lean ====
section
/-! DEFINITION. The decoder of command words, total and rejecting by name, and the encoder written from the same table (`30_encoding.md` R100 to R107). -/

namespace Sys2Proof

/-- The opcodes of the table (`30_encoding.md` R103). -/
inductive Opcode where
  | init | config | sendCmd | flush
  | setPixel | getPixel | fill | readFb
  | rect | line | hline | vline
  | char | string
  deriving DecidableEq, Repr

/-- Why a word is ILLEGAL (`30_encoding.md` R104, R105), in the order R106 checks. -/
inductive Reject where
  /-- OPC is not in the table. -/
  | reservedOpcode
  /-- RSV is not 0. -/
  | reservedBits
  /-- V is 1 and the opcode does not use V. -/
  | unusedV
  /-- F is 1 and the opcode does not use F. -/
  | unusedF
  deriving DecidableEq, Repr

/-- OPC, bits 7:0 of a command word (`30_encoding.md` R100). -/
def opcField (c : Word) : Nat := (c.extractLsb' 0 8).toNat

/-- V, bit 8 of a command word. -/
def vField (c : Word) : Bool := c.getLsbD 8

/-- F, bit 9 of a command word. -/
def fField (c : Word) : Bool := c.getLsbD 9

/-- RSV, bits 15:10 of a command word. -/
def rsvField (c : Word) : Nat := (c.extractLsb' 10 6).toNat

/-- The table of `30_encoding.md` R103, from OPC to opcode. -/
def Opcode.ofCode (opc : Nat) : Option Opcode :=
  match opc with
  | 0x01 => some .init
  | 0x02 => some .config
  | 0x03 => some .sendCmd
  | 0x04 => some .flush
  | 0x10 => some .setPixel
  | 0x11 => some .getPixel
  | 0x12 => some .fill
  | 0x13 => some .readFb
  | 0x20 => some .rect
  | 0x21 => some .line
  | 0x22 => some .hline
  | 0x23 => some .vline
  | 0x30 => some .char
  | 0x31 => some .string
  | _ => none

/-- The opcodes that use V (`30_encoding.md` R107). -/
def Opcode.usesV : Opcode → Bool
  | .setPixel | .fill | .rect | .line | .hline | .vline => true
  | .init | .config | .sendCmd | .flush | .getPixel | .readFb | .char | .string => false

/-- The opcodes that use F (`30_encoding.md` R107). -/
def Opcode.usesF : Opcode → Bool
  | .init | .rect => true
  | .config | .sendCmd | .flush | .setPixel | .getPixel | .fill | .readFb
  | .line | .hline | .vline | .char | .string => false

/-- The command of an opcode with its V and F bits. -/
def Opcode.instr (o : Opcode) (v f : Bool) : Instr :=
  match o with
  | .init => .init f
  | .config => .config
  | .sendCmd => .sendCmd
  | .flush => .flush
  | .setPixel => .setPixel v
  | .getPixel => .getPixel
  | .fill => .fill v
  | .readFb => .readFb
  | .rect => .rect v f
  | .line => .line v
  | .hline => .hline v
  | .vline => .vline v
  | .char => .char
  | .string => .string

/-- `Decode(c)` of `30_encoding.md` R106: every word is a command or ILLEGAL. -/
def decode (c : Word) : Except Reject Instr :=
  match Opcode.ofCode (opcField c) with
  | none => .error .reservedOpcode
  | some o =>
    if rsvField c ≠ 0 then .error .reservedBits
    else if vField c = true ∧ o.usesV = false then .error .unusedV
    else if fField c = true ∧ o.usesF = false then .error .unusedF
    else .ok (o.instr (vField c) (fField c))

/-- The V bit in its place, `V<<8`. -/
def vBit (v : Bool) : Word := if v then 0x0100 else 0x0000

/-- The F bit in its place, `F<<9`. -/
def fBit (f : Bool) : Word := if f then 0x0200 else 0x0000

/-- The CMD word of a command, row by row from `30_encoding.md` R107. -/
def encode : Instr → Word
  | .init ext => 0x0001 ||| fBit ext
  | .config => 0x0002
  | .sendCmd => 0x0003
  | .flush => 0x0004
  | .setPixel v => 0x0010 ||| vBit v
  | .getPixel => 0x0011
  | .fill v => 0x0012 ||| vBit v
  | .readFb => 0x0013
  | .rect v f => 0x0020 ||| vBit v ||| fBit f
  | .line v => 0x0021 ||| vBit v
  | .hline v => 0x0022 ||| vBit v
  | .vline v => 0x0023 ||| vBit v
  | .char => 0x0030
  | .string => 0x0031

/-- What the decoder reads from an instruction whose bits are `w`, numbered as the opcode table numbers them: a command is one 16-bit word (`30_encoding.md` R106), and bits above `nbits` are 0. -/
def decodeTableWord (nbits w : Nat) : Option Instr :=
  match decode (BitVec.ofNat 16 (w % 2 ^ nbits)) with
  | .ok i => some i
  | .error _ => none

end Sys2Proof
end

