-- ==== Sys2Proof/Machine/State.lean ====
section
/-! DEFINITION. The state of the TDE as plain data (`10_state.md`), the reasons a step can stop, and the state after reset. -/

namespace Sys2Proof.Machine

/-- STATE, STATUS[1:0] (`10_state.md` R26). -/
inductive OpState where
  /-- 0: no frame buffer and no geometry yet. -/
  | reset
  /-- 1: after a successful INIT, before CONFIG. -/
  | unconfigured
  /-- 2: after CONFIG. -/
  | active
  /-- 3: a fatal allocation failure happened. -/
  | failed
  deriving DecidableEq, Repr

/-- The sticky bits, STATUS[14:8] (`10_state.md` R25). -/
structure Sticky where
  fOob     : Bool
  fAlloc   : Bool
  fGeom    : Bool
  fIllegal : Bool
  fNoinit  : Bool
  wChar    : Bool
  wUnconf  : Bool
  deriving DecidableEq, Repr

/-- The operand registers A0 to A3 (`10_state.md` R24). -/
structure OperandRegs where
  a0 : Word
  a1 : Word
  a2 : Word
  a3 : Word
  deriving DecidableEq, Repr

/-- The display handle: GEOM_W, GEOM_H, GEOM_PAGES, GEOM_BUFSIZE and the two fields of BUSCFG (`10_state.md` R28). -/
structure Geometry where
  w       : Word
  h       : Word
  pages   : Word
  bufsize : Word
  busAddr : BusAddr
  extvcc  : Bool
  deriving DecidableEq, Repr

/-- A bus transaction: a device address and the bytes written to it (`20_memory.md` R80). -/
structure Txn where
  addr  : BusAddr
  bytes : List Byte
  deriving DecidableEq, Repr

/-- LCMD, LA0 to LA3 and LTEXT, the copies taken at acceptance (`10_state.md` R33). -/
structure Latch where
  cmd  : Word
  regs : OperandRegs
  text : Vector Byte Config.textCap
  deriving DecidableEq, Repr

/-- The operations that emit bus transactions (`70_reset_and_hazards.md` R281). -/
inductive BusOp where
  | config
  | sendCmd
  | flush
  deriving DecidableEq, Repr

/-- PHASE, the position inside the running operation (`10_state.md` R34). -/
inductive Phase where
  /-- No operation. -/
  | idle
  /-- A command is latched and the engine has not started on it. -/
  | accepted
  /-- Transaction number `k` of the operation is pending. -/
  | running (op : BusOp) (k : Nat)
  deriving DecidableEq, Repr

/-- The frame-buffer store: the listed bytes, by strictly rising index, none equal to what an unlisted byte reads as. -/
abbrev Memory := List Host.Cell

/-- What an unlisted byte of the frame-buffer store reads as. DESIGN CHOICE (`10_state.md` R38 leaves the store unspecified; log 3). -/
def Memory.unlisted : Byte := 0x00

/-- The canonical form of a memory. -/
abbrev Memory.wf (m : Memory) : Prop :=
  m.Pairwise (fun c d => c.1 < d.1) ∧ ∀ c ∈ m, c.2 ≠ Memory.unlisted

/-- The state of the TDE, with the outside world that moves it. -/
structure State where
  /-- STATUS[1:0] (R26). -/
  opState  : OpState
  /-- STATUS[2] (R29). -/
  busy     : Bool
  /-- STATUS[14:8] (R25). -/
  sticky   : Sticky
  /-- A0 to A3 (R24). -/
  regs     : OperandRegs
  /-- RESULT (R27). -/
  result   : Word
  /-- GEOM_W, GEOM_H, GEOM_PAGES, GEOM_BUFSIZE, BUSCFG (R28). -/
  geom     : Geometry
  /-- TEXT (R31). -/
  text     : Vector Byte Config.textCap
  /-- LCMD, LA0 to LA3, LTEXT (R33). -/
  latch    : Latch
  /-- PHASE (R34). -/
  phase    : Phase
  /-- PENDING (R34; `20_memory.md` R81). -/
  pending  : Option Txn
  /-- FB (R35). -/
  fb       : Memory
  /-- FONT and the glyph bases, constants (R36; log 7). -/
  rom      : FontRom
  /-- LOG, oldest first (R37). -/
  log      : List Txn
  /-- The accesses the host has still to make, in order (the model's own; log 1). -/
  host     : List HostAccess
  /-- The values the host's reads have returned, in order (the model's own; log 14). -/
  reads    : List Word
  /-- The agents that move at the coming steps (the model's own; log 1). -/
  schedule : List Agent
  /-- How many times a free value was drawn (the model's own; log 19). -/
  draws    : Nat
  deriving DecidableEq, Repr

/-- Why the machine stops at a fault. -/
inductive Fault where
  /-- Raised by a host access whose offset lies outside the 512-byte window, where the TDE has no register (`10_state.md` R22). Safe: the model stops where the TDE is not even addressed. -/
  | outsideWindow
  deriving DecidableEq, Repr

/-- Why the machine refuses to go on. -/
inductive Refusal where
  /-- Raised by exec's arm of an instruction that has no meaning yet. Safe. -/
  | notModelled (mnemonic : String)
  /-- Raised by a host access of the wrong width or alignment, which the spec does not admit and tells a model to refuse (`10_state.md` R32). Safe. -/
  | accessNotAdmitted
  deriving DecidableEq, Repr

/-- No sticky bit set. -/
def Sticky.clear : Sticky := ⟨false, false, false, false, false, false, false⟩

/-- A0 to A3 all 0. -/
def OperandRegs.zero : OperandRegs := ⟨0, 0, 0, 0⟩

/-- The geometry registers before the first INIT (`10_state.md` R28). -/
def Geometry.zero : Geometry := ⟨0, 0, 0, 0, 0, false⟩

/-- TEXT with every byte 0x00. -/
def blankText : Vector Byte Config.textCap := Vector.replicate Config.textCap 0

/-- The state right after reset (`10_state.md` R38). FB (log 3), the latch (log 4) and the model's own fields (log 2, 14, 19) hold DESIGN CHOICE values; FONT is OPEN (log 7). -/
def State.reset : State where
  opState  := .reset
  busy     := false
  sticky   := Sticky.clear
  regs     := OperandRegs.zero
  result   := 0
  geom     := Geometry.zero
  text     := blankText
  latch    := ⟨0, OperandRegs.zero, blankText⟩
  phase    := .idle
  pending  := none
  fb       := []
  rom      := Config.font
  log      := []
  host     := []
  reads    := []
  schedule := []
  draws    := 0

end Sys2Proof.Machine
end

