-- ==== Sys2Proof/Machine/Flags.lean ====
section
/-! DEFINITION. The STATUS bits, the STATUS and BUSCFG words computed from their fields (`10_state.md` R25, R28; log 17), and the operating states that admit commands. -/

namespace Sys2Proof.Machine

/-- The faults and warnings of the fault table (`60_exceptions.md` R242). -/
inductive StatusFault where
  | oob | alloc | geom | illegal | noinit | char | unconf
  deriving DecidableEq, Repr

/-- The cause code of a fault is its STATUS bit number (`60_exceptions.md` R242). -/
def StatusFault.code : StatusFault → Nat
  | .oob => 8
  | .alloc => 9
  | .geom => 10
  | .illegal => 11
  | .noinit => 12
  | .char => 13
  | .unconf => 14

/-- The sticky bit of a fault. -/
def Sticky.get (k : Sticky) : StatusFault → Bool
  | .oob => k.fOob
  | .alloc => k.fAlloc
  | .geom => k.fGeom
  | .illegal => k.fIllegal
  | .noinit => k.fNoinit
  | .char => k.wChar
  | .unconf => k.wUnconf

/-- Set the sticky bit of a fault; every other bit stays (`60_exceptions.md` R241). -/
def Sticky.set (k : Sticky) : StatusFault → Sticky
  | .oob => { k with fOob := true }
  | .alloc => { k with fAlloc := true }
  | .geom => { k with fGeom := true }
  | .illegal => { k with fIllegal := true }
  | .noinit => { k with fNoinit := true }
  | .char => { k with wChar := true }
  | .unconf => { k with wUnconf := true }

/-- The value of STATE (`10_state.md` R26). -/
def OpState.code : OpState → BitVec 2
  | .reset => 0
  | .unconfigured => 1
  | .active => 2
  | .failed => 3

/-- The STATUS word, bit 15 first (`10_state.md` R25): bits 15 and 7:3 are hardwired 0. -/
def State.statusWord (s : State) : Word :=
  0#1 ++ BitVec.ofBool s.sticky.wUnconf ++ BitVec.ofBool s.sticky.wChar ++ BitVec.ofBool s.sticky.fNoinit ++
  BitVec.ofBool s.sticky.fIllegal ++ BitVec.ofBool s.sticky.fGeom ++ BitVec.ofBool s.sticky.fAlloc ++
  BitVec.ofBool s.sticky.fOob ++ 0#5 ++ BitVec.ofBool s.busy ++ s.opState.code

/-- The BUSCFG word, bit 15 first (`10_state.md` R28): bits 15:9 and 7 are hardwired 0. -/
def Geometry.buscfgWord (g : Geometry) : Word :=
  0#7 ++ BitVec.ofBool g.extvcc ++ 0#1 ++ g.busAddr

/-- The operational states: those in which commands other than INIT run (`10_state.md` R26). -/
abbrev OpState.operational (o : OpState) : Prop := o = .unconfigured ∨ o = .active

end Sys2Proof.Machine
end

