-- ==== Sys2Proof/Machine/Operands.lean ====
section
/-! DEFINITION. The three ways an operation reads an operand register (`30_encoding.md` R102), from the latched copies (`10_state.md` R33). -/

namespace Sys2Proof.Machine

/-- A coordinate: `sext_16`. -/
def coord (v : Word) : Int := v.toInt

/-- A size, count or index: `zext_16`. -/
def size (v : Word) : Nat := v.toNat

/-- A byte: bits 7:0; bits 15:8 are ignored. -/
def lowByte (v : Word) : Byte := v.extractLsb' 0 8

/-- `A[0]` of the pseudocode: the latched A0. -/
def State.op0 (s : State) : Word := s.latch.regs.a0

/-- `A[1]` of the pseudocode: the latched A1. -/
def State.op1 (s : State) : Word := s.latch.regs.a1

/-- `A[2]` of the pseudocode: the latched A2. -/
def State.op2 (s : State) : Word := s.latch.regs.a2

/-- `A[3]` of the pseudocode: the latched A3. -/
def State.op3 (s : State) : Word := s.latch.regs.a3

/-- `Text(0), ..., Text(n-1)` of the pseudocode: the first `n` latched text bytes (`20_memory.md` R76). -/
def State.textBytes (s : State) (n : Nat) : List Byte := s.latch.text.toList.take n

end Sys2Proof.Machine
end

