-- ==== Sys2Proof/Machine/Ops.lean ====
section
/-! DEFINITION. The shared operations: the frame-buffer store, raising faults, accepting and ending a command, reset, and the guarded pixel accesses. -/

namespace Sys2Proof.Machine

/-! ### The frame-buffer store -/

/-- `MemRead(i, 1)` (`20_memory.md` R61). -/
def Memory.read (m : Memory) (i : Nat) : Byte :=
  match m with
  | [] => Memory.unlisted
  | c :: rest => if c.1 = i then c.2 else Memory.read rest i

/-- `MemWrite(i, 1, v)` (`20_memory.md` R61), keeping the canonical form. -/
def Memory.write (m : Memory) (i : Nat) (v : Byte) : Memory :=
  match m with
  | [] => if v = Memory.unlisted then [] else [(i, v)]
  | c :: rest =>
    if i < c.1 then (if v = Memory.unlisted then c :: rest else (i, v) :: c :: rest)
    else if c.1 = i then (if v = Memory.unlisted then rest else (i, v) :: rest)
    else c :: Memory.write rest i v

/-- Write 0x00 to every byte below `n`: in canonical form those bytes are then unlisted. -/
def Memory.zeroBelow (m : Memory) (n : Nat) : Memory :=
  m.filter (fun c => decide (n ≤ c.1))

/-- Bytes `0 .. n-1` in ascending index order (`20_memory.md` R71). -/
def Memory.bytes (m : Memory) (n : Nat) : List Byte :=
  (List.range n).map (Memory.read m)

/-- A store of unspecified contents: every byte a free value of draw `n` (log 5, 6). -/
@[irreducible] def Memory.unspecified (n : Nat) : Memory :=
  (List.range Config.fbCapacity).foldl (fun m i => Memory.write m i (Config.freeStoreByte n i)) []

/-! ### Faults, acceptance, end of a command -/

/-- `raise Fault(F)`: set the sticky bit, change nothing else (`60_exceptions.md` R241). -/
def State.raise (s : State) (f : StatusFault) : State :=
  { s with sticky := s.sticky.set f }

/-- `end`: the operation completes and BUSY is cleared (`10_state.md` R29). -/
def State.finish (s : State) : State :=
  { s with busy := false, phase := .idle }

/-- `raise Fatal(F)`: set the bit, enter FAILED, end (`60_exceptions.md` R244). -/
def State.raiseFatal (s : State) (f : StatusFault) : State :=
  { (s.raise f).finish with opState := .failed }

/-- Acceptance of the command word `c`: BUSY is set and `c`, A0 to A3 and TEXT are latched, in one step (`10_state.md` R29, R33). -/
def State.accept (s : State) (c : Word) : State :=
  { s with busy := true, phase := .accepted, latch := ⟨c, s.regs, s.text⟩ }

/-- The checks every command but INIT passes before its own (`60_exceptions.md` R245): RESET ends it with F_NOINIT. FAILED is discarded before acceptance, so that case is never reached from a host write; it ends with no effect (log 16). -/
def State.whenOperational (s : State) (body : State → State) : State :=
  match s.opState with
  | .failed => s.finish
  | .reset => (s.raise .noinit).finish
  | .unconfigured => body s
  | .active => body s

/-! ### Reset -/

/-- The latched copies after a reset: free values of draw `n` (`10_state.md` R38: unspecified; log 5). -/
def Latch.unspecified (n : Nat) : Latch :=
  { cmd := Config.freeLatchWord n 0
    regs := ⟨Config.freeLatchWord n 1, Config.freeLatchWord n 2, Config.freeLatchWord n 3, Config.freeLatchWord n 4⟩
    text := Vector.ofFn (fun k => Config.freeLatchText n k.val) }

/-- The platform asserts reset (`70_reset_and_hazards.md` R270, R271): every register at its reset value, FB and the latches unspecified, FONT unchanged; a running command stops at once. The host's remaining accesses stay (log 15). -/
def State.platformReset (s : State) : State :=
  { State.reset with
    fb := Memory.unspecified s.draws
    latch := Latch.unspecified s.draws
    rom := s.rom
    host := s.host
    reads := s.reads
    schedule := s.schedule
    draws := s.draws + 1 }

/-! ### Pixels -/

/-- `InRange(x, y)` (`20_memory.md` R66). -/
abbrev Geometry.inRange (g : Geometry) (x y : Int) : Prop :=
  0 ≤ x ∧ x < (g.w.toNat : Int) ∧ 0 ≤ y ∧ y < (g.h.toNat : Int)

/-- `Index(x, y)` of an in-range pixel (`20_memory.md` R63, R64). -/
def Geometry.pixelIndex (g : Geometry) (x y : Int) : Nat :=
  y.toNat / 8 + x.toNat * g.pages.toNat + 1

/-- `Bit(x, y)` of an in-range pixel (`20_memory.md` R64). -/
def pixelBit (y : Int) : Nat := y.toNat % 8

/-- `(old & ~(1 << b) & 0xFF) | (v << b)` (`20_memory.md` R67). -/
def putBit (old : Byte) (b : Nat) (v : Bool) : Byte :=
  (old &&& ~~~(1#8 <<< b)) ||| ((if v then 1#8 else 0#8) <<< b)

/-- `PixelWrite(x, y, v)`: the guarded pixel write (`20_memory.md` R67). -/
def State.pixelWrite (s : State) (x y : Int) (v : Bool) : State :=
  if s.geom.inRange x y then
    let i := s.geom.pixelIndex x y
    { s with fb := Memory.write s.fb i (putBit (Memory.read s.fb i) (pixelBit y) v) }
  else s.raise .oob

/-- The bit of the frame buffer that holds an in-range pixel (`20_memory.md` R68). -/
def pixelAt (g : Geometry) (m : Memory) (x y : Int) : Bool :=
  (m.read (g.pixelIndex x y)).getLsbD (pixelBit y)

/-- One pixel write of an operation: where, and which value. -/
structure Dot where
  x : Int
  y : Int
  v : Bool
  deriving DecidableEq, Repr

/-- The pixel writes of an operation, in order (`20_memory.md` R90). -/
def State.draw (s : State) (dots : List Dot) : State :=
  dots.foldl (fun t d => t.pixelWrite d.x d.y d.v) s

/-- `for v in a .. a+n-1` over integers (`00_scope.md` R11). -/
def intRange (a : Int) (n : Nat) : List Int :=
  (List.range n).map fun (k : Nat) => a + (k : Int)

/-- `for v in a .. b`: nothing when `a > b` (`00_scope.md` R11). -/
def intSpan (a b : Int) : List Int := intRange a (b - a + 1).toNat

end Sys2Proof.Machine
end

