-- ==== Sys2Proof/Machine/Glyph.lean ====
section
/-! DEFINITION. The glyph family: CHAR, STRING (`43_glyph.md`). -/

namespace Sys2Proof.Machine

/-- The glyph number of a mapped character: 'A'..'Z', '0'..'9', 'a'..'z' (`43_glyph.md` R220); none for any other byte. -/
def mappedGlyph (r : FontRom) (c : Byte) : Option Nat :=
  if 0x41 ≤ c.toNat ∧ c.toNat ≤ 0x5A then some (r.gUpper + (c.toNat - 0x41))
  else if 0x30 ≤ c.toNat ∧ c.toNat ≤ 0x39 then some (r.gDigit + (c.toNat - 0x30))
  else if 0x61 ≤ c.toNat ∧ c.toNat ≤ 0x7A then some (r.gLower + (c.toNat - 0x61))
  else none

/-- `GlyphNumber(c)`: 0 for an unmapped character (`43_glyph.md` R220). -/
def glyphNumber (r : FontRom) (c : Byte) : Nat := (mappedGlyph r c).getD 0

/-- `FontRead(i)` (`20_memory.md` R75). A legal font is never read past its end; past it the read gives 0x00 (log 20). -/
def fontRead (r : FontRom) (i : Nat) : Byte := r.bytes.getD i 0

/-- The 64 pixel writes of one glyph: bit `j` of slice byte `i` goes to `(x + i, y + j)` (`43_glyph.md` R221). -/
def glyphDots (r : FontRom) (c : Byte) (x y : Int) : List Dot :=
  (List.range 8).flatMap fun (i : Nat) =>
    (List.range 8).map fun (j : Nat) =>
      ⟨x + (i : Int), y + (j : Int), (fontRead r (8 * glyphNumber r c + i)).getLsbD j⟩

/-- `Blit(c, x, y)`: W_CHAR for an unmapped character, then the 64 pixels (`43_glyph.md` R220, R221). -/
def State.blit (s : State) (c : Byte) (x y : Int) : State :=
  (if mappedGlyph s.rom c = none then s.raise .char else s).draw (glyphDots s.rom c x y)

/-- CHAR (`43_glyph.md` R221). -/
def execChar (s : State) : Host.Outcome State Fault Refusal :=
  .next (s.whenOperational fun t => (t.blit (lowByte t.op0) (coord t.op1) (coord t.op2)).finish)

/-- A character of a string and the origin of its cell. -/
structure GlyphCell where
  c : Byte
  x : Int
  y : Int
  deriving DecidableEq, Repr

/-- The characters STRING draws and where, on a surface of `w` by `h` (`43_glyph.md` R223): 0x00 ends it; after each glyph x advances by 8, wraps to 0 and the next row when the next glyph would exceed the width, and the string stops when that row would exceed the height. -/
def stringLayout (w h : Nat) (text : List Byte) (x y : Int) : List GlyphCell :=
  match text with
  | [] => []
  | c :: rest =>
    if c = 0 then []
    else
      ⟨c, x, y⟩ ::
        if x + 8 + 8 > w then
          if y + 8 + 8 > h then [] else stringLayout w h rest 0 (y + 8)
        else stringLayout w h rest (x + 8) y

/-- The glyphs of a string, drawn in order. -/
def State.blitAll (s : State) (cells : List GlyphCell) : State :=
  cells.foldl (fun t g => t.blit g.c g.x g.y) s

/-- The body of STRING (`43_glyph.md` R223, R224): F_ILLEGAL and nothing drawn when `n > TEXT_CAP`. -/
def State.drawString (s : State) (n : Nat) (x y : Int) : State :=
  if Config.textCap < n then (s.raise .illegal).finish
  else (s.blitAll (stringLayout s.geom.w.toNat s.geom.h.toNat (s.textBytes n) x y)).finish

/-- STRING (`43_glyph.md` R223). -/
def execString (s : State) : Host.Outcome State Fault Refusal :=
  .next (s.whenOperational fun t => t.drawString (size t.op0) (coord t.op1) (coord t.op2))

end Sys2Proof.Machine
end

