-- ==== Sys2Proof/Machine/Pixel.lean ====
section
/-! DEFINITION. The pixel family: SET_PIXEL, GET_PIXEL, FILL, READ_FB (`41_pixel.md`). -/

namespace Sys2Proof.Machine

/-- SET_PIXEL (`41_pixel.md` R170). -/
def execSetPixel (v : Bool) (s : State) : Host.Outcome State Fault Refusal :=
  .next (s.whenOperational fun t => (t.pixelWrite (coord t.op0) (coord t.op1) v).finish)

/-- RESULT takes `PixelRead(x, y)`; out of range it takes 0 and F_OOB is raised (`20_memory.md` R68, `41_pixel.md` R171). -/
def State.resultFromPixel (s : State) (x y : Int) : State :=
  if s.geom.inRange x y then
    { s with result := if pixelAt s.geom s.fb x y then 1 else 0 }
  else { s.raise .oob with result := 0 }

/-- GET_PIXEL (`41_pixel.md` R171). -/
def execGetPixel (s : State) : Host.Outcome State Fault Refusal :=
  .next (s.whenOperational fun t => (t.resultFromPixel (coord t.op0) (coord t.op1)).finish)

/-- The pixel writes of FILL, row by row (`41_pixel.md` R172). -/
def fillDots (w h : Nat) (v : Bool) : List Dot :=
  (intRange 0 h).flatMap fun y => (intRange 0 w).map fun x => ⟨x, y, v⟩

/-- FILL (`41_pixel.md` R172). -/
def execFill (v : Bool) (s : State) : Host.Outcome State Fault Refusal :=
  .next (s.whenOperational fun t => (t.draw (fillDots t.geom.w.toNat t.geom.h.toNat v)).finish)

/-- RESULT takes byte `i` of the frame buffer; beyond BUFSIZE it takes 0 and F_OOB is raised (`41_pixel.md` R173). -/
def State.resultFromByte (s : State) (i : Nat) : State :=
  if i < s.geom.bufsize.toNat then { s with result := (s.fb.read i).setWidth 16 }
  else { s.raise .oob with result := 0 }

/-- READ_FB (`41_pixel.md` R173). -/
def execReadFb (s : State) : Host.Outcome State Fault Refusal :=
  .next (s.whenOperational fun t => (t.resultFromByte (size t.op0)).finish)

end Sys2Proof.Machine
end

