-- ==== Sys2Proof/Machine/Bus.lean ====
section
/-! DEFINITION. The bus: the two kinds of transaction, the byte sequences of the sequencer, `Emit`, and the transport's turn (`20_memory.md` R80 to R83, `40_sequencer.md` R145, R149). -/

namespace Sys2Proof.Machine

/-- `CmdTxn(c)`: the command prefix, then `c` (`20_memory.md` R82). -/
def State.cmdTxn (s : State) (c : Byte) : Txn := ⟨s.geom.busAddr, [Config.commandMarker, c]⟩

/-- `DataTxn`: bytes `FB[0 .. BUFSIZE-1]` (`20_memory.md` R83). -/
def State.dataTxn (s : State) : Txn := ⟨s.geom.busAddr, s.fb.bytes s.geom.bufsize.toNat⟩

/-- `CONFIG_SEQ(H)` (`40_sequencer.md` R145). -/
def configSeq (h : Nat) : List Byte :=
  [0xAE, 0x20, 0x01, 0x40, 0xA1, 0xA8, BitVec.ofNat 8 (h - 1), 0xC8, 0xD3, 0x00, 0xDA, 0x12, 0xD5,
   0x80, 0xD9, 0xF1, 0xDB, 0x30, 0x81, 0xFF, 0xA4, 0xA6, 0x8D, 0x14, 0xAF]

/-- `WINDOW_SEQ` (`40_sequencer.md` R149). -/
def windowSeq (w pages : Nat) : List Byte :=
  [Config.cmdColAddr, 0x00, BitVec.ofNat 8 (w - 1), Config.cmdPageAddr, 0x00, BitVec.ofNat 8 (pages - 1)]

/-- The transactions an operation emits, in order (`40_sequencer.md` R146, R148, R150). -/
def BusOp.txns (s : State) : BusOp → List Txn
  | .config => (configSeq s.geom.h.toNat).map s.cmdTxn
  | .sendCmd => [s.cmdTxn (lowByte s.op0)]
  | .flush => (windowSeq s.geom.w.toNat s.geom.pages.toNat).map s.cmdTxn ++ [s.dataTxn]

/-- What an operation does after its last transaction is done: CONFIG makes STATE ACTIVE (`40_sequencer.md` R146), and every operation ends. -/
def BusOp.conclude (s : State) : BusOp → State
  | .config => { s with opState := .active }.finish
  | .sendCmd => s.finish
  | .flush => s.finish

/-- `Emit` of transaction `k`, up to its wait: hand it to the transport (`20_memory.md` R81); after the last one, conclude. -/
def State.emitFrom (s : State) (op : BusOp) (k : Nat) : State :=
  match (op.txns s)[k]? with
  | some t => { s with phase := .running op k, pending := some t }
  | none => op.conclude s

/-- The transport's turn: it reports the pending transaction done, which is appended to LOG, and the operation goes on (`20_memory.md` R81). With nothing pending it does nothing. -/
def State.transportTurn (s : State) : State :=
  match s.pending with
  | none => s
  | some t =>
    match s.phase with
    | .running op k => { s with log := s.log ++ [t], pending := none }.emitFrom op (k + 1)
    | .idle => { s with log := s.log ++ [t], pending := none }
    | .accepted => { s with log := s.log ++ [t], pending := none }

end Sys2Proof.Machine
end

