-- ==== Sys2Proof/Machine/Sequencer.lean ====
section
/-! DEFINITION. The sequencer family: INIT, CONFIG, SEND_CMD, FLUSH (`40_sequencer.md`). -/

namespace Sys2Proof.Machine

/-- `GeometryOK(w, h, a)` (`40_sequencer.md` R141). -/
abbrev geometryOK (w h a : Nat) : Prop :=
  1 ≤ w ∧ w ≤ 256 ∧ 8 ≤ h ∧ h ≤ 256 ∧ h % 8 = 0 ∧ a ≤ 0x7F

/-- The buffer size `PAGES * W + 1` (`00_scope.md` R6). -/
def bufferSize (w h : Nat) : Nat := h / 8 * w + 1

/-- The geometry registers INIT writes (`40_sequencer.md` R143). -/
def initGeometry (w h a : Nat) (ext : Bool) : Geometry where
  w       := BitVec.ofNat 16 w
  h       := BitVec.ofNat 16 h
  pages   := BitVec.ofNat 16 (h / 8)
  bufsize := BitVec.ofNat 16 (bufferSize w h)
  busAddr := BitVec.ofNat 7 a
  extvcc  := ext

/-- INIT with a legal geometry that fits the store (`40_sequencer.md` R143). -/
def State.initSurface (s : State) (w h a : Nat) (ext : Bool) : State :=
  { s with
    geom := initGeometry w h a ext
    fb := (s.fb.zeroBelow (bufferSize w h)).write 0 Config.dataMarker
    opState := .unconfigured }.finish

/-- INIT with more buffer than the store has (`40_sequencer.md` R142): fatal, and the store is unspecified from then on (log 6). -/
def State.initOverflow (s : State) : State :=
  { s.raiseFatal .alloc with fb := Memory.unspecified s.draws, draws := s.draws + 1 }

/-- INIT of `w`, `h`, `a` in a state that admits commands (`40_sequencer.md` R140): F_GEOM, then F_ALLOC, then the effects. -/
def State.initWith (s : State) (w h a : Nat) (ext : Bool) : State :=
  if ¬ geometryOK w h a then (s.raise .geom).finish
  else if Config.fbCapacity < bufferSize w h then s.initOverflow
  else s.initSurface w h a ext

/-- INIT (`40_sequencer.md` R140). It is the one command that runs in RESET; FAILED as for every command (log 16). -/
def execInit (ext : Bool) (s : State) : Host.Outcome State Fault Refusal :=
  match s.opState with
  | .failed => .next s.finish
  | .reset => .next (s.initWith (size s.op0) (size s.op1) (size s.op2) ext)
  | .unconfigured => .next (s.initWith (size s.op0) (size s.op1) (size s.op2) ext)
  | .active => .next (s.initWith (size s.op0) (size s.op1) (size s.op2) ext)

/-- CONFIG (`40_sequencer.md` R146): hand over the first of its 25 transactions; the transport's reports drive the rest. -/
def execConfig (s : State) : Host.Outcome State Fault Refusal :=
  .next (s.whenOperational fun t => t.emitFrom .config 0)

/-- SEND_CMD (`40_sequencer.md` R148). -/
def execSendCmd (s : State) : Host.Outcome State Fault Refusal :=
  .next (s.whenOperational fun t => t.emitFrom .sendCmd 0)

/-- FLUSH (`40_sequencer.md` R150): W_UNCONF in UNCONFIGURED, before it emits (log 22), then its 7 transactions. -/
def execFlush (s : State) : Host.Outcome State Fault Refusal :=
  .next (s.whenOperational fun t =>
    (if t.opState = .unconfigured then t.raise .unconf else t).emitFrom .flush 0)

end Sys2Proof.Machine
end

