-- ==== Sys2Proof/Machine/Shapes.lean ====
section
/-! DEFINITION. The shape family: RECT, LINE, HLINE, VLINE (`42_shapes.md`). -/

namespace Sys2Proof.Machine

/-- The pixel writes of RECT (`42_shapes.md` R191): the top and bottom edges, the left and right edges, then the interior if `filled`; none if the width or the height is 0 (R193). -/
def rectDots (top left : Int) (w h : Nat) (v filled : Bool) : List Dot :=
  if w = 0 ∨ h = 0 then []
  else
    ((intRange left w).flatMap fun x => [⟨x, top, v⟩, ⟨x, top + h - 1, v⟩]) ++
    ((intRange top h).flatMap fun y => [⟨left, y, v⟩, ⟨left + w - 1, y, v⟩]) ++
    (if filled then
      (intSpan (left + 1) (left + w - 2)).flatMap fun x =>
        (intSpan (top + 1) (top + h - 2)).map fun y => ⟨x, y, v⟩
    else [])

/-- RECT (`42_shapes.md` R191). -/
def execRect (v filled : Bool) (s : State) : Host.Outcome State Fault Refusal :=
  .next (s.whenOperational fun t =>
    (t.draw (rectDots (coord t.op0) (coord t.op1) (size t.op2) (size t.op3) v filled)).finish)

/-- What stays fixed along one line: its end point, the two distances and the two directions (`42_shapes.md` R194). -/
structure LinePlan where
  x1 : Int
  y1 : Int
  dx : Int
  dy : Int
  sx : Int
  sy : Int
  deriving DecidableEq, Repr

/-- The setup of LINE (`42_shapes.md` R194). -/
def linePlan (x0 y0 x1 y1 : Int) : LinePlan where
  x1 := x1
  y1 := y1
  dx := |x1 - x0|
  dy := |y1 - y0|
  sx := if x0 < x1 then 1 else -1
  sy := if y0 < y1 then 1 else -1

/-- The loop of LINE from the pixel `(x, y)` with error `err` (`42_shapes.md` R194), for at most `fuel` pixels (log 18). -/
def LinePlan.walk (p : LinePlan) (fuel : Nat) (x y err : Int) : List (Int × Int) :=
  match fuel with
  | 0 => []
  | fuel + 1 =>
    (x, y) ::
      if x = p.x1 ∧ y = p.y1 then []
      else
        let e2 := 2 * err
        let stepX := -p.dy < e2
        let stepY := e2 < p.dx
        p.walk fuel (if stepX then x + p.sx else x) (if stepY then y + p.sy else y)
          (err - (if stepX then p.dy else 0) + (if stepY then p.dx else 0))

/-- The pixels LINE visits, in order (`42_shapes.md` R194); the fuel is the count of R195 law 2 (log 18). -/
def linePixels (x0 y0 x1 y1 : Int) : List (Int × Int) :=
  let p := linePlan x0 y0 x1 y1
  p.walk ((max p.dx p.dy).toNat + 1) x0 y0 (p.dx - p.dy)

/-- LINE (`42_shapes.md` R194). -/
def execLine (v : Bool) (s : State) : Host.Outcome State Fault Refusal :=
  .next (s.whenOperational fun t =>
    (t.draw ((linePixels (coord t.op0) (coord t.op1) (coord t.op2) (coord t.op3)).map
      fun p => ⟨p.1, p.2, v⟩)).finish)

/-- The pixel writes of HLINE: `x` from `a` to `b` in row `y` (`42_shapes.md` R197). -/
def hlineDots (a b y : Int) (v : Bool) : List Dot :=
  (intSpan a b).map fun x => ⟨x, y, v⟩

/-- HLINE (`42_shapes.md` R197). -/
def execHline (v : Bool) (s : State) : Host.Outcome State Fault Refusal :=
  .next (s.whenOperational fun t =>
    (t.draw (hlineDots (coord t.op0) (coord t.op1) (coord t.op2) v)).finish)

/-- The pixel writes of VLINE: `y` from `a` to `b` in column `x` (`42_shapes.md` R198). -/
def vlineDots (a b x : Int) (v : Bool) : List Dot :=
  (intSpan a b).map fun y => ⟨x, y, v⟩

/-- VLINE (`42_shapes.md` R198). -/
def execVline (v : Bool) (s : State) : Host.Outcome State Fault Refusal :=
  .next (s.whenOperational fun t =>
    (t.draw (vlineDots (coord t.op0) (coord t.op1) (coord t.op2) v)).finish)

end Sys2Proof.Machine
end

