-- ==== Sys2Proof/Machine/Dispatch.lean ====
section
/-! DEFINITION. The meaning of every command: one arm per constructor of Instr. -/

namespace Sys2Proof.Machine

/-- Perform the latched command `i` (`60_exceptions.md` R245, from check 3 on). -/
def exec (i : Instr) (s : State) : Host.Outcome State Fault Refusal :=
  match i with
  | .init ext => Sys2Proof.Machine.execInit ext s
  | .config => Sys2Proof.Machine.execConfig s
  | .sendCmd => Sys2Proof.Machine.execSendCmd s
  | .flush => Sys2Proof.Machine.execFlush s
  | .setPixel v => Sys2Proof.Machine.execSetPixel v s
  | .getPixel => Sys2Proof.Machine.execGetPixel s
  | .fill v => Sys2Proof.Machine.execFill v s
  | .readFb => Sys2Proof.Machine.execReadFb s
  | .rect v filled => Sys2Proof.Machine.execRect v filled s
  | .line v => Sys2Proof.Machine.execLine v s
  | .hline v => Sys2Proof.Machine.execHline v s
  | .vline v => Sys2Proof.Machine.execVline v s
  | .char => Sys2Proof.Machine.execChar s
  | .string => Sys2Proof.Machine.execString s

end Sys2Proof.Machine
end

