-- ==== Sys2Proof/Machine/Engine.lean ====
section
/-! DEFINITION. The engine's turn: decode the latched command word and perform it (`60_exceptions.md` R245). -/

namespace Sys2Proof.Machine

/-- The latched word is decoded; ILLEGAL raises F_ILLEGAL and ends (`30_encoding.md` R104, R105), anything else is performed. -/
def State.perform (s : State) : Host.Outcome State Fault Refusal :=
  match decode s.latch.cmd with
  | .ok i => exec i s
  | .error _ => .next (s.raise .illegal).finish

/-- The engine's turn (`10_state.md` R29, R73 of `20_memory.md`; log 10): an accepted command is performed in one turn, up to its end or its first wait for the transport; otherwise the engine waits. -/
def State.engineTurn (s : State) : Host.Outcome State Fault Refusal :=
  match s.phase with
  | .accepted => s.perform
  | .idle => .next s
  | .running _ _ => .next s

end Sys2Proof.Machine
end

