-- ==== Sys2Proof/Machine/HostPort.lean ====
section
/-! DEFINITION. The host's side of the register window: which accesses are admitted, what a read returns, what a write does, and the host's turn (`10_state.md` R22 to R32). -/

namespace Sys2Proof.Machine

/-- The 16-bit registers of the window (`10_state.md` R22). -/
inductive WindowReg where
  | cmd | status | a0 | a1 | a2 | a3 | result
  | geomW | geomH | geomPages | geomBufsize | buscfg
  deriving DecidableEq, Repr

/-- The offset map of the 16-bit registers (`10_state.md` R22). -/
def WindowReg.ofOffset (off : Nat) : Option WindowReg :=
  match off with
  | 0x000 => some .cmd
  | 0x002 => some .status
  | 0x004 => some .a0
  | 0x006 => some .a1
  | 0x008 => some .a2
  | 0x00A => some .a3
  | 0x00C => some .result
  | 0x00E => some .geomW
  | 0x010 => some .geomH
  | 0x012 => some .geomPages
  | 0x014 => some .geomBufsize
  | 0x016 => some .buscfg
  | _ => none

/-- The offset belongs to a 16-bit register (`10_state.md` R22). -/
def isWordOffset (off : Nat) : Bool := off < 0x018

/-- The offset belongs to a TEXT register (`10_state.md` R22). -/
def isTextOffset (off : Nat) : Bool := 0x100 ≤ off ∧ off < 0x100 + Config.textCap

/-- A 16-bit access is admitted at an even offset that is no TEXT register's (`10_state.md` R32; reserved offsets: log 12). -/
def admitted16 (off : Nat) : Bool := off % 2 = 0 ∧ isTextOffset off = false

/-- An 8-bit access is admitted where there is no 16-bit register (`10_state.md` R32; reserved offsets: log 12). -/
def admitted8 (off : Nat) : Bool := isWordOffset off = false

/-- The access has a width and an alignment the window admits (`10_state.md` R32, `20_memory.md` R72). -/
def admitted : HostAccess → Bool
  | .wr16 off _ => admitted16 off
  | .wr8 off _ => admitted8 off
  | .rd16 off => admitted16 off
  | .rd8 off => admitted8 off
  | .waitIdle => true

/-- What a 16-bit read returns (`10_state.md` R22 to R28); a reserved offset reads 0 (R30). -/
def State.read16 (s : State) (off : Nat) : Word :=
  match WindowReg.ofOffset off with
  | none => 0
  | some .cmd => 0
  | some .status => s.statusWord
  | some .a0 => s.regs.a0
  | some .a1 => s.regs.a1
  | some .a2 => s.regs.a2
  | some .a3 => s.regs.a3
  | some .result => s.result
  | some .geomW => s.geom.w
  | some .geomH => s.geom.h
  | some .geomPages => s.geom.pages
  | some .geomBufsize => s.geom.bufsize
  | some .buscfg => s.geom.buscfgWord

/-- What an 8-bit read returns: a TEXT byte (`10_state.md` R31), or 0 at a reserved offset (R30). -/
def State.read8 (s : State) (off : Nat) : Byte :=
  if isTextOffset off then s.text.toList.getD (off - 0x100) 0 else 0

/-- A 16-bit write that is not held (`10_state.md` R23, R24, R29, R30): CMD is accepted, or discarded in FAILED (`60_exceptions.md` R244); A0 to A3 store; read-only registers and reserved offsets ignore it. -/
def State.write16 (s : State) (off : Nat) (val : Word) : State :=
  match WindowReg.ofOffset off with
  | some .cmd => if s.opState = .failed then s else s.accept val
  | some .a0 => { s with regs := { s.regs with a0 := val } }
  | some .a1 => { s with regs := { s.regs with a1 := val } }
  | some .a2 => { s with regs := { s.regs with a2 := val } }
  | some .a3 => { s with regs := { s.regs with a3 := val } }
  | some .status => s
  | some .result => s
  | some .geomW => s
  | some .geomH => s
  | some .geomPages => s
  | some .geomBufsize => s
  | some .buscfg => s
  | none => s

/-- An 8-bit write that is not held: a TEXT byte stores (`10_state.md` R31), a reserved offset ignores it (R30). -/
def State.write8 (s : State) (off : Nat) (val : Byte) : State :=
  if isTextOffset off then { s with text := s.text.setIfInBounds (off - 0x100) val } else s

/-- The access `a` is made, with the rest of the host's program in `s` (`10_state.md` R29): a write while BUSY is held, so it stays the host's next access; a read is never held, and its value is recorded (log 14); `WAITIDLE` polls STATUS once (`30_encoding.md` R108). -/
def State.access (s : State) (a : HostAccess) : State :=
  match a with
  | .wr16 off val => if s.busy then { s with host := a :: s.host } else s.write16 off val
  | .wr8 off val => if s.busy then { s with host := a :: s.host } else s.write8 off val
  | .rd16 off => { s with reads := s.reads ++ [s.read16 off] }
  | .rd8 off => { s with reads := s.reads ++ [(s.read8 off).setWidth 16] }
  | .waitIdle => if (s.read16 0x002).getLsbD 2 then { s with host := a :: s.host } else s

/-- The host's turn: its next access, if it has one (log 2). An offset outside the window is a fault; an access of the wrong width or alignment is refused (`10_state.md` R32; log 13). -/
def State.hostTurn (s : State) : Host.Outcome State Fault Refusal :=
  match s.host with
  | [] => .next s
  | a :: rest =>
    if a.inWindow = false then .fault .outsideWindow
    else if admitted a = false then .refused .accessNotAdmitted
    else .next ({ s with host := rest }.access a)

end Sys2Proof.Machine
end

