-- ==== Sys2Proof/Machine/Step.lean ====
section
/-! DEFINITION. One step of the TDE and the outside world: the turn of the next agent of the schedule (log 1). -/

namespace Sys2Proof.Machine

/-- The agent at the head of the schedule takes its turn. An empty schedule changes nothing: after reset the TDE runs nothing until the host acts (`70_reset_and_hazards.md` R272; log 2). -/
def step (s : State) : Host.Outcome State Fault Refusal :=
  match s.schedule with
  | [] => .next s
  | .host :: rest => { s with schedule := rest }.hostTurn
  | .engine :: rest => { s with schedule := rest }.engineTurn
  | .transport :: rest => .next { s with schedule := rest }.transportTurn
  | .platform :: rest => .next { s with schedule := rest }.platformReset

/-- `s` with the command word `w` accepted and the engine to move next: what a host write of `w` to CMD leaves when it is accepted (`10_state.md` R29; log 2). -/
def State.withFetchWord (s : State) (nbits w : Nat) : State :=
  { s.accept (BitVec.ofNat 16 (w % 2 ^ nbits)) with schedule := .engine :: s.schedule }

end Sys2Proof.Machine
end

