-- ==== Sys2Proof/Machine/HostProgram.lean ====
section
/-! DEFINITION. The assembler: mnemonics and pseudo-instructions as the window accesses they expand to (`30_encoding.md` R108 to R110). -/

namespace Sys2Proof.Machine

/-- An operand as its 16-bit register value; a negative number is its two's complement (`30_encoding.md` R109). -/
def operandWord (v : Int) : Word := BitVec.ofInt 16 v

/-- The writes of operand registers A0, A1, ... in that order. -/
def operandWrites (vs : List Int) : List HostAccess :=
  vs.zipIdx.map fun p => .wr16 (0x004 + 2 * p.2) (operandWord p.1)

/-- The write of CMD that issues a command. -/
def issue (i : Instr) : HostAccess := .wr16 0x000 (encode i)

/-- The expansion of a mnemonic (`30_encoding.md` R109). -/
def expandMnemonic : Mnemonic → List HostAccess
  | .init w h addr ext => operandWrites [w, h, addr] ++ [issue (.init ext)]
  | .config => [issue .config]
  | .sendCmd c => operandWrites [c] ++ [issue .sendCmd]
  | .flush => [issue .flush]
  | .setPix x y v => operandWrites [x, y] ++ [issue (.setPixel v)]
  | .getPix x y => operandWrites [x, y] ++ [issue .getPixel]
  | .fill v => [issue (.fill v)]
  | .readFb i => operandWrites [i] ++ [issue .readFb]
  | .rect top left w h v f => operandWrites [top, left, w, h] ++ [issue (.rect v f)]
  | .line x0 y0 x1 y1 v => operandWrites [x0, y0, x1, y1] ++ [issue (.line v)]
  | .hline a b y v => operandWrites [a, b, y] ++ [issue (.hline v)]
  | .vline a b x v => operandWrites [a, b, x] ++ [issue (.vline v)]
  | .char c x y => operandWrites [c, x, y] ++ [issue .char]
  | .string s x y =>
    (s.zipIdx.map fun p => .wr8 (0x100 + p.2) p.1) ++ operandWrites [s.length, x, y] ++ [issue .string]

/-- The expansion of a pseudo-instruction (`30_encoding.md` R110). -/
def expandPseudo : Pseudo → List HostAccess
  | .clear => expandMnemonic (.fill false)
  | .pixOn x y => expandMnemonic (.setPix x y true)
  | .pixOff x y => expandMnemonic (.setPix x y false)
  | .square x y => expandMnemonic (.rect y x 8 8 true true)
  | .outline top left w h => expandMnemonic (.rect top left w h true false)
  | .getPixW x y => expandMnemonic (.getPix x y) ++ [.waitIdle, .rd16 0x00C]
  | .boot w h addr => expandMnemonic (.init w h addr false) ++ expandMnemonic .config

end Sys2Proof.Machine
end

