-- ==== Sys2Proof/Safety.lean ====
section
/-! DEFINITION. The terms claims are stated in: legal geometries, states in which drawing is meaningful, the framing of bus transactions, what it means that a command draws exactly a set of pixels, and the machine's invariant. -/

namespace Sys2Proof.Machine

/-- The geometry registers hold what a successful INIT writes (`10_state.md` R28, `40_sequencer.md` R141, R142). -/
abbrev Geometry.legal (g : Geometry) : Prop :=
  1 ≤ g.w.toNat ∧ g.w.toNat ≤ 256 ∧ 8 ≤ g.h.toNat ∧ g.h.toNat ≤ 256 ∧ g.h.toNat % 8 = 0 ∧
  g.pages.toNat = g.h.toNat / 8 ∧ g.bufsize.toNat = g.pages.toNat * g.w.toNat + 1 ∧
  g.bufsize.toNat ≤ Config.fbCapacity

/-- An operational state (`10_state.md` R26) with a legal surface and a frame buffer in canonical form: what every state after a successful INIT satisfies (`Inv`). -/
abbrev State.ready (s : State) : Prop :=
  s.opState.operational ∧ s.geom.legal ∧ s.fb.wf

/-- A transaction has one of the two shapes of the bus (`20_memory.md` R80): the command prefix and one byte, or the data prefix and at least one byte of pixel data. -/
def Txn.framed (t : Txn) : Prop :=
  (∃ c, t.bytes = [Config.commandMarker, c]) ∨
  (∃ d rest, t.bytes = Config.dataMarker :: d :: rest)

/-- From `s`, the command `i` ends having given the value `v` to every in-range pixel of the set `P`, and changed nothing else: every other pixel and every byte that holds no pixel of `P` is as before, F_OOB is set exactly if it was or `P` has an out-of-range pixel (`20_memory.md` R67, R90). -/
def State.drawsExactly (s : State) (i : Instr) (v : Bool) (P : Int → Int → Prop) : Prop :=
  ∃ m : Memory, ∃ k : Bool,
    exec i s = .next { s.finish with fb := m, sticky := { s.sticky with fOob := k } } ∧
    (k = true ↔ s.sticky.fOob = true ∨ ∃ x y, P x y ∧ ¬ s.geom.inRange x y) ∧
    (∀ x y, s.geom.inRange x y → P x y → pixelAt s.geom m x y = v) ∧
    (∀ x y, s.geom.inRange x y → ¬ P x y → pixelAt s.geom m x y = pixelAt s.geom s.fb x y) ∧
    (∀ a, (∀ x y, P x y → s.geom.inRange x y → s.geom.pixelIndex x y ≠ a) →
      Memory.read m a = Memory.read s.fb a)

/-- From `s`, the command `i` ends with F_NOINIT and no other effect (`60_exceptions.md` R245, check 3). -/
def State.endsWithNoinit (s : State) (i : Instr) : Prop :=
  exec i s = .next { s with busy := false, phase := .idle, sticky := { s.sticky with fNoinit := true } }

/-- The sticky bits set in `k` or in `d`: raising the faults of `d` one after the other (`60_exceptions.md` R241). -/
def Sticky.union (k d : Sticky) : Sticky where
  fOob     := k.fOob || d.fOob
  fAlloc   := k.fAlloc || d.fAlloc
  fGeom    := k.fGeom || d.fGeom
  fIllegal := k.fIllegal || d.fIllegal
  fNoinit  := k.fNoinit || d.fNoinit
  wChar    := k.wChar || d.wChar
  wUnconf  := k.wUnconf || d.wUnconf

/-- The pixels of RECT: `Edge` and, if filled, `Interior` (`42_shapes.md` R190); none if the width or the height is 0 (R193). -/
def rectCovers (top left : Int) (w h : Nat) (filled : Bool) (x y : Int) : Prop :=
  1 ≤ w ∧ 1 ≤ h ∧
  ((left ≤ x ∧ x ≤ left + w - 1 ∧ (y = top ∨ y = top + h - 1)) ∨
   (top ≤ y ∧ y ≤ top + h - 1 ∧ (x = left ∨ x = left + w - 1)) ∨
   (filled = true ∧ left + 1 ≤ x ∧ x ≤ left + w - 2 ∧ top + 1 ≤ y ∧ y ≤ top + h - 2))

/-- The 8x8 cell with its origin at `(x, y)`. -/
def cellCovers (x y px py : Int) : Prop := x ≤ px ∧ px < x + 8 ∧ y ≤ py ∧ py < y + 8

/-- `s` with the operands `r` latched. -/
def State.withOperands (s : State) (r : OperandRegs) : State :=
  { s with latch := { s.latch with regs := r } }

/-- `n` done reports of the transport, one after the other. -/
def State.reports (s : State) (n : Nat) : State := Nat.repeat State.transportTurn n s

/-- What holds in every state the TDE can reach. -/
structure Inv (s : State) : Prop where
  /-- The frame-buffer store is in canonical form. -/
  fbCanonical : s.fb.wf
  /-- It lists no byte beyond the store (`10_state.md` R35). -/
  fbInStore : ∀ c ∈ s.fb, c.1 < Config.fbCapacity
  /-- The font obeys `00_scope.md` R7. -/
  fontLegal : s.rom.legal
  /-- F_ALLOC is set exactly in FAILED (`10_state.md` R26, `60_exceptions.md` R242). -/
  allocFailed : s.sticky.fAlloc = true ↔ s.opState = .failed
  /-- In RESET there is no geometry (`10_state.md` R28). -/
  resetGeometry : s.opState = .reset → s.geom = Geometry.zero
  /-- In the operational states the geometry is legal (`40_sequencer.md` R141, R142). -/
  geometryLegal : s.opState.operational → s.geom.legal
  /-- In the operational states byte 0 is the data prefix (`20_memory.md` R62). -/
  dataMarker : s.opState.operational → Memory.read s.fb 0 = Config.dataMarker
  /-- BUSY is 1 exactly while there is an operation (`10_state.md` R29, R34). -/
  busyPhase : s.busy = true ↔ s.phase ≠ .idle
  /-- While BUSY the operand registers and TEXT are as latched (`10_state.md` R33). -/
  latched : s.busy = true → s.latch.regs = s.regs ∧ s.latch.text = s.text
  /-- A command is never accepted in FAILED (`10_state.md` R29). -/
  acceptedState : s.phase = .accepted → s.opState ≠ .failed
  /-- A bus operation runs only in an operational state, and the pending transaction is the one its position names (`20_memory.md` R81). -/
  pendingIsNext : ∀ op k, s.phase = .running op k →
    s.opState.operational ∧ ∃ t, s.pending = some t ∧ (op.txns s)[k]? = some t
  /-- Nothing is pending outside a bus operation (`20_memory.md` R81). -/
  idlePending : (∀ op k, s.phase ≠ .running op k) → s.pending = none
  /-- Everything sent has one of the two shapes (`20_memory.md` R80). -/
  logFramed : ∀ t ∈ s.log, t.framed

end Sys2Proof.Machine
end

