-- ==== Sys2Proof/Certificates/Slice0/Obligations.lean ====
section
/-! DEFINITION. The statements about the TDE, each from the numbered rules of the spec. Each holds for every state unless it names the invariant clauses it assumes (`State.ready`, `Inv`). -/

open Sys2Proof Sys2Proof.Machine

/-! ### Encoding -/

/-- `30_encoding.md` R103, R107: one word of every row, and the illegal words of vectors DEC1, DEC3 to DEC7. -/
def Obligations.WordsDecodeAsTheTableSays : Prop :=
  decode 0x0001 = .ok (.init false) ∧ decode 0x0201 = .ok (.init true) ∧ decode 0x0002 = .ok .config ∧
  decode 0x0003 = .ok .sendCmd ∧ decode 0x0004 = .ok .flush ∧ decode 0x0110 = .ok (.setPixel true) ∧
  decode 0x0011 = .ok .getPixel ∧ decode 0x0012 = .ok (.fill false) ∧ decode 0x0013 = .ok .readFb ∧
  decode 0x0320 = .ok (.rect true true) ∧ decode 0x0121 = .ok (.line true) ∧ decode 0x0022 = .ok (.hline false) ∧
  decode 0x0123 = .ok (.vline true) ∧ decode 0x0030 = .ok .char ∧ decode 0x0031 = .ok .string ∧
  decode 0x0000 = .error .reservedOpcode ∧ decode 0x0401 = .error .reservedBits ∧ decode 0x0101 = .error .unusedV ∧
  decode 0x0211 = .error .unusedF ∧ decode 0x0005 = .error .reservedOpcode ∧ decode 0x0312 = .error .unusedF

/-- `30_encoding.md` R106, R107: decoding an encoded command gives it back, and each legal word is the encoding of what it decodes to. -/
def Obligations.DecodeAndEncodeAgree : Prop :=
  (∀ i : Instr, i.wellFormed = true → decode (encode i) = .ok i) ∧
  (∀ (w : Word) (i : Instr), decode w = .ok i → encode i = w)

/-- `30_encoding.md` R101: a word is legal exactly if it matches a row of the opcode table (match, mask), and every mask includes RSV. -/
def Obligations.LegalWordsMatchTheOpcodeTable : Prop :=
  let table : List (Word × Word) :=
    [(0x0001, 0xFDFF), (0x0002, 0xFFFF), (0x0003, 0xFFFF), (0x0004, 0xFFFF), (0x0010, 0xFEFF), (0x0011, 0xFFFF),
     (0x0012, 0xFEFF), (0x0013, 0xFFFF), (0x0020, 0xFCFF), (0x0021, 0xFEFF), (0x0022, 0xFEFF), (0x0023, 0xFEFF),
     (0x0030, 0xFFFF), (0x0031, 0xFFFF)]
  (∀ r ∈ table, r.2 &&& 0xFC00 = 0xFC00) ∧
  ∀ w : Word, (∃ i, decode w = .ok i) ↔ ∃ r ∈ table, w &&& r.2 = r.1

/-- `30_encoding.md` R104, R105: a word with a reserved OPC, a non-zero RSV, or an unused V or F bit set is accepted (BUSY is set), raises F_ILLEGAL, and ends with no other effect (BUSY is cleared). -/
def Obligations.IllegalWordOnlySetsFIllegal : Prop :=
  ∀ (s : State) (w : Word) (h : List HostAccess) (r : List Agent),
    s.schedule = .host :: .engine :: r → s.host = .wr16 0x000 w :: h → s.busy = false → s.opState ≠ .failed →
    (let opc := w.toNat % 256
     (opc = 0 ∨ (0x05 ≤ opc ∧ opc ≤ 0x0F) ∨ (0x14 ≤ opc ∧ opc ≤ 0x1F) ∨ (0x24 ≤ opc ∧ opc ≤ 0x2F) ∨ 0x32 ≤ opc) ∨
     w.toNat / 1024 ≠ 0 ∨
     (w.toNat / 256 % 2 = 1 ∧ opc ∉ [0x10, 0x12, 0x20, 0x21, 0x22, 0x23]) ∨
     (w.toNat / 512 % 2 = 1 ∧ opc ∉ [0x01, 0x20])) →
    ∃ s1, step s = .next s1 ∧ s1.busy = true ∧
      step s1 = .next { s with
        schedule := r, host := h, latch := ⟨w, s.regs, s.text⟩, phase := .idle,
        sticky := { s.sticky with fIllegal := true } }

/-! ### The step -/

/-- A step runs the decoded command: on the engine's turn with a command accepted, the latched word is decoded and performed (`10_state.md` R23, R33). -/
def Obligations.EngineTurnRunsTheDecodedCommand : Prop :=
  ∀ (s : State) (i : Instr) (r : List Agent),
    s.schedule = .engine :: r → s.phase = .accepted → decode s.latch.cmd = .ok i →
    step s = exec i { s with schedule := r }

/-- `10_state.md` R29, R33: a CMD write with BUSY = 0 outside FAILED sets BUSY and latches the word, A0 to A3 and TEXT in one step; what the operation does depends on the latched copies, not on A0 to A3 and TEXT. -/
def Obligations.CommandIsAcceptedAndReadsOnlyItsLatch : Prop :=
  (∀ (s : State) (w : Word) (h : List HostAccess) (r : List Agent),
    s.schedule = .host :: r → s.host = .wr16 0x000 w :: h → s.busy = false → s.opState ≠ .failed →
    step s = .next { s with
      schedule := r, host := h, busy := true, phase := .accepted, latch := ⟨w, s.regs, s.text⟩ }) ∧
  (∀ (s t : State) (i : Instr) (regs : OperandRegs) (text : Vector Byte Config.textCap),
    exec i s = .next t →
    exec i { s with regs := regs, text := text } = .next { t with regs := regs, text := text })

/-- `10_state.md` R29, `70_reset_and_hazards.md` R274: while BUSY = 1 a host write is held, so the host's turn changes nothing; once BUSY = 0 the same write is made, whichever it is: a CMD write is accepted, or discarded in FAILED, an A0 to A3 or TEXT write stores, a write of a read-only register or a reserved offset is ignored. That reserved offsets take 8-bit accesses anywhere and 16-bit ones at even offsets is the model's reading (log 12). -/
def Obligations.WritesAreHeldWhileBusy : Prop :=
  ∀ (s : State) (h : List HostAccess) (r : List Agent), s.schedule = .host :: r → s.busy = true →
    (∀ off val, off < 0x200 → off % 2 = 0 → (off < 0x100 ∨ 0x100 + Config.textCap ≤ off) → s.host = .wr16 off val :: h →
      step s = .next { s with schedule := r } ∧
      step { s with busy := false } =
        .next (
          let t : State := { s with busy := false, schedule := r, host := h }
          if off = 0x000 then
            if s.opState = .failed then t
            else { t with busy := true, phase := .accepted, latch := ⟨val, s.regs, s.text⟩ }
          else { t with
            regs :=
              if off = 0x004 then { s.regs with a0 := val }
              else if off = 0x006 then { s.regs with a1 := val }
              else if off = 0x008 then { s.regs with a2 := val }
              else if off = 0x00A then { s.regs with a3 := val }
              else s.regs })) ∧
    (∀ off val, 0x018 ≤ off → off < 0x200 → s.host = .wr8 off val :: h →
      step s = .next { s with schedule := r } ∧
      step { s with busy := false } =
        .next { s with
          busy := false, schedule := r, host := h,
          text := if 0x100 ≤ off then s.text.setIfInBounds (off - 0x100) val else s.text })

/-- `10_state.md` R22 to R29, R31, `20_memory.md` R74: a host read returns the register at its offset, at any time, and changes nothing; `WAITIDLE` repeats while BUSY is 1. That a STATUS read made while a FLUSH waits shows the W_UNCONF it has set is the model's reading (log 22); that reads are recorded, 8-bit values zero-extended, and `WAITIDLE` is not, is the model's choice (log 14). -/
def Obligations.HostReadsReturnRegistersAndChangeNothing : Prop :=
  ∀ (s : State) (h : List HostAccess) (r : List Agent), s.schedule = .host :: r →
    (∀ p ∈ [(0x000, (0 : Word)), (0x002, s.statusWord), (0x004, s.regs.a0), (0x006, s.regs.a1), (0x008, s.regs.a2),
        (0x00A, s.regs.a3), (0x00C, s.result), (0x00E, s.geom.w), (0x010, s.geom.h), (0x012, s.geom.pages),
        (0x014, s.geom.bufsize), (0x016, s.geom.buscfgWord)],
      s.host = .rd16 p.1 :: h →
      step s = .next { s with schedule := r, host := h, reads := s.reads ++ [p.2] }) ∧
    (∀ i : Fin Config.textCap, s.host = .rd8 (0x100 + i.val) :: h →
      step s = .next { s with schedule := r, host := h, reads := s.reads ++ [s.text[i].setWidth 16] }) ∧
    (s.host = .waitIdle :: h →
      step s = .next { s with schedule := r, host := if s.busy then s.host else h })

/-- `10_state.md` R30: reserved offsets read 0 and ignore writes, and read-only registers ignore writes; no status bit is set. Which widths reserved offsets take is the model's reading (log 12): 8-bit accesses anywhere, 16-bit ones at even offsets, and a 16-bit access at an odd one is refused. -/
def Obligations.ReservedOffsetsReadZeroAndIgnoreWrites : Prop :=
  ∀ (s : State) (h : List HostAccess) (r : List Agent), s.schedule = .host :: r →
    (∀ off, off % 2 = 0 → ((0x018 ≤ off ∧ off < 0x100) ∨ (0x100 + Config.textCap ≤ off ∧ off < 0x200)) →
      (s.host = .rd16 off :: h → step s = .next { s with schedule := r, host := h, reads := s.reads ++ [0] }) ∧
      (∀ val, s.busy = false → s.host = .wr16 off val :: h → step s = .next { s with schedule := r, host := h })) ∧
    (∀ off, ((0x018 ≤ off ∧ off < 0x100) ∨ (0x100 + Config.textCap ≤ off ∧ off < 0x200)) →
      (s.host = .rd8 off :: h → step s = .next { s with schedule := r, host := h, reads := s.reads ++ [0] }) ∧
      (∀ val, s.busy = false → s.host = .wr8 off val :: h → step s = .next { s with schedule := r, host := h })) ∧
    (∀ off, off % 2 = 1 → ((0x018 ≤ off ∧ off < 0x100) ∨ (0x100 + Config.textCap ≤ off ∧ off < 0x200)) →
      (s.host = .rd16 off :: h → step s = .refused .accessNotAdmitted) ∧
      (∀ val, s.host = .wr16 off val :: h → step s = .refused .accessNotAdmitted)) ∧
    (∀ off ∈ [0x002, 0x00C, 0x00E, 0x010, 0x012, 0x014, 0x016], ∀ val, s.busy = false →
      s.host = .wr16 off val :: h → step s = .next { s with schedule := r, host := h })

/-- `10_state.md` R25, R26, R28: every bit of STATUS and BUSCFG. -/
def Obligations.StatusAndBuscfgFieldsStandInTheirBits : Prop :=
  ∀ s : State,
    (s.statusWord.toNat % 4 = match s.opState with | .reset => 0 | .unconfigured => 1 | .active => 2 | .failed => 3) ∧
    s.statusWord.getLsbD 2 = s.busy ∧
    (∀ b, 3 ≤ b → b ≤ 7 → s.statusWord.getLsbD b = false) ∧
    s.statusWord.getLsbD 8 = s.sticky.fOob ∧ s.statusWord.getLsbD 9 = s.sticky.fAlloc ∧
    s.statusWord.getLsbD 10 = s.sticky.fGeom ∧ s.statusWord.getLsbD 11 = s.sticky.fIllegal ∧
    s.statusWord.getLsbD 12 = s.sticky.fNoinit ∧ s.statusWord.getLsbD 13 = s.sticky.wChar ∧
    s.statusWord.getLsbD 14 = s.sticky.wUnconf ∧ s.statusWord.getLsbD 15 = false ∧
    s.geom.buscfgWord.toNat % 128 = s.geom.busAddr.toNat ∧ s.geom.buscfgWord.getLsbD 7 = false ∧
    s.geom.buscfgWord.getLsbD 8 = s.geom.extvcc ∧ (∀ b, 9 ≤ b → b ≤ 15 → s.geom.buscfgWord.getLsbD b = false)

/-- `10_state.md` R32: a 16-bit register at an odd offset or by an 8-bit access, and a TEXT register by a 16-bit access, are refused. That such a write is refused at once also while BUSY = 1, where R29 holds writes, is the model's reading (log 13). -/
def Obligations.WrongWidthAccessesAreRefused : Prop :=
  ∀ (s : State) (a : HostAccess) (h : List HostAccess) (r : List Agent),
    s.schedule = .host :: r → s.host = a :: h →
    (∃ off, (off < 0x018 ∧ off % 2 = 1 ∧ (a = .rd16 off ∨ ∃ val, a = .wr16 off val)) ∨
      (off < 0x018 ∧ (a = .rd8 off ∨ ∃ val, a = .wr8 off val)) ∨
      (0x100 ≤ off ∧ off < 0x100 + Config.textCap ∧ (a = .rd16 off ∨ ∃ val, a = .wr16 off val))) →
    step s = .refused .accessNotAdmitted

/-- `10_state.md` R24, R31: A0 to A3 and TEXT keep every value the host writes, each write leaves the other registers alone, the engine and the transport never write them, and they are 0 after reset. -/
def Obligations.OperandsAndTextKeepWhatTheHostWrote : Prop :=
  (∀ (s : State) (h : List HostAccess) (r : List Agent) (val : Word), s.schedule = .host :: r → s.busy = false →
    (s.host = .wr16 0x004 val :: h → step s = .next { s with schedule := r, host := h, regs := { s.regs with a0 := val } }) ∧
    (s.host = .wr16 0x006 val :: h → step s = .next { s with schedule := r, host := h, regs := { s.regs with a1 := val } }) ∧
    (s.host = .wr16 0x008 val :: h → step s = .next { s with schedule := r, host := h, regs := { s.regs with a2 := val } }) ∧
    (s.host = .wr16 0x00A val :: h → step s = .next { s with schedule := r, host := h, regs := { s.regs with a3 := val } })) ∧
  (∀ (s : State) (h : List HostAccess) (r : List Agent) (i : Fin Config.textCap) (val : Byte),
    s.schedule = .host :: r → s.busy = false → s.host = .wr8 (0x100 + i.val) val :: h →
    ∃ x, step s = .next { s with schedule := r, host := h, text := x } ∧
      ∀ j : Fin Config.textCap, x[j] = if j = i then val else s.text[j]) ∧
  (∀ (s s' : State) (a : Agent) (r : List Agent), s.schedule = a :: r → a = .engine ∨ a = .transport →
    step s = .next s' → s'.regs = s.regs ∧ s'.text = s.text) ∧
  (State.reset.regs = ⟨0, 0, 0, 0⟩ ∧ ∀ i : Fin Config.textCap, State.reset.text[i] = 0)

/-! ### Faults -/

/-- `60_exceptions.md` R241: raising a fault sets its bit and nothing else, and setting it again changes nothing; a bit stays 1 until reset; nothing the engine or the transport does depends on a sticky bit: a turn raises one set of bits, the same whatever bits were set, and the rest of its next state is the same. -/
def Obligations.StickyBitsOnlyGrowAndAreNeverRead : Prop :=
  (∀ (s : State) (f : StatusFault),
    s.raise f = { s with sticky := (s.raise f).sticky } ∧
    (∀ g, (s.raise f).sticky.get g = (decide (g = f) || s.sticky.get g)) ∧ (s.raise f).raise f = s.raise f) ∧
  (∀ (s s' : State) (f : StatusFault), step s = .next s' → s.schedule.head? ≠ some .platform →
    s.sticky.get f = true → s'.sticky.get f = true) ∧
  (∀ (s s' : State) (a : Agent) (r : List Agent), s.schedule = a :: r → a = .engine ∨ a = .transport →
    step s = .next s' → ∃ raised : Sticky,
      s'.sticky = s.sticky.union raised ∧
      ∀ k : Sticky, step { s with sticky := k } = .next { s' with sticky := k.union raised })

/-- `60_exceptions.md` R244: a fatal fault sets its bit, enters FAILED and ends; in FAILED a CMD write is discarded, A0 to A3 and TEXT still store, reads still work, and until reset nothing else changes. -/
def Obligations.FailedIsStuckUntilReset : Prop :=
  (∀ (s : State) (f : StatusFault),
    s.raiseFatal f = { s with sticky := s.sticky.set f, opState := .failed, busy := false, phase := .idle }) ∧
  (∀ (s : State) (w : Word) (h : List HostAccess) (r : List Agent), Inv s → s.opState = .failed →
    s.schedule = .host :: r → s.host = .wr16 0x000 w :: h → step s = .next { s with schedule := r, host := h }) ∧
  (∀ (s : State) (h : List HostAccess) (r : List Agent), Inv s → s.opState = .failed → s.schedule = .host :: r →
    (∀ (v : Word) (p : Nat × OperandRegs),
      p ∈ [(0x004, { s.regs with a0 := v }), (0x006, { s.regs with a1 := v }), (0x008, { s.regs with a2 := v }),
        (0x00A, { s.regs with a3 := v })] →
      s.host = .wr16 p.1 v :: h → step s = .next { s with schedule := r, host := h, regs := p.2 }) ∧
    (∀ (i : Fin Config.textCap) (v : Byte), s.host = .wr8 (0x100 + i.val) v :: h →
      step s = .next { s with schedule := r, host := h, text := s.text.setIfInBounds i.val v }) ∧
    (∀ off, off < 0x018 → off % 2 = 0 → s.host = .rd16 off :: h →
      ∃ v, step s = .next { s with schedule := r, host := h, reads := s.reads ++ [v] }) ∧
    (∀ i : Fin Config.textCap, s.host = .rd8 (0x100 + i.val) :: h →
      ∃ v, step s = .next { s with schedule := r, host := h, reads := s.reads ++ [v] })) ∧
  (∀ (s s' : State), Inv s → s.opState = .failed → s.schedule.head? ≠ some .platform → step s = .next s' →
    s' = { s with
      schedule := s'.schedule, host := s'.host, reads := s'.reads, regs := s'.regs, text := s'.text })

/-- `60_exceptions.md` R245, check 3: in RESET every command but INIT sets F_NOINIT and ends with no other effect. -/
def Obligations.CommandsBeforeInitOnlySetFNoinit : Prop :=
  ∀ (s : State) (i : Instr), s.opState = .reset → (∀ e, i ≠ .init e) →
    exec i s = .next { s with busy := false, phase := .idle, sticky := { s.sticky with fNoinit := true } }

/-! ### Reset -/

/-- `10_state.md` R38: the state after reset, where the spec gives a value. The values of FB and of the latches, which it leaves unspecified, are not part of this statement. -/
def Obligations.ResetLeavesTheSpecifiedValues : Prop :=
  State.reset.opState = .reset ∧ State.reset.busy = false ∧ State.reset.statusWord = 0x0000 ∧
  State.reset.regs = ⟨0, 0, 0, 0⟩ ∧ State.reset.result = 0x0000 ∧
  State.reset.geom.w = 0 ∧ State.reset.geom.h = 0 ∧ State.reset.geom.pages = 0 ∧ State.reset.geom.bufsize = 0 ∧
  State.reset.geom.buscfgWord = 0x0000 ∧ (∀ i : Fin Config.textCap, State.reset.text[i] = 0x00) ∧
  State.reset.phase = .idle ∧ State.reset.pending = none ∧ State.reset.log = []

/-- `70_reset_and_hazards.md` R270, R271: whenever reset comes, also while BUSY, every register takes its reset value, LOG is emptied, nothing is pending or running, and the font stays; that the host's remaining accesses stay is the model's choice (log 15). -/
def Obligations.ResetRestoresEveryRegister : Prop :=
  ∀ (s : State) (r : List Agent), s.schedule = .platform :: r →
    ∃ (fb : Memory) (latch : Latch) (n : Nat),
      step s = .next { State.reset with
        fb := fb, latch := latch, rom := s.rom, host := s.host, reads := s.reads, schedule := r, draws := n }

/-- `70_reset_and_hazards.md` R272: with no command accepted, the engine and the transport do nothing; an empty schedule changes nothing (log 2). -/
def Obligations.NothingRunsWithoutACommand : Prop :=
  (∀ s : State, s.schedule = [] → step s = .next s) ∧
  (∀ (s : State) (a : Agent) (r : List Agent), Inv s → s.phase = .idle → s.schedule = a :: r →
    a = .engine ∨ a = .transport → step s = .next { s with schedule := r })

/-! ### The sequencer -/

/-- `40_sequencer.md` R143: INIT of a legal geometry that fits records it, zero-fills bytes `0 .. BUFSIZE-1`, sets byte 0 to 0x40 and enters UNCONFIGURED; bytes beyond are as before and no transaction is emitted; EXTVCC is read by nothing: no command, and no turn of the transport, goes another way for another value of it. -/
def Obligations.InitRecordsGeometryAndClearsBuffer : Prop :=
  (∀ (s : State) (ext : Bool), s.opState ≠ .failed → s.fb.wf →
    (let w := s.latch.regs.a0.toNat
     let h := s.latch.regs.a1.toNat
     1 ≤ w → w ≤ 256 → 8 ≤ h → h ≤ 256 → h % 8 = 0 → s.latch.regs.a2.toNat ≤ 0x7F →
     h / 8 * w + 1 ≤ Config.fbCapacity →
     ∃ m : Memory,
      exec (.init ext) s = .next { s with
        busy := false, phase := .idle, opState := .unconfigured, fb := m,
        geom := { w := s.latch.regs.a0, h := s.latch.regs.a1, pages := BitVec.ofNat 16 (h / 8),
                  bufsize := BitVec.ofNat 16 (h / 8 * w + 1), busAddr := s.latch.regs.a2.setWidth 7, extvcc := ext } } ∧
      Memory.read m 0 = 0x40 ∧
      (∀ i, 1 ≤ i → i < h / 8 * w + 1 → Memory.read m i = 0x00) ∧
      (∀ i, h / 8 * w + 1 ≤ i → Memory.read m i = Memory.read s.fb i))) ∧
  (∀ (s t : State) (i : Instr) (e : Bool), (∀ b, i ≠ .init b) → exec i s = .next t →
    exec i { s with geom := { s.geom with extvcc := e } } = .next { t with geom := { t.geom with extvcc := e } }) ∧
  (∀ (s t : State) (ext e : Bool), exec (.init ext) s = .next t →
    exec (.init ext) { s with geom := { s.geom with extvcc := e } } = .next t ∨
    exec (.init ext) { s with geom := { s.geom with extvcc := e } } =
      .next { t with geom := { t.geom with extvcc := e } }) ∧
  (∀ (s t : State) (e : Bool) (r : List Agent), s.schedule = .transport :: r → step s = .next t →
    step { s with geom := { s.geom with extvcc := e } } = .next { t with geom := { t.geom with extvcc := e } })

/-- `40_sequencer.md` R141: INIT of an illegal geometry or bus address sets F_GEOM and ends with no other effect. -/
def Obligations.InitOfIllegalGeometryOnlySetsFGeom : Prop :=
  ∀ (s : State) (ext : Bool), s.opState ≠ .failed →
    ¬ (1 ≤ s.latch.regs.a0.toNat ∧ s.latch.regs.a0.toNat ≤ 256 ∧ 8 ≤ s.latch.regs.a1.toNat ∧
       s.latch.regs.a1.toNat ≤ 256 ∧ s.latch.regs.a1.toNat % 8 = 0 ∧ s.latch.regs.a2.toNat ≤ 0x7F) →
    exec (.init ext) s = .next { s with busy := false, phase := .idle, sticky := { s.sticky with fGeom := true } }

/-- `40_sequencer.md` R142: INIT of a legal geometry that does not fit the store sets F_ALLOC and enters FAILED; the geometry registers stay, nothing is said of the store, and a later CMD write is discarded. -/
def Obligations.InitBeyondTheStoreIsFatal : Prop :=
  ∀ (s : State) (ext : Bool), s.opState ≠ .failed →
    1 ≤ s.latch.regs.a0.toNat → s.latch.regs.a0.toNat ≤ 256 → 8 ≤ s.latch.regs.a1.toNat →
    s.latch.regs.a1.toNat ≤ 256 → s.latch.regs.a1.toNat % 8 = 0 → s.latch.regs.a2.toNat ≤ 0x7F →
    Config.fbCapacity < s.latch.regs.a1.toNat / 8 * s.latch.regs.a0.toNat + 1 →
    ∃ (m : Memory) (n : Nat),
      (let t : State := { s with
        busy := false, phase := .idle, opState := .failed, fb := m, draws := n,
        sticky := { s.sticky with fAlloc := true } }
       exec (.init ext) s = .next t ∧
       ∀ (w : Word) (h : List HostAccess) (r : List Agent),
        step { t with schedule := .host :: r, host := .wr16 0x000 w :: h } = .next { t with schedule := r, host := h })

/-- `40_sequencer.md` R145, R146: CONFIG hands over its first transaction; after 25 done reports LOG has the 25 command transactions in order, STATE is ACTIVE and the command has ended, and STATE does not change before that. -/
def Obligations.ConfigSendsItsSequenceAndBecomesActive : Prop :=
  encode .config = 0x0002 ∧
  (∀ s : State, s.opState = .reset → s.endsWithNoinit .config) ∧
  ∀ s : State, s.opState.operational →
    ∃ t, exec .config s = .next t ∧
      t = { s with phase := .running .config 0, pending := some ⟨s.geom.busAddr, [0x80, 0xAE]⟩ } ∧
      (∀ k, k < 25 → (t.reports k).opState = s.opState ∧ (t.reports k).busy = s.busy ∧ (t.reports k).fb = s.fb) ∧
      t.reports 25 = { s with
        busy := false, phase := .idle, pending := none, opState := .active,
        log := s.log ++ List.map (fun c => (⟨s.geom.busAddr, [0x80, c]⟩ : Txn))
          [0xAE, 0x20, 0x01, 0x40, 0xA1, 0xA8, BitVec.ofNat 8 (s.geom.h.toNat - 1), 0xC8, 0xD3, 0x00, 0xDA, 0x12,
           0xD5, 0x80, 0xD9, 0xF1, 0xDB, 0x30, 0x81, 0xFF, 0xA4, 0xA6, 0x8D, 0x14, 0xAF] }

/-- `40_sequencer.md` R148: SEND_CMD hands over one command transaction with the low byte of A0; after its done report LOG has it and nothing else has changed. -/
def Obligations.SendCmdSendsOneCommand : Prop :=
  encode .sendCmd = 0x0003 ∧
  (∀ s : State, s.opState = .reset → s.endsWithNoinit .sendCmd) ∧
  ∀ s : State, s.opState.operational →
    (let t : Txn := ⟨s.geom.busAddr, [0x80, BitVec.ofNat 8 (s.latch.regs.a0.toNat % 256)]⟩
     exec .sendCmd s = .next { s with phase := .running .sendCmd 0, pending := some t } ∧
     ({ s with phase := .running .sendCmd 0, pending := some t } : State).reports 1 =
       { s with busy := false, phase := .idle, pending := none, log := s.log ++ [t] })

/-- `40_sequencer.md` R149 to R151: FLUSH sets W_UNCONF if UNCONFIGURED, and after 7 done reports LOG has the six command transactions of the window and one data transaction with bytes `FB[0 .. BUFSIZE-1]`; STATE and FB are unchanged; in RESET it ends with F_NOINIT. The two window opcodes are the parameters of log 9. -/
def Obligations.FlushSendsWindowThenFrame : Prop :=
  encode .flush = 0x0004 ∧
  (∀ s : State, s.opState = .reset → s.endsWithNoinit .flush) ∧
  ∀ s : State, s.opState.operational →
    ∃ t, exec .flush s = .next t ∧
      t = { s with
        phase := .running .flush 0, pending := some ⟨s.geom.busAddr, [0x80, Config.cmdColAddr]⟩,
        sticky := { s.sticky with wUnconf := s.sticky.wUnconf || decide (s.opState = .unconfigured) } } ∧
      t.reports 7 = { t with
        busy := false, phase := .idle, pending := none,
        log := s.log ++ List.map (fun c => (⟨s.geom.busAddr, [0x80, c]⟩ : Txn))
            [Config.cmdColAddr, 0x00, BitVec.ofNat 8 (s.geom.w.toNat - 1),
             Config.cmdPageAddr, 0x00, BitVec.ofNat 8 (s.geom.pages.toNat - 1)] ++
          [⟨s.geom.busAddr, List.map (Memory.read s.fb) (List.range s.geom.bufsize.toNat)⟩] }

/-- `20_memory.md` R81: when the transport reports the pending transaction done, it is appended to LOG and the operation's next transaction is handed over; after the last one the operation ends (CONFIG with STATE ACTIVE). -/
def Obligations.DoneReportAppendsAndHandsOverTheNext : Prop :=
  ∀ (s : State) (op : BusOp) (k : Nat) (r : List Agent), Inv s → s.phase = .running op k → s.schedule = .transport :: r →
    ∃ t, s.pending = some t ∧
      (∀ t', (op.txns s)[k + 1]? = some t' →
        step s = .next { s with
          schedule := r, log := s.log ++ [t], phase := .running op (k + 1), pending := some t' }) ∧
      ((op.txns s)[k + 1]? = none →
        step s = .next { s with
          schedule := r, log := s.log ++ [t], pending := none, busy := false, phase := .idle,
          opState := if op = .config then .active else s.opState })

/-- `10_state.md` R37, `70_reset_and_hazards.md` R276: LOG changes only by the transport's turn, which appends the transaction it reports done, and by reset, which empties it. -/
def Obligations.LogGrowsOnlyByDoneReports : Prop :=
  ∀ s s' : State, step s = .next s' →
    s'.log = match s.schedule.head? with
      | some .transport => s.log ++ s.pending.toList
      | some .platform => []
      | some .host => s.log
      | some .engine => s.log
      | none => s.log

/-- `60_exceptions.md` R256, `70_reset_and_hazards.md` R278: while the transport never reports and no reset comes, a bus operation stays BUSY for ever, whatever the host does: only its reads return. -/
def Obligations.SilentTransportHangsTheEngine : Prop :=
  ∀ (n : Nat) (s s' : State) (op : BusOp) (k : Nat), Inv s → s.phase = .running op k →
    (∀ a ∈ s.schedule, a = .host ∨ a = .engine) → Sys2Proof.core.run n s = .next s' →
    s'.busy = true ∧ s' = { s with schedule := s'.schedule, host := s'.host, reads := s'.reads }

/-! ### Pixels -/

/-- `41_pixel.md` R170: SET_PIXEL gives the pixel its value and changes nothing else; out of range it only sets F_OOB. -/
def Obligations.SetPixelDrawsOnePixel : Prop :=
  ∀ (s : State) (v : Bool), s.ready →
    encode (.setPixel v) = 0x0010 ||| (if v then 0x0100 else 0x0000) ∧
    s.drawsExactly (.setPixel v) v (fun x y => x = s.latch.regs.a0.toInt ∧ y = s.latch.regs.a1.toInt)

/-- `41_pixel.md` R171: GET_PIXEL puts the pixel into RESULT; out of range it puts 0 and sets F_OOB; nothing else changes. -/
def Obligations.GetPixelReadsOnePixel : Prop :=
  encode .getPixel = 0x0011 ∧
  ∀ s : State, s.opState.operational →
    (let x := s.latch.regs.a0.toInt
     let y := s.latch.regs.a1.toInt
     (0 ≤ x ∧ x < s.geom.w.toNat ∧ 0 ≤ y ∧ y < s.geom.h.toNat →
      exec .getPixel s = .next { s with
        busy := false, phase := .idle,
        result := BitVec.ofNat 16
          (((Memory.read s.fb (y.toNat / 8 + x.toNat * s.geom.pages.toNat + 1)).toNat >>> (y.toNat % 8)) % 2) }) ∧
     (¬ (0 ≤ x ∧ x < s.geom.w.toNat ∧ 0 ≤ y ∧ y < s.geom.h.toNat) →
      exec .getPixel s = .next { s with
        busy := false, phase := .idle, result := 0, sticky := { s.sticky with fOob := true } }))

/-- `41_pixel.md` R172: FILL gives every pixel of the surface its value and changes nothing else. -/
def Obligations.FillDrawsEveryPixel : Prop :=
  ∀ (s : State) (v : Bool), s.ready →
    encode (.fill v) = 0x0012 ||| (if v then 0x0100 else 0x0000) ∧
    s.drawsExactly (.fill v) v (fun x y => s.geom.inRange x y)

/-- The byte form of FILL that `41_pixel.md` R172 derives: every byte `1 .. PAGES*W` is 0xFF or 0x00, every other byte is as before, and no flag is set. -/
def Obligations.FillSetsEveryPixelByte : Prop :=
  ∀ (s : State) (v : Bool), s.ready →
    ∃ m : Memory, exec (.fill v) s = .next { s with busy := false, phase := .idle, fb := m } ∧
      (∀ i, 1 ≤ i → i ≤ s.geom.pages.toNat * s.geom.w.toNat → Memory.read m i = if v then 0xFF else 0x00) ∧
      (∀ i, i = 0 ∨ s.geom.pages.toNat * s.geom.w.toNat < i → Memory.read m i = Memory.read s.fb i)

/-- `41_pixel.md` R173: READ_FB puts the byte into RESULT; at or beyond BUFSIZE it puts 0 and sets F_OOB; nothing else changes; byte 0 reads as the data prefix. -/
def Obligations.ReadFbReadsOneByte : Prop :=
  encode .readFb = 0x0013 ∧
  ∀ s : State, s.opState.operational →
    (s.latch.regs.a0.toNat < s.geom.bufsize.toNat →
      exec .readFb s = .next { s with
        busy := false, phase := .idle,
        result := BitVec.ofNat 16 (Memory.read s.fb s.latch.regs.a0.toNat).toNat }) ∧
    (s.geom.bufsize.toNat ≤ s.latch.regs.a0.toNat →
      exec .readFb s = .next { s with
        busy := false, phase := .idle, result := 0, sticky := { s.sticky with fOob := true } }) ∧
    (Inv s → s.latch.regs.a0 = 0 →
      exec .readFb s = .next { s with busy := false, phase := .idle, result := 0x0040 })

/-- `20_memory.md` R64, R69, R70: the pixel map is one-to-one onto the bits of bytes `1 .. BUFSIZE-1`, and its inverse is as written there. -/
def Obligations.PixelMapIsOneToOne : Prop :=
  ∀ g : Geometry, g.legal →
    (∀ x y x' y' : Int, g.inRange x y → g.inRange x' y' →
      g.pixelIndex x y = g.pixelIndex x' y' → pixelBit y = pixelBit y' → x = x' ∧ y = y') ∧
    (∀ x y : Int, g.inRange x y → 1 ≤ g.pixelIndex x y ∧ g.pixelIndex x y < g.bufsize.toNat ∧ pixelBit y ≤ 7) ∧
    (∀ i b : Nat, 1 ≤ i → i ≤ g.pages.toNat * g.w.toNat → b ≤ 7 →
      (let x : Int := ((i - 1) / g.pages.toNat : Nat)
       let y : Int := (8 * ((i - 1) % g.pages.toNat) + b : Nat)
       g.inRange x y ∧ g.pixelIndex x y = i ∧ pixelBit y = b))

/-- `41_pixel.md` R174: a set pixel reads back; clearing undoes setting on a pixel that was 0; a repeated write changes nothing more; writes of different pixels commute. -/
def Obligations.PixelWritesObeyThePixelLaws : Prop :=
  (∀ (s : State) (v : Bool), s.ready → s.geom.inRange s.latch.regs.a0.toInt s.latch.regs.a1.toInt →
    ∃ t u, exec (.setPixel v) s = .next t ∧ exec .getPixel t = .next u ∧ u.result = (if v then 1 else 0) ∧
      exec (.setPixel v) t = .next t) ∧
  (∀ s : State, s.ready → s.geom.inRange s.latch.regs.a0.toInt s.latch.regs.a1.toInt →
    pixelAt s.geom s.fb s.latch.regs.a0.toInt s.latch.regs.a1.toInt = false →
    ∃ t u, exec (.setPixel true) s = .next t ∧ exec (.setPixel false) t = .next u ∧ u = s.finish) ∧
  (∀ (s : State) (v v' : Bool) (p q : OperandRegs), s.ready →
    s.geom.inRange p.a0.toInt p.a1.toInt → s.geom.inRange q.a0.toInt q.a1.toInt →
    ¬ (p.a0 = q.a0 ∧ p.a1 = q.a1) →
    ∃ t u t' u', exec (.setPixel v) (s.withOperands p) = .next t ∧ exec (.setPixel v') (t.withOperands q) = .next u ∧
      exec (.setPixel v') (s.withOperands q) = .next t' ∧ exec (.setPixel v) (t'.withOperands p) = .next u' ∧
      u.fb = u'.fb)

/-- `41_pixel.md` R172: after INIT, FILL 1 then FILL 0 gives back the state after INIT. -/
def Obligations.FillRoundTripRestoresTheInitState : Prop :=
  ∀ (s : State) (ext : Bool), s.opState ≠ .failed → s.fb.wf →
    1 ≤ s.latch.regs.a0.toNat → s.latch.regs.a0.toNat ≤ 256 → 8 ≤ s.latch.regs.a1.toNat →
    s.latch.regs.a1.toNat ≤ 256 → s.latch.regs.a1.toNat % 8 = 0 → s.latch.regs.a2.toNat ≤ 0x7F →
    s.latch.regs.a1.toNat / 8 * s.latch.regs.a0.toNat + 1 ≤ Config.fbCapacity →
    ∃ a b, exec (.init ext) s = .next a ∧ exec (.fill true) a = .next b ∧ exec (.fill false) b = .next a

/-- `20_memory.md` R90: pixel writes of one value that go to the same pixels leave the same state, in whatever order. -/
def Obligations.OrderOfPixelWritesIsNotObservable : Prop :=
  ∀ (s : State) (v : Bool) (ds es : List Dot), s.ready → (∀ d ∈ ds, d.v = v) → (∀ e ∈ es, e.v = v) →
    (∀ x y, (∃ d ∈ ds, d.x = x ∧ d.y = y) ↔ (∃ e ∈ es, e.x = x ∧ e.y = y)) → s.draw ds = s.draw es

/-! ### Shapes -/

/-- `42_shapes.md` R190, R191: RECT draws exactly its edges, and its interior if filled; nothing if its width or its height is 0. -/
def Obligations.RectDrawsEdgesAndInterior : Prop :=
  ∀ (s : State) (v f : Bool), s.ready →
    encode (.rect v f) = 0x0020 ||| (if v then 0x0100 else 0x0000) ||| (if f then 0x0200 else 0x0000) ∧
    s.drawsExactly (.rect v f) v
      (rectCovers s.latch.regs.a0.toInt s.latch.regs.a1.toInt s.latch.regs.a2.toNat s.latch.regs.a3.toNat f)

/-- `42_shapes.md` R192, R193: edges and interior make up the full rectangle; for `w, h >= 2` the perimeter has `2*(w+h) - 4` pixels and the interior `(w-2)*(h-2)`. -/
def Obligations.RectPerimeterHasItsCount : Prop :=
  (∀ (top left : Int) (w h : Nat) (x y : Int), 1 ≤ w → 1 ≤ h →
    (rectCovers top left w h true x y ↔ left ≤ x ∧ x ≤ left + w - 1 ∧ top ≤ y ∧ y ≤ top + h - 1)) ∧
  ∀ (top left : Int) (w h : Nat), 2 ≤ w → 2 ≤ h →
    (∃ l : List (Int × Int), l.Nodup ∧ l.length = 2 * (w + h) - 4 ∧
      ∀ p, p ∈ l ↔ rectCovers top left w h false p.1 p.2) ∧
    (∃ l : List (Int × Int), l.Nodup ∧ l.length = (w - 2) * (h - 2) ∧
      ∀ p, p ∈ l ↔ rectCovers top left w h true p.1 p.2 ∧ ¬ rectCovers top left w h false p.1 p.2)

/-- `42_shapes.md` R194: LINE draws exactly the pixels its loop visits: from the first end point, each pixel but the last end point is followed by the one the error names. The steps are those the spec takes from general knowledge (`93_implementation_defined.md` G2). -/
def Obligations.LineDrawsTheVisitedPixels : Prop :=
  (∀ (s : State) (v : Bool), s.ready →
    encode (.line v) = 0x0021 ||| (if v then 0x0100 else 0x0000) ∧
    s.drawsExactly (.line v) v (fun x y => (x, y) ∈
      linePixels s.latch.regs.a0.toInt s.latch.regs.a1.toInt s.latch.regs.a2.toInt s.latch.regs.a3.toInt)) ∧
  (∀ x0 y0 x1 y1 : Int,
    (let ps := linePixels x0 y0 x1 y1
     let dx := |x1 - x0|
     let dy := |y1 - y0|
     let sx : Int := if x0 < x1 then 1 else -1
     let sy : Int := if y0 < y1 then 1 else -1
     ps[0]? = some (x0, y0) ∧
     ∃ err : Nat → Int, err 0 = dx - dy ∧
      ∀ (k : Nat) (p : Int × Int), ps[k]? = some p →
        (p = (x1, y1) → ps[k + 1]? = none) ∧
        (p ≠ (x1, y1) →
          ps[k + 1]? = some
            (if -dy < 2 * err k then p.1 + sx else p.1, if 2 * err k < dx then p.2 + sy else p.2) ∧
          err (k + 1) = err k - (if -dy < 2 * err k then dy else 0) + (if 2 * err k < dx then dx else 0))))

/-- `42_shapes.md` R195: a line starts at its first and ends at its last end point, visits `max(dx, dy) + 1` distinct pixels, is continuous, and every step moves the major axis by 1. -/
def Obligations.LineWalkObeysTheLineLaws : Prop :=
  ∀ x0 y0 x1 y1 : Int,
    (let ps := linePixels x0 y0 x1 y1
     ps.head? = some (x0, y0) ∧ ps.getLast? = some (x1, y1) ∧
     ps.length = (max |x1 - x0| |y1 - y0|).toNat + 1 ∧ ps.Nodup ∧
     ∀ (k : Nat) (p q : Int × Int), ps[k]? = some p → ps[k + 1]? = some q →
       |q.1 - p.1| ≤ 1 ∧ |q.2 - p.2| ≤ 1 ∧
       (|y1 - y0| ≤ |x1 - x0| → |q.1 - p.1| = 1) ∧ (|x1 - x0| < |y1 - y0| → |q.2 - p.2| = 1))

/-- `42_shapes.md` R196: the reversed line of (0,0) to (2,1) visits other pixels; the example of R194 and vector SHP22. -/
def Obligations.ReversedLineMayDiffer : Prop :=
  linePixels 0 0 2 1 = [(0, 0), (1, 0), (2, 1)] ∧ linePixels 2 1 0 0 = [(2, 1), (1, 1), (0, 0)] ∧
  linePixels 0 0 3 8 = [(0, 0), (0, 1), (1, 2), (1, 3), (1, 4), (2, 5), (2, 6), (3, 7), (3, 8)] ∧
  linePixels (-2) (-1) 2 1 = [(-2, -1), (-1, -1), (0, 0), (1, 0), (2, 1)]

/-- `42_shapes.md` R197: HLINE draws exactly the pixels `a .. b` of its row, nothing if `a > b`. -/
def Obligations.HlineDrawsItsRow : Prop :=
  ∀ (s : State) (v : Bool), s.ready →
    encode (.hline v) = 0x0022 ||| (if v then 0x0100 else 0x0000) ∧
    s.drawsExactly (.hline v) v (fun x y =>
      s.latch.regs.a0.toInt ≤ x ∧ x ≤ s.latch.regs.a1.toInt ∧ y = s.latch.regs.a2.toInt)

/-- `42_shapes.md` R198: VLINE draws exactly the pixels `a .. b` of its column, nothing if `a > b`. -/
def Obligations.VlineDrawsItsColumn : Prop :=
  ∀ (s : State) (v : Bool), s.ready →
    encode (.vline v) = 0x0023 ||| (if v then 0x0100 else 0x0000) ∧
    s.drawsExactly (.vline v) v (fun x y =>
      s.latch.regs.a0.toInt ≤ y ∧ y ≤ s.latch.regs.a1.toInt ∧ x = s.latch.regs.a2.toInt)

/-- `42_shapes.md` R198, a corner case it derives from `20_memory.md` R64: a VLINE over one page makes one whole byte 0xFF or 0x00. -/
def Obligations.VlineOverOnePageSetsOneByte : Prop :=
  ∀ (s : State) (v : Bool) (p : Nat), s.ready → p < s.geom.pages.toNat → s.latch.regs.a0.toInt = 8 * p →
    s.latch.regs.a1.toInt = 8 * p + 7 → 0 ≤ s.latch.regs.a2.toInt → s.latch.regs.a2.toInt < s.geom.w.toNat →
    (let i := p + s.latch.regs.a2.toInt.toNat * s.geom.pages.toNat + 1
     ∃ t, exec (.vline v) s = .next t ∧ Memory.read t.fb i = (if v then 0xFF else 0x00) ∧
      ∀ a, a ≠ i → Memory.read t.fb a = Memory.read s.fb a)

/-- `42_shapes.md` R195, R197: a horizontal line with `a <= b` visits exactly the pixels of HLINE in order, a vertical one those of VLINE, and a 45° line its diagonal. -/
def Obligations.StraightLinesVisitTheirRuns : Prop :=
  (∀ a b y : Int, a ≤ b → linePixels a y b y = (intSpan a b).map (fun x => (x, y))) ∧
  (∀ a b x : Int, a ≤ b → linePixels x a x b = (intSpan a b).map (fun y => (x, y))) ∧
  (∀ (x y : Int) (n : Nat) (sx sy : Int), sx = 1 ∨ sx = -1 → sy = 1 ∨ sy = -1 →
    linePixels x y (x + n * sx) (y + n * sy) = (List.range (n + 1)).map (fun k : Nat => (x + k * sx, y + k * sy)))

/-- `42_shapes.md` R199, law 4, and the same for SET_PIXEL and FILL: drawing twice leaves the state of drawing once. -/
def Obligations.DrawingTwiceIsDrawingOnce : Prop :=
  ∀ (s : State) (i : Instr), s.ready →
    (∃ v f, i = .rect v f ∨ i = .line v ∨ i = .hline v ∨ i = .vline v ∨ i = .setPixel v ∨ i = .fill v) →
    ∃ t, exec i s = .next t ∧ exec i t = .next t

/-! ### Glyphs -/

/-- `43_glyph.md` R220: the glyph number of every byte, and which bytes are unmapped. -/
def Obligations.GlyphNumbersFollowTheCharacterClasses : Prop :=
  ∀ (r : FontRom) (c : Byte),
    (0x41 ≤ c.toNat → c.toNat ≤ 0x5A → glyphNumber r c = r.gUpper + (c.toNat - 0x41) ∧ mappedGlyph r c ≠ none) ∧
    (0x30 ≤ c.toNat → c.toNat ≤ 0x39 → glyphNumber r c = r.gDigit + (c.toNat - 0x30) ∧ mappedGlyph r c ≠ none) ∧
    (0x61 ≤ c.toNat → c.toNat ≤ 0x7A → glyphNumber r c = r.gLower + (c.toNat - 0x61) ∧ mappedGlyph r c ≠ none) ∧
    (c.toNat < 0x30 ∨ (0x39 < c.toNat ∧ c.toNat < 0x41) ∨ (0x5A < c.toNat ∧ c.toNat < 0x61) ∨ 0x7A < c.toNat →
      glyphNumber r c = 0 ∧ mappedGlyph r c = none)

/-- `20_memory.md` R75, `00_scope.md` R7: with a legal font every byte of every glyph lies in the font, and different mapped characters have different glyphs. -/
def Obligations.GlyphReadsStayInTheFont : Prop :=
  ∀ r : FontRom, r.legal →
    (∀ (c : Byte) (i : Nat), i ≤ 7 → 8 * glyphNumber r c + i < r.bytes.length) ∧
    (∀ c d : Byte, mappedGlyph r c ≠ none → mappedGlyph r c = mappedGlyph r d → c = d)

/-- `43_glyph.md` R221, R222: CHAR writes the whole cell, bit `j` of slice byte `i` to `(x + i, y + j)`; W_CHAR for an unmapped character, F_OOB if some pixel of the cell is out of range; nothing else changes. -/
def Obligations.CharDrawsItsCell : Prop :=
  encode .char = 0x0030 ∧
  ∀ s : State, s.ready →
    (let c : Byte := BitVec.ofNat 8 (s.latch.regs.a0.toNat % 256)
     let x := s.latch.regs.a1.toInt
     let y := s.latch.regs.a2.toInt
     ∃ (m : Memory) (k : Bool),
      exec .char s = .next { s with
        busy := false, phase := .idle, fb := m,
        sticky := { s.sticky with fOob := k, wChar := s.sticky.wChar || decide (mappedGlyph s.rom c = none) } } ∧
      (k = true ↔ s.sticky.fOob = true ∨ ∃ px py, cellCovers x y px py ∧ ¬ s.geom.inRange px py) ∧
      (∀ i j : Nat, i ≤ 7 → j ≤ 7 → s.geom.inRange (x + i) (y + j) →
        pixelAt s.geom m (x + i) (y + j) = (fontRead s.rom (8 * glyphNumber s.rom c + i)).getLsbD j) ∧
      (∀ px py, s.geom.inRange px py → ¬ cellCovers x y px py → pixelAt s.geom m px py = pixelAt s.geom s.fb px py) ∧
      (∀ a, (∀ px py, cellCovers x y px py → s.geom.inRange px py → s.geom.pixelIndex px py ≠ a) →
        Memory.read m a = Memory.read s.fb a))

/-- `43_glyph.md` R222: in an aligned cell that is in range, the glyph's bytes land whole in one page. -/
def Obligations.AlignedGlyphCopiesItsBytes : Prop :=
  ∀ (s t : State) (i : Nat), s.ready → i ≤ 7 →
    (let x := s.latch.regs.a1.toInt
     let y := s.latch.regs.a2.toInt
     y % 8 = 0 → s.geom.inRange x y → s.geom.inRange (x + 7) (y + 7) → exec .char s = .next t →
     Memory.read t.fb (y.toNat / 8 + (x.toNat + i) * s.geom.pages.toNat + 1) =
       fontRead s.rom (8 * glyphNumber s.rom (BitVec.ofNat 8 (s.latch.regs.a0.toNat % 256)) + i))

/-- `43_glyph.md` R223, R224: STRING with `n > TEXT_CAP` sets F_ILLEGAL and draws nothing; otherwise it draws the glyph of every cell of its layout, sets W_CHAR and F_OOB as CHAR does, and changes nothing else. That a 0x00 ends the string is R224, which the spec takes from general knowledge (`93_implementation_defined.md` G3). -/
def Obligations.StringDrawsItsLayout : Prop :=
  encode .string = 0x0031 ∧
  (∀ (w h : Nat) (x y : Int), stringLayout w h [] x y = []) ∧
  (∀ (w h : Nat) (c : Byte) (text : List Byte) (x y : Int),
    stringLayout w h (c :: text) x y =
      if c = 0x00 then []
      else ⟨c, x, y⟩ ::
        (if x + 8 + 8 > w then (if y + 8 + 8 > h then [] else stringLayout w h text 0 (y + 8))
         else stringLayout w h text (x + 8) y)) ∧
  ∀ s : State, s.ready →
    (Config.textCap < s.latch.regs.a0.toNat →
      exec .string s = .next { s with busy := false, phase := .idle, sticky := { s.sticky with fIllegal := true } }) ∧
    (s.latch.regs.a0.toNat ≤ Config.textCap →
      (let cells := stringLayout s.geom.w.toNat s.geom.h.toNat (s.latch.text.toList.take s.latch.regs.a0.toNat)
        s.latch.regs.a1.toInt s.latch.regs.a2.toInt
       ∃ (m : Memory) (k c : Bool),
        exec .string s = .next { s with
          busy := false, phase := .idle, fb := m, sticky := { s.sticky with fOob := k, wChar := c } } ∧
        (c = true ↔ s.sticky.wChar = true ∨ ∃ g ∈ cells, mappedGlyph s.rom g.c = none) ∧
        (k = true ↔ s.sticky.fOob = true ∨ ∃ g ∈ cells, ∃ px py, cellCovers g.x g.y px py ∧ ¬ s.geom.inRange px py) ∧
        (∀ g ∈ cells, ∀ i j : Nat, i ≤ 7 → j ≤ 7 → s.geom.inRange (g.x + i) (g.y + j) →
          pixelAt s.geom m (g.x + i) (g.y + j) = (fontRead s.rom (8 * glyphNumber s.rom g.c + i)).getLsbD j) ∧
        (∀ px py, s.geom.inRange px py → (∀ g ∈ cells, ¬ cellCovers g.x g.y px py) →
          pixelAt s.geom m px py = pixelAt s.geom s.fb px py) ∧
        (∀ a, (∀ g ∈ cells, ∀ px py, cellCovers g.x g.y px py → s.geom.inRange px py → s.geom.pixelIndex px py ≠ a) →
          Memory.read m a = Memory.read s.fb a)))

/-- `43_glyph.md` R223 to R225: the layout starts at the given origin with the first character, keeps the text's order up to a 0x00, advances by 8 or wraps to the next row exactly when the next glyph would exceed the width, stops early only when that row would exceed the height, and its cells are pairwise disjoint. -/
def Obligations.StringLayoutAdvancesWrapsAndStops : Prop :=
  ∀ (w h : Nat) (text : List Byte) (x y : Int),
    (let cells := stringLayout w h text x y
     let chars := text.takeWhile (fun c => c != 0)
     (∀ g, cells.head? = some g → g.x = x ∧ g.y = y) ∧
     (chars ≠ [] → cells ≠ []) ∧
     cells.map GlyphCell.c = chars.take cells.length ∧
     (∀ (k : Nat) (g g' : GlyphCell), cells[k]? = some g → cells[k + 1]? = some g' →
       (g.x + 16 ≤ w ∧ g'.x = g.x + 8 ∧ g'.y = g.y) ∨
       (w < g.x + 16 ∧ g.y + 16 ≤ h ∧ g'.x = 0 ∧ g'.y = g.y + 8)) ∧
     (cells.length < chars.length → ∃ g, cells.getLast? = some g ∧ w < g.x + 16 ∧ h < g.y + 16) ∧
     cells.Pairwise (fun g g' => ∀ px py, ¬ (cellCovers g.x g.y px py ∧ cellCovers g'.x g'.y px py)))

/-! ### The whole machine -/

/-- Every step of the TDE and the outside world keeps the invariant (`10_state.md` R25 to R38, `20_memory.md` R62, R80, R81). -/
def Obligations.EveryStepKeepsTheInvariant : Prop :=
  ∀ s s' : State, Inv s → step s = .next s' → Inv s'

/-- The invariant holds after reset (`10_state.md` R38). -/
def Obligations.ResetMeetsTheInvariant : Prop := Inv State.reset

/-- `10_state.md` R26, `40_sequencer.md` R152: STATE changes only by reset, by INIT (to UNCONFIGURED, or to FAILED with F_ALLOC) and by the end of CONFIG (to ACTIVE). -/
def Obligations.StateMovesOnlyAlongItsTransitions : Prop :=
  ∀ s s' : State, Inv s → step s = .next s' →
    s'.opState = s.opState ∨
    (s.schedule.head? = some .platform ∧ s'.opState = .reset) ∨
    (s.schedule.head? = some .engine ∧ s.phase = .accepted ∧ s.opState ≠ .failed ∧
      (∃ e, decode s.latch.cmd = .ok (.init e)) ∧
      (s'.opState = .unconfigured ∨ (s'.opState = .failed ∧ s'.sticky.fAlloc = true))) ∨
    (s.schedule.head? = some .transport ∧ s.phase = .running .config 24 ∧ s.opState.operational ∧ s'.opState = .active)

/-- `10_state.md` R27: RESULT changes only by reset and by GET_PIXEL and READ_FB in an operational state, which write a value of 1 or 8 bits as their command ends. -/
def Obligations.OnlyTheReadCommandsWriteResult : Prop :=
  ∀ s s' : State, step s = .next s' → s'.result ≠ s.result →
    (s.schedule.head? = some .platform ∧ s'.result = 0) ∨
    (s.schedule.head? = some .engine ∧ s.phase = .accepted ∧ s.opState.operational ∧ s'.busy = false ∧
      ((decode s.latch.cmd = .ok .getPixel ∧ s'.result.toNat ≤ 1) ∨
       (decode s.latch.cmd = .ok .readFb ∧ s'.result.toNat ≤ 255)))

/-- `20_memory.md` R62, R64: in the operational states no command but INIT changes byte 0 of the frame buffer, and SEND_CMD, CONFIG, FLUSH, GET_PIXEL and READ_FB change no byte at all. -/
def Obligations.OnlyInitWritesTheDataPrefix : Prop :=
  (∀ (s t : State) (i : Instr), s.ready → (∀ e, i ≠ .init e) → exec i s = .next t →
    Memory.read t.fb 0 = Memory.read s.fb 0) ∧
  (∀ (s t : State) (i : Instr), i = .sendCmd ∨ i = .config ∨ i = .flush ∨ i = .getPixel ∨ i = .readFb →
    exec i s = .next t → t.fb = s.fb)

/-- `10_state.md` R36: no operation writes the font and reset does not change it. -/
def Obligations.FontNeverChanges : Prop :=
  ∀ s s' : State, step s = .next s' → s'.rom = s.rom

/-! ### The assembler -/

/-- `30_encoding.md` R109, R110: mnemonics expand to the writes of their operand registers in order and then of CMD, and pseudo-instructions to mnemonics. -/
def Obligations.MnemonicsExpandToWindowWrites : Prop :=
  (∀ (w h a : Int) (e : Bool), expandMnemonic (.init w h a e) =
    [.wr16 0x004 (BitVec.ofInt 16 w), .wr16 0x006 (BitVec.ofInt 16 h), .wr16 0x008 (BitVec.ofInt 16 a),
     .wr16 0x000 (if e then 0x0201 else 0x0001)]) ∧
  expandMnemonic .config = [.wr16 0x000 0x0002] ∧
  (∀ c : Int, expandMnemonic (.sendCmd c) = [.wr16 0x004 (BitVec.ofInt 16 c), .wr16 0x000 0x0003]) ∧
  expandMnemonic .flush = [.wr16 0x000 0x0004] ∧
  (∀ (x y : Int) (v : Bool), expandMnemonic (.setPix x y v) =
    [.wr16 0x004 (BitVec.ofInt 16 x), .wr16 0x006 (BitVec.ofInt 16 y), .wr16 0x000 (if v then 0x0110 else 0x0010)]) ∧
  (∀ x y : Int, expandMnemonic (.getPix x y) =
    [.wr16 0x004 (BitVec.ofInt 16 x), .wr16 0x006 (BitVec.ofInt 16 y), .wr16 0x000 0x0011]) ∧
  (∀ v : Bool, expandMnemonic (.fill v) = [.wr16 0x000 (if v then 0x0112 else 0x0012)]) ∧
  (∀ i : Int, expandMnemonic (.readFb i) = [.wr16 0x004 (BitVec.ofInt 16 i), .wr16 0x000 0x0013]) ∧
  (∀ (t l w h : Int) (v : Bool), expandMnemonic (.rect t l w h v false) =
    [.wr16 0x004 (BitVec.ofInt 16 t), .wr16 0x006 (BitVec.ofInt 16 l), .wr16 0x008 (BitVec.ofInt 16 w),
     .wr16 0x00A (BitVec.ofInt 16 h), .wr16 0x000 (if v then 0x0120 else 0x0020)]) ∧
  (∀ (t l w h : Int) (v : Bool), expandMnemonic (.rect t l w h v true) =
    [.wr16 0x004 (BitVec.ofInt 16 t), .wr16 0x006 (BitVec.ofInt 16 l), .wr16 0x008 (BitVec.ofInt 16 w),
     .wr16 0x00A (BitVec.ofInt 16 h), .wr16 0x000 (if v then 0x0320 else 0x0220)]) ∧
  (∀ (a b c d : Int) (v : Bool), expandMnemonic (.line a b c d v) =
    [.wr16 0x004 (BitVec.ofInt 16 a), .wr16 0x006 (BitVec.ofInt 16 b), .wr16 0x008 (BitVec.ofInt 16 c),
     .wr16 0x00A (BitVec.ofInt 16 d), .wr16 0x000 (if v then 0x0121 else 0x0021)]) ∧
  (∀ (a b y : Int) (v : Bool), expandMnemonic (.hline a b y v) =
    [.wr16 0x004 (BitVec.ofInt 16 a), .wr16 0x006 (BitVec.ofInt 16 b), .wr16 0x008 (BitVec.ofInt 16 y),
     .wr16 0x000 (if v then 0x0122 else 0x0022)]) ∧
  (∀ (a b x : Int) (v : Bool), expandMnemonic (.vline a b x v) =
    [.wr16 0x004 (BitVec.ofInt 16 a), .wr16 0x006 (BitVec.ofInt 16 b), .wr16 0x008 (BitVec.ofInt 16 x),
     .wr16 0x000 (if v then 0x0123 else 0x0023)]) ∧
  (∀ c x y : Int, expandMnemonic (.char c x y) =
    [.wr16 0x004 (BitVec.ofInt 16 c), .wr16 0x006 (BitVec.ofInt 16 x), .wr16 0x008 (BitVec.ofInt 16 y),
     .wr16 0x000 0x0030]) ∧
  (∀ (t : List Byte) (x y : Int), ∃ ws, expandMnemonic (.string t x y) = ws ++
      [.wr16 0x004 (BitVec.ofNat 16 t.length), .wr16 0x006 (BitVec.ofInt 16 x), .wr16 0x008 (BitVec.ofInt 16 y),
       .wr16 0x000 0x0031] ∧
    ws.length = t.length ∧ ∀ (k : Nat) (c : Byte), t[k]? = some c → ws[k]? = some (.wr8 (0x100 + k) c)) ∧
  expandPseudo .clear = expandMnemonic (.fill false) ∧
  (∀ x y : Int, expandPseudo (.pixOn x y) = expandMnemonic (.setPix x y true) ∧
    expandPseudo (.pixOff x y) = expandMnemonic (.setPix x y false) ∧
    expandPseudo (.square x y) = expandMnemonic (.rect y x 8 8 true true) ∧
    expandPseudo (.getPixW x y) = expandMnemonic (.getPix x y) ++ [.waitIdle, .rd16 0x00C]) ∧
  (∀ t l w h : Int, expandPseudo (.outline t l w h) = expandMnemonic (.rect t l w h true false)) ∧
  (∀ w h a : Int, expandPseudo (.boot w h a) = expandMnemonic (.init w h a false) ++ expandMnemonic .config)
end

