-- ==== Sys2Proof/Laws/State.lean ====
section
/-! SUPPORT. What each named update of the state does to each field: one lemma a field, true by unfolding. -/

namespace Sys2Proof.Machine

@[simp] theorem State.raise_opState (s : State) (f : StatusFault) : (s.raise f).opState = s.opState := rfl
@[simp] theorem State.raise_busy (s : State) (f : StatusFault) : (s.raise f).busy = s.busy := rfl
@[simp] theorem State.raise_sticky (s : State) (f : StatusFault) : (s.raise f).sticky = s.sticky.set f := rfl
@[simp] theorem State.raise_regs (s : State) (f : StatusFault) : (s.raise f).regs = s.regs := rfl
@[simp] theorem State.raise_result (s : State) (f : StatusFault) : (s.raise f).result = s.result := rfl
@[simp] theorem State.raise_geom (s : State) (f : StatusFault) : (s.raise f).geom = s.geom := rfl
@[simp] theorem State.raise_text (s : State) (f : StatusFault) : (s.raise f).text = s.text := rfl
@[simp] theorem State.raise_latch (s : State) (f : StatusFault) : (s.raise f).latch = s.latch := rfl
@[simp] theorem State.raise_phase (s : State) (f : StatusFault) : (s.raise f).phase = s.phase := rfl
@[simp] theorem State.raise_pending (s : State) (f : StatusFault) : (s.raise f).pending = s.pending := rfl
@[simp] theorem State.raise_fb (s : State) (f : StatusFault) : (s.raise f).fb = s.fb := rfl
@[simp] theorem State.raise_rom (s : State) (f : StatusFault) : (s.raise f).rom = s.rom := rfl
@[simp] theorem State.raise_log (s : State) (f : StatusFault) : (s.raise f).log = s.log := rfl
@[simp] theorem State.raise_host (s : State) (f : StatusFault) : (s.raise f).host = s.host := rfl
@[simp] theorem State.raise_reads (s : State) (f : StatusFault) : (s.raise f).reads = s.reads := rfl
@[simp] theorem State.raise_schedule (s : State) (f : StatusFault) : (s.raise f).schedule = s.schedule := rfl
@[simp] theorem State.raise_draws (s : State) (f : StatusFault) : (s.raise f).draws = s.draws := rfl

@[simp] theorem State.finish_opState (s : State) : (s.finish).opState = s.opState := rfl
@[simp] theorem State.finish_busy (s : State) : (s.finish).busy = false := rfl
@[simp] theorem State.finish_sticky (s : State) : (s.finish).sticky = s.sticky := rfl
@[simp] theorem State.finish_regs (s : State) : (s.finish).regs = s.regs := rfl
@[simp] theorem State.finish_result (s : State) : (s.finish).result = s.result := rfl
@[simp] theorem State.finish_geom (s : State) : (s.finish).geom = s.geom := rfl
@[simp] theorem State.finish_text (s : State) : (s.finish).text = s.text := rfl
@[simp] theorem State.finish_latch (s : State) : (s.finish).latch = s.latch := rfl
@[simp] theorem State.finish_phase (s : State) : (s.finish).phase = .idle := rfl
@[simp] theorem State.finish_pending (s : State) : (s.finish).pending = s.pending := rfl
@[simp] theorem State.finish_fb (s : State) : (s.finish).fb = s.fb := rfl
@[simp] theorem State.finish_rom (s : State) : (s.finish).rom = s.rom := rfl
@[simp] theorem State.finish_log (s : State) : (s.finish).log = s.log := rfl
@[simp] theorem State.finish_host (s : State) : (s.finish).host = s.host := rfl
@[simp] theorem State.finish_reads (s : State) : (s.finish).reads = s.reads := rfl
@[simp] theorem State.finish_schedule (s : State) : (s.finish).schedule = s.schedule := rfl
@[simp] theorem State.finish_draws (s : State) : (s.finish).draws = s.draws := rfl

@[simp] theorem State.raiseFatal_opState (s : State) (f : StatusFault) : (s.raiseFatal f).opState = .failed := rfl
@[simp] theorem State.raiseFatal_busy (s : State) (f : StatusFault) : (s.raiseFatal f).busy = false := rfl
@[simp] theorem State.raiseFatal_sticky (s : State) (f : StatusFault) : (s.raiseFatal f).sticky = s.sticky.set f := rfl
@[simp] theorem State.raiseFatal_regs (s : State) (f : StatusFault) : (s.raiseFatal f).regs = s.regs := rfl
@[simp] theorem State.raiseFatal_result (s : State) (f : StatusFault) : (s.raiseFatal f).result = s.result := rfl
@[simp] theorem State.raiseFatal_geom (s : State) (f : StatusFault) : (s.raiseFatal f).geom = s.geom := rfl
@[simp] theorem State.raiseFatal_text (s : State) (f : StatusFault) : (s.raiseFatal f).text = s.text := rfl
@[simp] theorem State.raiseFatal_latch (s : State) (f : StatusFault) : (s.raiseFatal f).latch = s.latch := rfl
@[simp] theorem State.raiseFatal_phase (s : State) (f : StatusFault) : (s.raiseFatal f).phase = .idle := rfl
@[simp] theorem State.raiseFatal_pending (s : State) (f : StatusFault) : (s.raiseFatal f).pending = s.pending := rfl
@[simp] theorem State.raiseFatal_fb (s : State) (f : StatusFault) : (s.raiseFatal f).fb = s.fb := rfl
@[simp] theorem State.raiseFatal_rom (s : State) (f : StatusFault) : (s.raiseFatal f).rom = s.rom := rfl
@[simp] theorem State.raiseFatal_log (s : State) (f : StatusFault) : (s.raiseFatal f).log = s.log := rfl
@[simp] theorem State.raiseFatal_host (s : State) (f : StatusFault) : (s.raiseFatal f).host = s.host := rfl
@[simp] theorem State.raiseFatal_reads (s : State) (f : StatusFault) : (s.raiseFatal f).reads = s.reads := rfl
@[simp] theorem State.raiseFatal_schedule (s : State) (f : StatusFault) : (s.raiseFatal f).schedule = s.schedule := rfl
@[simp] theorem State.raiseFatal_draws (s : State) (f : StatusFault) : (s.raiseFatal f).draws = s.draws := rfl

@[simp] theorem State.accept_opState (s : State) (c : Word) : (s.accept c).opState = s.opState := rfl
@[simp] theorem State.accept_busy (s : State) (c : Word) : (s.accept c).busy = true := rfl
@[simp] theorem State.accept_sticky (s : State) (c : Word) : (s.accept c).sticky = s.sticky := rfl
@[simp] theorem State.accept_regs (s : State) (c : Word) : (s.accept c).regs = s.regs := rfl
@[simp] theorem State.accept_result (s : State) (c : Word) : (s.accept c).result = s.result := rfl
@[simp] theorem State.accept_geom (s : State) (c : Word) : (s.accept c).geom = s.geom := rfl
@[simp] theorem State.accept_text (s : State) (c : Word) : (s.accept c).text = s.text := rfl
@[simp] theorem State.accept_latch (s : State) (c : Word) : (s.accept c).latch = ⟨c, s.regs, s.text⟩ := rfl
@[simp] theorem State.accept_phase (s : State) (c : Word) : (s.accept c).phase = .accepted := rfl
@[simp] theorem State.accept_pending (s : State) (c : Word) : (s.accept c).pending = s.pending := rfl
@[simp] theorem State.accept_fb (s : State) (c : Word) : (s.accept c).fb = s.fb := rfl
@[simp] theorem State.accept_rom (s : State) (c : Word) : (s.accept c).rom = s.rom := rfl
@[simp] theorem State.accept_log (s : State) (c : Word) : (s.accept c).log = s.log := rfl
@[simp] theorem State.accept_host (s : State) (c : Word) : (s.accept c).host = s.host := rfl
@[simp] theorem State.accept_reads (s : State) (c : Word) : (s.accept c).reads = s.reads := rfl
@[simp] theorem State.accept_schedule (s : State) (c : Word) : (s.accept c).schedule = s.schedule := rfl
@[simp] theorem State.accept_draws (s : State) (c : Word) : (s.accept c).draws = s.draws := rfl

@[simp] theorem State.withOperands_opState (s : State) (r : OperandRegs) : (s.withOperands r).opState = s.opState := rfl
@[simp] theorem State.withOperands_busy (s : State) (r : OperandRegs) : (s.withOperands r).busy = s.busy := rfl
@[simp] theorem State.withOperands_sticky (s : State) (r : OperandRegs) : (s.withOperands r).sticky = s.sticky := rfl
@[simp] theorem State.withOperands_regs (s : State) (r : OperandRegs) : (s.withOperands r).regs = s.regs := rfl
@[simp] theorem State.withOperands_result (s : State) (r : OperandRegs) : (s.withOperands r).result = s.result := rfl
@[simp] theorem State.withOperands_geom (s : State) (r : OperandRegs) : (s.withOperands r).geom = s.geom := rfl
@[simp] theorem State.withOperands_text (s : State) (r : OperandRegs) : (s.withOperands r).text = s.text := rfl
@[simp] theorem State.withOperands_latch (s : State) (r : OperandRegs) : (s.withOperands r).latch = { s.latch with regs := r } := rfl
@[simp] theorem State.withOperands_phase (s : State) (r : OperandRegs) : (s.withOperands r).phase = s.phase := rfl
@[simp] theorem State.withOperands_pending (s : State) (r : OperandRegs) : (s.withOperands r).pending = s.pending := rfl
@[simp] theorem State.withOperands_fb (s : State) (r : OperandRegs) : (s.withOperands r).fb = s.fb := rfl
@[simp] theorem State.withOperands_rom (s : State) (r : OperandRegs) : (s.withOperands r).rom = s.rom := rfl
@[simp] theorem State.withOperands_log (s : State) (r : OperandRegs) : (s.withOperands r).log = s.log := rfl
@[simp] theorem State.withOperands_host (s : State) (r : OperandRegs) : (s.withOperands r).host = s.host := rfl
@[simp] theorem State.withOperands_reads (s : State) (r : OperandRegs) : (s.withOperands r).reads = s.reads := rfl
@[simp] theorem State.withOperands_schedule (s : State) (r : OperandRegs) : (s.withOperands r).schedule = s.schedule := rfl
@[simp] theorem State.withOperands_draws (s : State) (r : OperandRegs) : (s.withOperands r).draws = s.draws := rfl

@[simp] theorem State.platformReset_opState (s : State) : (s.platformReset).opState = .reset := rfl
@[simp] theorem State.platformReset_busy (s : State) : (s.platformReset).busy = false := rfl
@[simp] theorem State.platformReset_sticky (s : State) : (s.platformReset).sticky = Sticky.clear := rfl
@[simp] theorem State.platformReset_regs (s : State) : (s.platformReset).regs = OperandRegs.zero := rfl
@[simp] theorem State.platformReset_result (s : State) : (s.platformReset).result = 0 := rfl
@[simp] theorem State.platformReset_geom (s : State) : (s.platformReset).geom = Geometry.zero := rfl
@[simp] theorem State.platformReset_text (s : State) : (s.platformReset).text = blankText := rfl
@[simp] theorem State.platformReset_latch (s : State) : (s.platformReset).latch = Latch.unspecified s.draws := rfl
@[simp] theorem State.platformReset_phase (s : State) : (s.platformReset).phase = .idle := rfl
@[simp] theorem State.platformReset_pending (s : State) : (s.platformReset).pending = none := rfl
@[simp] theorem State.platformReset_fb (s : State) : (s.platformReset).fb = Memory.unspecified s.draws := rfl
@[simp] theorem State.platformReset_rom (s : State) : (s.platformReset).rom = s.rom := rfl
@[simp] theorem State.platformReset_log (s : State) : (s.platformReset).log = [] := rfl
@[simp] theorem State.platformReset_host (s : State) : (s.platformReset).host = s.host := rfl
@[simp] theorem State.platformReset_reads (s : State) : (s.platformReset).reads = s.reads := rfl
@[simp] theorem State.platformReset_schedule (s : State) : (s.platformReset).schedule = s.schedule := rfl
@[simp] theorem State.platformReset_draws (s : State) : (s.platformReset).draws = s.draws + 1 := rfl

@[simp] theorem State.op0_eq (s : State) : s.op0 = s.latch.regs.a0 := rfl
@[simp] theorem State.op1_eq (s : State) : s.op1 = s.latch.regs.a1 := rfl
@[simp] theorem State.op2_eq (s : State) : s.op2 = s.latch.regs.a2 := rfl
@[simp] theorem State.op3_eq (s : State) : s.op3 = s.latch.regs.a3 := rfl

/-- Setting one sticky bit leaves the others. -/
theorem Sticky.get_set (k : Sticky) (f g : StatusFault) :
    (k.set f).get g = (decide (f = g) || k.get g) := by
  cases f <;> cases g <;> rfl

/-- Setting a bit that is set changes nothing (`60_exceptions.md` R241). -/
theorem Sticky.set_of_get {k : Sticky} {f : StatusFault} (h : k.get f = true) : k.set f = k := by
  cases k
  cases f <;> simp_all [Sticky.get, Sticky.set]

/-- Two sets of bits agree if they agree bit by bit. -/
theorem Sticky.ext_get {k l : Sticky} (h : ∀ f, k.get f = l.get f) : k = l := by
  cases k
  cases l
  have h1 := h .oob
  have h2 := h .alloc
  have h3 := h .geom
  have h4 := h .illegal
  have h5 := h .noinit
  have h6 := h .char
  have h7 := h .unconf
  simp_all [Sticky.get]

/-- A bit of the union is set exactly if it is set in one of the two. -/
@[simp] theorem Sticky.get_union (k d : Sticky) (f : StatusFault) : (k.union d).get f = (k.get f || d.get f) := by
  cases f <;> rfl

/-- Raising nothing changes nothing. -/
@[simp] theorem Sticky.union_clear (k : Sticky) : k.union Sticky.clear = k := by
  simp [Sticky.union, Sticky.clear]

/-- Raising `d` and then `f` is raising `d` with `f`. -/
theorem Sticky.set_union (k d : Sticky) (f : StatusFault) : (k.union d).set f = k.union (d.set f) := by
  cases f <;> simp [Sticky.union, Sticky.set]

/-- Raising `d` and then `e` is raising both. -/
theorem Sticky.union_assoc (k d e : Sticky) : (k.union d).union e = k.union (d.union e) := by
  simp [Sticky.union, Bool.or_assoc]

end Sys2Proof.Machine
end

