-- ==== Sys2Proof/Laws/Memory.lean ====
section
/-! SUPPORT. The laws of the frame-buffer store: read after write, the canonical form, zero-filling, and equality by reads. -/

namespace Sys2Proof.Machine

theorem Memory.wf_nil : Memory.wf [] := ⟨List.Pairwise.nil, by simp⟩

theorem Memory.wf_tail {c : Host.Cell} {m : Memory} (h : Memory.wf (c :: m)) : Memory.wf m :=
  ⟨(List.pairwise_cons.1 h.1).2, fun d hd => h.2 d (List.mem_cons_of_mem c hd)⟩

theorem Memory.wf_head_lt {c d : Host.Cell} {m : Memory} (h : Memory.wf (c :: m)) (hd : d ∈ m) : c.1 < d.1 :=
  (List.pairwise_cons.1 h.1).1 d hd

/-- An index no cell has reads as an unlisted byte. -/
theorem Memory.read_of_not_listed {m : Memory} {i : Nat} (h : ∀ c ∈ m, c.1 ≠ i) :
    Memory.read m i = Memory.unlisted := by
  induction m with
  | nil => rfl
  | cons c m ih =>
    rw [Memory.read, if_neg (h c (by simp))]
    exact ih fun d hd => h d (List.mem_cons_of_mem c hd)

/-- Read after write: the written byte is `v`, every other byte is as before. -/
theorem Memory.read_write {m : Memory} (h : m.wf) (i : Nat) (v : Byte) (j : Nat) :
    Memory.read (Memory.write m i v) j = if i = j then v else Memory.read m j := by
  induction m with
  | nil =>
    simp only [Memory.write]
    split
    · next hv => split <;> simp [Memory.read, hv]
    · simp [Memory.read]
  | cons c m ih =>
    have hc : ∀ d ∈ m, c.1 < d.1 := fun d hd => Memory.wf_head_lt h hd
    simp only [Memory.write]
    split
    · next hlt =>
      split
      · next hv =>
        split
        · next hij =>
          subst hij
          rw [hv]
          refine Memory.read_of_not_listed ?_
          intro d hd
          rcases List.mem_cons.1 hd with rfl | hd
          · omega
          · have := hc d hd
            omega
        · rfl
      · simp [Memory.read]
    · next hlt =>
      split
      · next heq =>
        split
        · next hv =>
          split
          · next hij =>
            subst hij
            rw [hv]
            refine Memory.read_of_not_listed ?_
            intro d hd
            have := hc d hd
            omega
          · next hij => rw [Memory.read, if_neg (by omega)]
        · simp only [Memory.read, ← heq]
          split <;> rfl
      · next hne =>
        simp only [Memory.read, ih (Memory.wf_tail h)]
        split <;> split <;> first | rfl | omega

/-- The cells of a written memory are the written one and old ones. -/
theorem Memory.mem_write {m : Memory} {i : Nat} {v : Byte} {c : Host.Cell} (h : c ∈ Memory.write m i v) :
    (c = (i, v) ∧ v ≠ Memory.unlisted) ∨ c ∈ m := by
  induction m with
  | nil =>
    simp only [Memory.write] at h
    split at h
    · simp at h
    · next hv =>
      left
      exact ⟨by simpa using h, hv⟩
  | cons d m ih =>
    simp only [Memory.write] at h
    split at h
    · split at h
      · exact .inr h
      · next hv =>
        rcases List.mem_cons.1 h with h | h
        · exact .inl ⟨h, hv⟩
        · exact .inr h
    · split at h
      · split at h
        · exact .inr (List.mem_cons_of_mem d h)
        · next hv =>
          rcases List.mem_cons.1 h with h | h
          · exact .inl ⟨h, hv⟩
          · exact .inr (List.mem_cons_of_mem d h)
      · rcases List.mem_cons.1 h with h | h
        · exact .inr (by simp [h])
        · rcases ih h with h | h
          · exact .inl h
          · exact .inr (List.mem_cons_of_mem d h)

/-- A write keeps the canonical form. -/
theorem Memory.write_wf {m : Memory} (h : m.wf) (i : Nat) (v : Byte) : (Memory.write m i v).wf := by
  refine ⟨?_, ?_⟩
  · induction m with
    | nil =>
      simp only [Memory.write]
      split <;> simp
    | cons d m ih =>
      have hd : ∀ c ∈ m, d.1 < c.1 := fun c hc => Memory.wf_head_lt h hc
      simp only [Memory.write]
      split
      · next hlt =>
        split
        · exact h.1
        · refine List.pairwise_cons.2 ⟨?_, h.1⟩
          intro c hc
          rcases List.mem_cons.1 hc with rfl | hc
          · exact hlt
          · exact lt_trans hlt (hd c hc)
      · next hlt =>
        split
        · next heq =>
          split
          · exact (Memory.wf_tail h).1
          · refine List.pairwise_cons.2 ⟨?_, (Memory.wf_tail h).1⟩
            intro c hc
            have := hd c hc
            omega
        · next hne =>
          refine List.pairwise_cons.2 ⟨?_, ih (Memory.wf_tail h)⟩
          intro c hc
          rcases Memory.mem_write hc with ⟨rfl, -⟩ | hc
          · show d.1 < i
            omega
          · exact hd c hc
  · intro c hc
    rcases Memory.mem_write hc with ⟨rfl, hv⟩ | hc
    · exact hv
    · exact h.2 c hc

/-- Zero-filling below `n`: those bytes read 0x00, the others are as before (`40_sequencer.md` R143). -/
theorem Memory.read_zeroBelow (m : Memory) (n j : Nat) :
    Memory.read (Memory.zeroBelow m n) j = if j < n then 0x00 else Memory.read m j := by
  induction m with
  | nil => simp [Memory.zeroBelow, Memory.read, Memory.unlisted]
  | cons c m ih =>
    unfold Memory.zeroBelow at ih ⊢
    by_cases h : n ≤ c.1
    · rw [List.filter_cons_of_pos (by simpa using h)]
      simp only [Memory.read, ih]
      split <;> split <;> first | rfl | omega
    · rw [List.filter_cons_of_neg (by simpa using h), ih]
      split
      · rfl
      · rw [Memory.read, if_neg (by omega)]

theorem Memory.zeroBelow_wf {m : Memory} (h : m.wf) (n : Nat) : (Memory.zeroBelow m n).wf :=
  ⟨h.1.filter _, fun c hc => h.2 c (List.mem_filter.1 hc).1⟩

theorem Memory.mem_zeroBelow {m : Memory} {n : Nat} {c : Host.Cell} (h : c ∈ Memory.zeroBelow m n) : c ∈ m :=
  (List.mem_filter.1 h).1

@[simp] theorem Memory.bytes_length (m : Memory) (n : Nat) : (Memory.bytes m n).length = n := by
  simp [Memory.bytes]

/-- Byte `i` of the first `n` bytes. -/
theorem Memory.bytes_getElem? (m : Memory) {n i : Nat} (h : i < n) :
    (Memory.bytes m n)[i]? = some (Memory.read m i) := by
  simp [Memory.bytes, h]

/-- Canonical memories that read alike are equal. -/
theorem Memory.ext_read {m n : Memory} (hm : m.wf) (hn : n.wf)
    (h : ∀ i, Memory.read m i = Memory.read n i) : m = n := by
  induction m generalizing n with
  | nil =>
    cases n with
    | nil => rfl
    | cons d n =>
      have := h d.1
      simp only [Memory.read, ↓reduceIte] at this
      exact absurd this.symm (hn.2 d (by simp))
  | cons c m ih =>
    cases n with
    | nil =>
      have := h c.1
      simp only [Memory.read, ↓reduceIte] at this
      exact absurd this (hm.2 c (by simp))
    | cons d n =>
      have hc : ∀ e ∈ m, c.1 < e.1 := fun e he => Memory.wf_head_lt hm he
      have hd : ∀ e ∈ n, d.1 < e.1 := fun e he => Memory.wf_head_lt hn he
      have hkey : c.1 = d.1 := by
        rcases lt_trichotomy c.1 d.1 with hlt | heq | hgt
        · have h1 := h c.1
          rw [Memory.read_of_not_listed (m := d :: n)
            (fun e he => by
              rcases List.mem_cons.1 he with rfl | he
              · omega
              · have := hd e he
                omega)] at h1
          simp only [Memory.read, ↓reduceIte] at h1
          exact absurd h1 (hm.2 c (by simp))
        · exact heq
        · have h1 := h d.1
          rw [Memory.read_of_not_listed (m := c :: m)
            (fun e he => by
              rcases List.mem_cons.1 he with rfl | he
              · omega
              · have := hc e he
                omega)] at h1
          simp only [Memory.read, ↓reduceIte] at h1
          exact absurd h1.symm (hn.2 d (by simp))
      have hval : c.2 = d.2 := by
        have h1 := h c.1
        simpa [Memory.read, hkey] using h1
      have hrest : m = n := by
        refine ih (Memory.wf_tail hm) (Memory.wf_tail hn) ?_
        intro i
        by_cases hi : c.1 = i
        · rw [Memory.read_of_not_listed fun e he => by have := hc e he; omega,
            Memory.read_of_not_listed fun e he => by have := hd e he; omega]
        · have h1 := h i
          simpa only [Memory.read, if_neg hi, if_neg (hkey ▸ hi : d.1 ≠ i)] using h1
      rw [hrest, Prod.ext hkey hval]

/-- Writing the bytes of a list of indexes below `cap`, one after the other, keeps the canonical form and the bound. -/
theorem Memory.writes_wf (g : Nat → Byte) (cap : Nat) (l : List Nat) (m : Memory) (hl : ∀ i ∈ l, i < cap)
    (hm : m.wf) (hk : ∀ c ∈ m, c.1 < cap) :
    (l.foldl (fun m i => Memory.write m i (g i)) m).wf ∧
    ∀ c ∈ l.foldl (fun m i => Memory.write m i (g i)) m, c.1 < cap := by
  induction l generalizing m with
  | nil => exact ⟨hm, hk⟩
  | cons i l ih =>
    refine ih _ (fun j hj => hl j (List.mem_cons_of_mem i hj)) (Memory.write_wf hm i _) ?_
    intro c hc
    rcases Memory.mem_write hc with ⟨rfl, -⟩ | hc
    · exact hl i (by simp)
    · exact hk c hc

/-- An unspecified store is in canonical form and lists no byte beyond the store. -/
theorem Memory.unspecified_wf (n : Nat) :
    (Memory.unspecified n).wf ∧ ∀ c ∈ Memory.unspecified n, c.1 < Config.fbCapacity := by
  have key : ∀ l : List Nat, (∀ i ∈ l, i < Config.fbCapacity) → _ := fun l hl =>
    Memory.writes_wf (Config.freeStoreByte n) Config.fbCapacity l [] hl Memory.wf_nil (by simp)
  unfold Memory.unspecified
  exact key _ fun i hi => List.mem_range.1 hi

end Sys2Proof.Machine
end

