-- ==== Sys2Proof/Laws/Draw.lean ====
section
/-! SUPPORT. The laws of pixel writes: one bit of one byte, the pixel map is injective, and what a list of pixel writes does. -/

namespace Sys2Proof.Machine

theorem pixelBit_lt (y : Int) : pixelBit y < 8 := Nat.mod_lt _ (by decide)

/-- `putBit` changes bit `b` to `v` and no other (`20_memory.md` R67). -/
theorem putBit_getLsbD (old : Byte) {b : Nat} (hb : b < 8) (v : Bool) (j : Nat) :
    (putBit old b v).getLsbD j = if j = b then v else old.getLsbD j := by
  by_cases hj : j < 8
  · rcases lt_trichotomy j b with h | rfl | h
    · cases v <;> simp [putBit, hj, h, h.ne]
    · cases v <;> simp [putBit, hj]
    · have h1 : j - b ≠ 0 := by omega
      have h2 : ¬ j < b := by omega
      cases v <;> simp [putBit, hj, h1, h2, h.ne']
  · have hjb : j ≠ b := by omega
    rw [BitVec.getLsbD_of_ge _ _ (by omega), if_neg hjb, BitVec.getLsbD_of_ge _ _ (by omega)]

/-- The page of an in-range row exists (`20_memory.md` R63). -/
theorem Geometry.page_lt {g : Geometry} (hg : g.legal) {x y : Int} (h : g.inRange x y) :
    y.toNat / 8 < g.pages.toNat := by
  obtain ⟨-, -, -, -, h8, hp, -, -⟩ := hg
  obtain ⟨-, -, hy0, hy⟩ := h
  omega

/-- Every in-range pixel lies in bytes `1 .. PAGES*W` (`20_memory.md` R64). -/
theorem Geometry.pixelIndex_bounds {g : Geometry} (hg : g.legal) {x y : Int} (h : g.inRange x y) :
    1 ≤ g.pixelIndex x y ∧ g.pixelIndex x y ≤ g.pages.toNat * g.w.toNat := by
  have hp := Geometry.page_lt hg h
  obtain ⟨hx0, hx, -, -⟩ := h
  have hx' : x.toNat + 1 ≤ g.w.toNat := by omega
  have := Nat.mul_le_mul_right g.pages.toNat hx'
  unfold Geometry.pixelIndex
  constructor
  · omega
  · rw [Nat.mul_comm g.pages.toNat]
    rw [Nat.add_mul] at this
    omega

/-- Two in-range pixels in one byte are in one column and one page. -/
theorem Geometry.pixelIndex_inj {g : Geometry} (hg : g.legal) {x y x' y' : Int}
    (h : g.inRange x y) (h' : g.inRange x' y') (e : g.pixelIndex x y = g.pixelIndex x' y') :
    x = x' ∧ y.toNat / 8 = y'.toNat / 8 := by
  have hp := Geometry.page_lt hg h
  have hp' := Geometry.page_lt hg h'
  obtain ⟨hx0, -, -, -⟩ := h
  obtain ⟨hx0', -, -, -⟩ := h'
  unfold Geometry.pixelIndex at e
  have hpos : 0 < g.pages.toNat := by omega
  have e' : y.toNat / 8 + x.toNat * g.pages.toNat = y'.toNat / 8 + x'.toNat * g.pages.toNat := by omega
  have hm := congrArg (· % g.pages.toNat) e'
  have hd := congrArg (· / g.pages.toNat) e'
  simp only [Nat.add_mul_mod_self_right, Nat.mod_eq_of_lt hp, Nat.mod_eq_of_lt hp'] at hm
  simp only [Nat.add_mul_div_right _ _ hpos, Nat.div_eq_of_lt hp, Nat.div_eq_of_lt hp'] at hd
  exact ⟨by omega, hm⟩

/-- A pixel write changes at most FB and F_OOB. -/
theorem State.pixelWrite_frame (s : State) (x y : Int) (v : Bool) :
    s.pixelWrite x y v =
      { s with
        fb := (s.pixelWrite x y v).fb
        sticky := { s.sticky with fOob := (s.pixelWrite x y v).sticky.fOob } } := by
  unfold State.pixelWrite
  split <;> rfl

@[simp] theorem State.pixelWrite_geom (s : State) (x y : Int) (v : Bool) : (s.pixelWrite x y v).geom = s.geom := by
  rw [State.pixelWrite_frame]

theorem State.pixelWrite_oob (s : State) (x y : Int) (v : Bool) :
    (s.pixelWrite x y v).sticky.fOob = true ↔ s.sticky.fOob = true ∨ ¬ s.geom.inRange x y := by
  unfold State.pixelWrite
  split
  · next h => simp [h]
  · next h => simp [h, Sticky.set]

theorem State.pixelWrite_wf {s : State} (h : s.fb.wf) (x y : Int) (v : Bool) : (s.pixelWrite x y v).fb.wf := by
  unfold State.pixelWrite
  split
  · exact Memory.write_wf h _ _
  · exact h

/-- What a byte of the frame buffer reads after a pixel write. -/
theorem State.pixelWrite_read {s : State} (h : s.fb.wf) (x y : Int) (v : Bool) (a : Nat) :
    Memory.read (s.pixelWrite x y v).fb a =
      if s.geom.inRange x y ∧ s.geom.pixelIndex x y = a
      then putBit (Memory.read s.fb a) (pixelBit y) v else Memory.read s.fb a := by
  unfold State.pixelWrite
  split
  · next hr =>
    rw [Memory.read_write h]
    by_cases e : s.geom.pixelIndex x y = a
    · rw [if_pos e, if_pos ⟨hr, e⟩, e]
    · rw [if_neg e, if_neg fun h => e h.2]
  · next hr => simp [hr]

/-- What a pixel reads after a pixel write: the written value at that pixel, else what it was (`41_pixel.md` R174). -/
theorem State.pixelWrite_pixelAt {s : State} (hw : s.fb.wf) (hg : s.geom.legal) (x y : Int) (v : Bool)
    {x' y' : Int} (h' : s.geom.inRange x' y') :
    pixelAt s.geom (s.pixelWrite x y v).fb x' y' =
      if x = x' ∧ y = y' then v else pixelAt s.geom s.fb x' y' := by
  unfold pixelAt
  rw [State.pixelWrite_read hw]
  by_cases hr : s.geom.inRange x y
  · by_cases e : s.geom.pixelIndex x y = s.geom.pixelIndex x' y'
    · obtain ⟨hx, hpage⟩ := Geometry.pixelIndex_inj hg hr h' e
      rw [if_pos ⟨hr, e⟩, putBit_getLsbD _ (pixelBit_lt y)]
      obtain ⟨-, -, hy0, -⟩ := hr
      obtain ⟨-, -, hy0', -⟩ := h'
      by_cases hy : y = y'
      · simp [hx, hy]
      · have : pixelBit y' ≠ pixelBit y := by
          unfold pixelBit
          omega
        simp [this, hy]
    · have : ¬ (x = x' ∧ y = y') := by
        rintro ⟨rfl, rfl⟩
        exact e rfl
      simp [e, this]
  · have : ¬ (x = x' ∧ y = y') := by
      rintro ⟨rfl, rfl⟩
      exact hr h'
    simp [hr, this]

@[simp] theorem State.draw_nil (s : State) : s.draw [] = s := rfl

@[simp] theorem State.draw_cons (s : State) (d : Dot) (ds : List Dot) :
    s.draw (d :: ds) = (s.pixelWrite d.x d.y d.v).draw ds := rfl

theorem State.draw_append (s : State) (ds es : List Dot) : s.draw (ds ++ es) = (s.draw ds).draw es :=
  List.foldl_append ..

/-- Pixel writes change at most FB and F_OOB. -/
theorem State.draw_frame (s : State) (ds : List Dot) :
    s.draw ds =
      { s with
        fb := (s.draw ds).fb
        sticky := { s.sticky with fOob := (s.draw ds).sticky.fOob } } := by
  induction ds generalizing s with
  | nil => rfl
  | cons d ds ih =>
    rw [State.draw_cons, ih]
    rw [State.pixelWrite_frame]

@[simp] theorem State.draw_geom (s : State) (ds : List Dot) : (s.draw ds).geom = s.geom := by
  rw [State.draw_frame]

/-- F_OOB after pixel writes: it was set, or one of them was out of range (`20_memory.md` R90). -/
theorem State.draw_oob (s : State) (ds : List Dot) :
    (s.draw ds).sticky.fOob = true ↔ s.sticky.fOob = true ∨ ∃ d ∈ ds, ¬ s.geom.inRange d.x d.y := by
  induction ds generalizing s with
  | nil => simp
  | cons d ds ih =>
    rw [State.draw_cons, ih, State.pixelWrite_oob, State.pixelWrite_geom]
    simp only [List.mem_cons, exists_eq_or_imp, or_assoc]

theorem State.draw_wf {s : State} (h : s.fb.wf) (ds : List Dot) : (s.draw ds).fb.wf := by
  induction ds generalizing s with
  | nil => exact h
  | cons d ds ih => exact ih (State.pixelWrite_wf h d.x d.y d.v)

/-- A byte that holds no written pixel reads as before. -/
theorem State.draw_read_other {s : State} (h : s.fb.wf) {ds : List Dot} {a : Nat}
    (ha : ∀ d ∈ ds, s.geom.inRange d.x d.y → s.geom.pixelIndex d.x d.y ≠ a) :
    Memory.read (s.draw ds).fb a = Memory.read s.fb a := by
  induction ds generalizing s with
  | nil => rfl
  | cons d ds ih =>
    rw [State.draw_cons, ih (State.pixelWrite_wf h d.x d.y d.v) (by
      simpa using fun e he => ha e (List.mem_cons_of_mem d he)), State.pixelWrite_read h,
      if_neg fun ⟨hr, e⟩ => ha d (by simp) hr e]

/-- A pixel no write goes to reads as before. -/
theorem State.draw_pixelAt_other {s : State} (hw : s.fb.wf) (hg : s.geom.legal) {ds : List Dot} {x y : Int}
    (h : s.geom.inRange x y) (hd : ∀ d ∈ ds, ¬ (d.x = x ∧ d.y = y)) :
    pixelAt s.geom (s.draw ds).fb x y = pixelAt s.geom s.fb x y := by
  induction ds generalizing s with
  | nil => rfl
  | cons d ds ih =>
    have h1 := ih (s := s.pixelWrite d.x d.y d.v) (State.pixelWrite_wf hw d.x d.y d.v) (by simpa using hg)
      (by simpa using h) fun e he => hd e (List.mem_cons_of_mem d he)
    rw [State.pixelWrite_geom] at h1
    rw [State.draw_cons, h1, State.pixelWrite_pixelAt hw hg _ _ _ h, if_neg (hd d (by simp))]

/-- A pixel that some write goes to, and only writes of `v`, reads `v`. -/
theorem State.draw_pixelAt_hit {s : State} (hw : s.fb.wf) (hg : s.geom.legal) {ds : List Dot} {x y : Int} {v : Bool}
    (h : s.geom.inRange x y) (hv : ∀ d ∈ ds, d.x = x → d.y = y → d.v = v) (hd : ∃ d ∈ ds, d.x = x ∧ d.y = y) :
    pixelAt s.geom (s.draw ds).fb x y = v := by
  induction ds generalizing s with
  | nil => simp at hd
  | cons d ds ih =>
    have hw' := State.pixelWrite_wf hw d.x d.y d.v
    by_cases hrest : ∃ e ∈ ds, e.x = x ∧ e.y = y
    · have h1 := ih (s := s.pixelWrite d.x d.y d.v) hw' (by simpa using hg) (by simpa using h)
        (fun e he => hv e (List.mem_cons_of_mem d he)) hrest
      rwa [State.pixelWrite_geom] at h1
    · have hxy : d.x = x ∧ d.y = y := by
        obtain ⟨e, he, hxy⟩ := hd
        rcases List.mem_cons.1 he with rfl | he
        · exact hxy
        · exact absurd ⟨e, he, hxy⟩ hrest
      have h1 := State.draw_pixelAt_other (s := s.pixelWrite d.x d.y d.v) (ds := ds) hw' (by simpa using hg)
        (by simpa using h) fun e he hxy => hrest ⟨e, he, hxy⟩
      rw [State.pixelWrite_geom] at h1
      rw [State.draw_cons, h1, State.pixelWrite_pixelAt hw hg _ _ _ h, if_pos hxy]
      exact hv d (by simp) hxy.1 hxy.2

/-- The body of a command runs in an operational state (`60_exceptions.md` R245). -/
theorem State.whenOperational_of {s : State} (h : s.opState.operational) (body : State → State) :
    s.whenOperational body = body s := by
  unfold State.whenOperational
  rcases h with h | h <;> rw [h]

theorem State.whenOperational_reset {s : State} (h : s.opState = .reset) (body : State → State) :
    s.whenOperational body = (s.raise .noinit).finish := by
  unfold State.whenOperational
  rw [h]

theorem State.whenOperational_failed {s : State} (h : s.opState = .failed) (body : State → State) :
    s.whenOperational body = s.finish := by
  unfold State.whenOperational
  rw [h]

/-- A command that makes pixel writes of one value `v` draws exactly the pixels it writes. -/
theorem State.drawsExactly_of_draw {s : State} (hr : s.ready) {i : Instr} {v : Bool} {ds : List Dot}
    {P : Int → Int → Prop} (he : exec i s = .next (s.draw ds).finish) (hv : ∀ d ∈ ds, d.v = v)
    (hP : ∀ x y, P x y ↔ ∃ d ∈ ds, d.x = x ∧ d.y = y) : s.drawsExactly i v P := by
  obtain ⟨-, hg, hw⟩ := hr
  refine ⟨(s.draw ds).fb, (s.draw ds).sticky.fOob, ?_, ?_, ?_, ?_, ?_⟩
  · rw [he, State.draw_frame]
    rfl
  · rw [State.draw_oob]
    refine or_congr_right ⟨?_, ?_⟩
    · rintro ⟨d, hd, hn⟩
      exact ⟨d.x, d.y, (hP _ _).2 ⟨d, hd, rfl, rfl⟩, hn⟩
    · rintro ⟨x, y, hp, hn⟩
      obtain ⟨d, hd, rfl, rfl⟩ := (hP _ _).1 hp
      exact ⟨d, hd, hn⟩
  · exact fun x y h hp => State.draw_pixelAt_hit hw hg h (fun d hd _ _ => hv d hd) ((hP x y).1 hp)
  · exact fun x y h hp => State.draw_pixelAt_other hw hg h fun d hd hxy => hp ((hP x y).2 ⟨d, hd, hxy⟩)
  · exact fun a ha => State.draw_read_other hw fun d hd hin => ha d.x d.y ((hP _ _).2 ⟨d, hd, rfl, rfl⟩) hin

/-! ### The pixels of a byte -/

/-- Bit `b` of byte `i` of `1 .. PAGES*W` holds a pixel (`20_memory.md` R70). -/
theorem Geometry.pixel_of_bit {g : Geometry} (hg : g.legal) {i b : Nat} (h1 : 1 ≤ i)
    (h2 : i ≤ g.pages.toNat * g.w.toNat) (hb : b ≤ 7) :
    ∃ x y : Int, g.inRange x y ∧ g.pixelIndex x y = i ∧ pixelBit y = b := by
  obtain ⟨-, -, hh1, -, h8, hp, -, -⟩ := hg
  have hpos : 0 < g.pages.toNat := by omega
  have hx : (i - 1) / g.pages.toNat < g.w.toNat := by
    rw [Nat.div_lt_iff_lt_mul hpos, Nat.mul_comm]
    omega
  have hy := Nat.mod_lt (i - 1) hpos
  refine ⟨((i - 1) / g.pages.toNat : Nat), (8 * ((i - 1) % g.pages.toNat) + b : Nat),
    ⟨by positivity, by exact_mod_cast hx, by positivity, ?_⟩, ?_, ?_⟩
  · have : 8 * ((i - 1) % g.pages.toNat) + b < g.h.toNat := by omega
    exact_mod_cast this
  · have := Nat.mod_add_div (i - 1) g.pages.toNat
    simp only [Geometry.pixelIndex, Int.toNat_natCast]
    rw [show (8 * ((i - 1) % g.pages.toNat) + b) / 8 = (i - 1) % g.pages.toNat by omega, Nat.mul_comm]
    omega
  · simp only [pixelBit, Int.toNat_natCast]
    omega

/-- Canonical frame buffers that agree on every pixel and on every byte without pixels are equal. -/
theorem Memory.ext_pixels {g : Geometry} (hg : g.legal) {m n : Memory} (hm : m.wf) (hn : n.wf)
    (hp : ∀ x y, g.inRange x y → pixelAt g m x y = pixelAt g n x y)
    (hr : ∀ a, a = 0 ∨ g.pages.toNat * g.w.toNat < a → Memory.read m a = Memory.read n a) : m = n := by
  refine Memory.ext_read hm hn fun a => ?_
  by_cases ha : a = 0 ∨ g.pages.toNat * g.w.toNat < a
  · exact hr a ha
  · refine BitVec.eq_of_getLsbD_eq fun i hi => ?_
    obtain ⟨x, y, hin, he, hb⟩ := Geometry.pixel_of_bit hg (i := a) (b := i) (by omega) (by omega) (by omega)
    have := hp x y hin
    unfold pixelAt at this
    rwa [he, hb] at this

/-- Byte 0 and the bytes beyond the pixels read as before. -/
theorem State.draw_read_outside {s : State} (hw : s.fb.wf) (hg : s.geom.legal) (ds : List Dot) {a : Nat}
    (ha : a = 0 ∨ s.geom.pages.toNat * s.geom.w.toNat < a) : Memory.read (s.draw ds).fb a = Memory.read s.fb a := by
  refine State.draw_read_other hw fun d _ hi => ?_
  have := Geometry.pixelIndex_bounds hg hi
  omega

/-- Pixel writes list no byte beyond the store. -/
theorem State.draw_inStore {s : State} (hg : s.geom.legal) (hk : ∀ c ∈ s.fb, c.1 < Config.fbCapacity) (ds : List Dot) :
    ∀ c ∈ (s.draw ds).fb, c.1 < Config.fbCapacity := by
  induction ds generalizing s with
  | nil => exact hk
  | cons d ds ih =>
    rw [State.draw_cons]
    refine ih (by simpa using hg) ?_
    unfold State.pixelWrite
    split
    · next hr =>
      intro c hc
      rcases Memory.mem_write hc with ⟨rfl, -⟩ | hc
      · have := Geometry.pixelIndex_bounds hg hr
        obtain ⟨_, _, _, _, _, _, hb, hcap⟩ := hg
        dsimp only
        omega
      · exact hk c hc
    · exact hk

/-- Pixel writes keep a state ready for drawing. -/
theorem State.draw_ready {s : State} (hr : s.ready) (ds : List Dot) : (s.draw ds).ready := by
  refine ⟨?_, ?_, State.draw_wf hr.2.2 ds⟩
  · rw [State.draw_frame]
    exact hr.1
  · rw [State.draw_frame]
    exact hr.2.1

theorem State.finish_pixelWrite (s : State) (x y : Int) (v : Bool) :
    s.finish.pixelWrite x y v = (s.pixelWrite x y v).finish := by
  unfold State.pixelWrite
  rw [State.finish_geom]
  split <;> rfl

/-- Pixel writes do not depend on BUSY and PHASE. -/
theorem State.finish_draw (s : State) (ds : List Dot) : s.finish.draw ds = (s.draw ds).finish := by
  induction ds generalizing s with
  | nil => rfl
  | cons d ds ih => rw [State.draw_cons, State.draw_cons, State.finish_pixelWrite, ih]

/-! ### Which pixels the loops write -/

theorem mem_intRange {a x : Int} {n : Nat} : x ∈ intRange a n ↔ a ≤ x ∧ x < a + n := by
  simp only [intRange, List.mem_map, List.mem_range]
  constructor
  · rintro ⟨k, h, rfl⟩
    omega
  · rintro ⟨h1, h2⟩
    exact ⟨(x - a).toNat, by omega, by omega⟩

theorem mem_intSpan {a b x : Int} : x ∈ intSpan a b ↔ a ≤ x ∧ x ≤ b := by
  rw [intSpan, mem_intRange]
  omega

/-- The pixel writes of FILL (`41_pixel.md` R172). -/
theorem mem_fillDots {w h : Nat} {v : Bool} {d : Dot} :
    d ∈ fillDots w h v ↔ d.v = v ∧ 0 ≤ d.x ∧ d.x < w ∧ 0 ≤ d.y ∧ d.y < h := by
  obtain ⟨x, y, u⟩ := d
  simp only [fillDots, List.mem_flatMap, List.mem_map, mem_intRange, Dot.mk.injEq]
  constructor
  · rintro ⟨y', hy, x', hx, rfl, rfl, rfl⟩
    exact ⟨rfl, by omega, by omega, by omega, by omega⟩
  · rintro ⟨rfl, h1, h2, h3, h4⟩
    exact ⟨y, by omega, x, by omega, rfl, rfl, rfl⟩

/-- The pixel writes of RECT (`42_shapes.md` R190, R191). -/
theorem mem_rectDots {top left : Int} {w h : Nat} {v f : Bool} {d : Dot} :
    d ∈ rectDots top left w h v f ↔ d.v = v ∧ rectCovers top left w h f d.x d.y := by
  obtain ⟨dx, dy, dv⟩ := d
  unfold rectDots rectCovers
  split
  · simp only [List.not_mem_nil, false_iff]
    rintro ⟨-, h1, h2, -⟩
    omega
  · have hw : 1 ≤ w := by omega
    have hh : 1 ≤ h := by omega
    simp only [List.mem_append, List.mem_flatMap, mem_intRange, List.mem_cons, Dot.mk.injEq, List.not_mem_nil, or_false]
    cases f
    · simp only [Bool.false_eq_true, if_false, List.not_mem_nil, or_false, false_and]
      constructor
      · rintro (⟨x, hx, h | h⟩ | ⟨y, hy, h | h⟩)
        · obtain ⟨rfl, rfl, rfl⟩ := h; exact ⟨rfl, hw, hh, .inl ⟨by omega, by omega, .inl rfl⟩⟩
        · obtain ⟨rfl, rfl, rfl⟩ := h; exact ⟨rfl, hw, hh, .inl ⟨by omega, by omega, .inr rfl⟩⟩
        · obtain ⟨rfl, rfl, rfl⟩ := h; exact ⟨rfl, hw, hh, .inr ⟨by omega, by omega, .inl rfl⟩⟩
        · obtain ⟨rfl, rfl, rfl⟩ := h; exact ⟨rfl, hw, hh, .inr ⟨by omega, by omega, .inr rfl⟩⟩
      · rintro ⟨rfl, -, -, ⟨h1, h2, h3 | h3⟩ | ⟨h1, h2, h3 | h3⟩⟩
        · exact .inl ⟨dx, by omega, .inl ⟨rfl, h3, rfl⟩⟩
        · exact .inl ⟨dx, by omega, .inr ⟨rfl, h3, rfl⟩⟩
        · exact .inr ⟨dy, by omega, .inl ⟨h3, rfl, rfl⟩⟩
        · exact .inr ⟨dy, by omega, .inr ⟨h3, rfl, rfl⟩⟩
    · simp only [if_true, true_and, List.mem_flatMap, List.mem_map, mem_intSpan, Dot.mk.injEq]
      constructor
      · rintro ((⟨x, hx, h | h⟩ | ⟨y, hy, h | h⟩) | ⟨x, hx, y, hy, h⟩)
        · obtain ⟨rfl, rfl, rfl⟩ := h; exact ⟨rfl, hw, hh, .inl ⟨by omega, by omega, .inl rfl⟩⟩
        · obtain ⟨rfl, rfl, rfl⟩ := h; exact ⟨rfl, hw, hh, .inl ⟨by omega, by omega, .inr rfl⟩⟩
        · obtain ⟨rfl, rfl, rfl⟩ := h; exact ⟨rfl, hw, hh, .inr (.inl ⟨by omega, by omega, .inl rfl⟩)⟩
        · obtain ⟨rfl, rfl, rfl⟩ := h; exact ⟨rfl, hw, hh, .inr (.inl ⟨by omega, by omega, .inr rfl⟩)⟩
        · obtain ⟨rfl, rfl, rfl⟩ := h; exact ⟨rfl, hw, hh, .inr (.inr ⟨by omega, by omega, by omega, by omega⟩)⟩
      · rintro ⟨rfl, -, -, ⟨h1, h2, h3 | h3⟩ | ⟨h1, h2, h3 | h3⟩ | h4⟩
        · exact .inl (.inl ⟨dx, by omega, .inl ⟨rfl, h3, rfl⟩⟩)
        · exact .inl (.inl ⟨dx, by omega, .inr ⟨rfl, h3, rfl⟩⟩)
        · exact .inl (.inr ⟨dy, by omega, .inl ⟨h3, rfl, rfl⟩⟩)
        · exact .inl (.inr ⟨dy, by omega, .inr ⟨h3, rfl, rfl⟩⟩)
        · exact .inr ⟨dx, by omega, dy, by omega, rfl, rfl, rfl⟩

/-- The pixel writes of HLINE (`42_shapes.md` R197). -/
theorem mem_hlineDots {a b y : Int} {v : Bool} {d : Dot} :
    d ∈ hlineDots a b y v ↔ d.v = v ∧ a ≤ d.x ∧ d.x ≤ b ∧ d.y = y := by
  obtain ⟨x, y', u⟩ := d
  simp only [hlineDots, List.mem_map, mem_intSpan, Dot.mk.injEq]
  constructor
  · rintro ⟨x', hx, rfl, rfl, rfl⟩
    exact ⟨rfl, hx.1, hx.2, rfl⟩
  · rintro ⟨rfl, h1, h2, rfl⟩
    exact ⟨x, ⟨h1, h2⟩, rfl, rfl, rfl⟩

/-- The pixel writes of VLINE (`42_shapes.md` R198). -/
theorem mem_vlineDots {a b x : Int} {v : Bool} {d : Dot} :
    d ∈ vlineDots a b x v ↔ d.v = v ∧ a ≤ d.y ∧ d.y ≤ b ∧ d.x = x := by
  obtain ⟨x', y, u⟩ := d
  simp only [vlineDots, List.mem_map, mem_intSpan, Dot.mk.injEq]
  constructor
  · rintro ⟨y', hy, rfl, rfl, rfl⟩
    exact ⟨rfl, hy.1, hy.2, rfl⟩
  · rintro ⟨rfl, h1, h2, rfl⟩
    exact ⟨y, ⟨h1, h2⟩, rfl, rfl, rfl⟩

/-- The pixel writes of a glyph: each pixel of its cell once, with its font bit (`43_glyph.md` R221). -/
theorem mem_glyphDots {r : FontRom} {c : Byte} {x y : Int} {d : Dot} :
    d ∈ glyphDots r c x y ↔ ∃ i j : Nat, i ≤ 7 ∧ j ≤ 7 ∧
      d = ⟨x + i, y + j, (fontRead r (8 * glyphNumber r c + i)).getLsbD j⟩ := by
  simp only [glyphDots, List.mem_flatMap, List.mem_map, List.mem_range]
  constructor
  · rintro ⟨i, hi, j, hj, rfl⟩
    exact ⟨i, j, by omega, by omega, rfl⟩
  · rintro ⟨i, j, hi, hj, rfl⟩
    exact ⟨i, by omega, j, by omega, rfl⟩

end Sys2Proof.Machine
end

