-- ==== Sys2Proof/Laws/Machine.lean ====
section
/-! SUPPORT. What the shared steps of the machine can do: emitting on the bus, the transport's turn, one command, the host's access, and one step. -/

namespace Sys2Proof.Machine

/-! ### The bus -/

/-- The transactions of an operation depend only on the geometry, the frame buffer and the latched A0. -/
theorem BusOp.txns_congr {s t : State} (hg : t.geom = s.geom) (hf : t.fb = s.fb)
    (hl : t.latch.regs.a0 = s.latch.regs.a0) (op : BusOp) : op.txns t = op.txns s := by
  cases op <;> simp [BusOp.txns, State.cmdTxn, State.dataTxn, hg, hf, hl]

/-- Handing over a transaction the operation has. -/
theorem State.emitFrom_some {s : State} {op : BusOp} {k : Nat} {t : Txn} (h : (op.txns s)[k]? = some t) :
    s.emitFrom op k = { s with phase := .running op k, pending := some t } := by
  unfold State.emitFrom
  rw [h]

/-- After its last transaction the operation concludes. -/
theorem State.emitFrom_none {s : State} {op : BusOp} {k : Nat} (h : (op.txns s)[k]? = none) :
    s.emitFrom op k = { s with
      busy := false, phase := .idle, opState := if op = .config then .active else s.opState } := by
  unfold State.emitFrom
  rw [h]
  cases op <;> rfl

theorem BusOp.txns_length (op : BusOp) (s : State) :
    (op.txns s).length = match op with | .config => 25 | .sendCmd => 1 | .flush => 7 := by
  cases op <;> rfl

/-- Every bus operation has a first transaction. -/
theorem BusOp.txns_zero (op : BusOp) (s : State) : ∃ t, (op.txns s)[0]? = some t := by
  cases op <;> exact ⟨_, rfl⟩

/-- The transport's turn during an operation (`20_memory.md` R81). -/
theorem State.transportTurn_running {s : State} {op : BusOp} {k : Nat} {t : Txn} (hp : s.phase = .running op k)
    (ht : s.pending = some t) :
    s.transportTurn = ({ s with log := s.log ++ [t], pending := none } : State).emitFrom op (k + 1) := by
  simp only [State.transportTurn, ht, hp]

theorem State.transportTurn_none {s : State} (h : s.pending = none) : s.transportTurn = s := by
  simp only [State.transportTurn, h]

/-- The transport's turn changes only LOG, PENDING, PHASE, BUSY and STATE. -/
theorem State.transportTurn_frame (s : State) :
    s.transportTurn = { s with
      log := s.transportTurn.log, pending := s.transportTurn.pending, phase := s.transportTurn.phase,
      busy := s.transportTurn.busy, opState := s.transportTurn.opState } := by
  unfold State.transportTurn
  split
  · rfl
  · split
    · next op k _ =>
      rcases hx : (op.txns { s with log := s.log ++ [_], pending := none })[k + 1]? with _ | t
      · rw [State.emitFrom_none hx]
      · rw [State.emitFrom_some hx]
    · rfl
    · rfl

/-- LOG after the transport's turn. -/
theorem State.transportTurn_log (s : State) :
    s.transportTurn.log = s.log ++ s.pending.toList := by
  unfold State.transportTurn
  split
  · next h => simp [h]
  · next t h =>
    split
    · next op k _ =>
      rcases hx : (op.txns { s with log := s.log ++ [t], pending := none })[k + 1]? with _ | u
      · rw [State.emitFrom_none hx]
        simp [h]
      · rw [State.emitFrom_some hx]
        simp [h]
    · simp [h]
    · simp [h]

/-- While an operation runs, `k` done reports bring it to its transaction `k` (`20_memory.md` R81). -/
theorem State.reports_running {s : State} {op : BusOp} (hp : s.phase = .running op 0)
    (ht : s.pending = (op.txns s)[0]?) (k : Nat) (hk : k < (op.txns s).length) :
    s.reports k = { s with
      log := s.log ++ (op.txns s).take k, phase := .running op k, pending := (op.txns s)[k]? } := by
  induction k with
  | zero =>
    rw [List.take_zero, List.append_nil, ← hp, ← ht]
    rfl
  | succ k ih =>
    have hk' : k < (op.txns s).length := by omega
    have e : s.reports (k + 1) = (s.reports k).transportTurn := rfl
    rw [e, ih hk', State.transportTurn_running (t := (op.txns s)[k]) rfl (by simp [hk'])]
    refine (State.emitFrom_some (t := (op.txns s)[k + 1]) ?_).trans ?_
    · exact (congrArg (·[k + 1]?) (BusOp.txns_congr (s := s) rfl rfl rfl op)).trans (by simp [hk])
    · rw [List.append_assoc, List.take_concat_get' _ _ hk', ← List.getElem?_eq_getElem hk]

/-- As many done reports as an operation has transactions conclude it, with all of them in LOG. -/
theorem State.reports_all {s : State} {op : BusOp} (hp : s.phase = .running op 0)
    (ht : s.pending = (op.txns s)[0]?) :
    s.reports (op.txns s).length = { s with
      log := s.log ++ op.txns s, pending := none, busy := false, phase := .idle,
      opState := if op = .config then .active else s.opState } := by
  obtain ⟨n, hn⟩ : ∃ n, (op.txns s).length = n + 1 := by
    cases op <;> exact ⟨_, BusOp.txns_length _ s⟩
  have hlt : n < (op.txns s).length := by omega
  have e : s.reports (n + 1) = (s.reports n).transportTurn := rfl
  rw [hn, e, State.reports_running hp ht n hlt, State.transportTurn_running (t := (op.txns s)[n]) rfl (by simp [hlt])]
  refine (State.emitFrom_none ?_).trans ?_
  · exact (congrArg (·[n + 1]?) (BusOp.txns_congr (s := s) rfl rfl rfl op)).trans (by simp [hn])
  · have htake : (op.txns s).take n ++ [(op.txns s)[n]] = op.txns s := by
      rw [List.take_concat_get' _ _ hlt, List.take_of_length_le (by omega)]
    simp only [List.append_assoc, htake]

/-! ### One command -/

/-- A state after a command, as it differs from the state before: the environment, the operand registers, TEXT, the latch, the font and LOG stay. -/
def State.commandFrame (s t : State) : Prop :=
  t = { s with
    opState := t.opState, busy := t.busy, sticky := t.sticky, result := t.result, geom := t.geom,
    phase := t.phase, pending := t.pending, fb := t.fb, draws := t.draws }

theorem State.emitFrom_zero_frame (s : State) (op : BusOp) :
    ∃ t, s.emitFrom op 0 = { s with phase := .running op 0, pending := some t } := by
  obtain ⟨t, h⟩ := BusOp.txns_zero op s
  exact ⟨t, State.emitFrom_some h⟩

theorem State.whenOperational_cases (s : State) (body : State → State) :
    (s.opState = .failed ∧ s.whenOperational body = s.finish) ∨
    (s.opState = .reset ∧ s.whenOperational body = (s.raise .noinit).finish) ∨
    (s.opState.operational ∧ s.whenOperational body = body s) := by
  rcases h : s.opState with _ | _ | _ | _
  · exact .inr (.inl ⟨rfl, State.whenOperational_reset h body⟩)
  · exact .inr (.inr ⟨.inl rfl, State.whenOperational_of (.inl h) body⟩)
  · exact .inr (.inr ⟨.inr rfl, State.whenOperational_of (.inr h) body⟩)
  · exact .inl ⟨rfl, State.whenOperational_failed h body⟩

/-- A glyph changes at most FB, F_OOB and W_CHAR. -/
theorem State.blit_frame (s : State) (c : Byte) (x y : Int) :
    s.blit c x y = { s with
      fb := (s.blit c x y).fb
      sticky := { s.sticky with
        fOob := (s.blit c x y).sticky.fOob
        wChar := s.sticky.wChar || decide (mappedGlyph s.rom c = none) } } := by
  unfold State.blit
  rw [State.draw_frame]
  split
  · next h => simp [Sticky.set, h]
  · next h => simp [h]

/-- CHAR is a string of one glyph. -/
theorem State.blitAll_singleton (s : State) (g : GlyphCell) : s.blitAll [g] = s.blit g.c g.x g.y := by
  simp only [State.blitAll, List.foldl_cons, List.foldl_nil]

/-- Glyphs change at most FB, F_OOB and W_CHAR. -/
theorem State.blitAll_frame (s : State) (cells : List GlyphCell) :
    s.blitAll cells = { s with
      fb := (s.blitAll cells).fb
      sticky := { s.sticky with
        fOob := (s.blitAll cells).sticky.fOob
        wChar := (s.blitAll cells).sticky.wChar } } := by
  unfold State.blitAll
  induction cells generalizing s with
  | nil => rfl
  | cons g cells ih =>
    rw [List.foldl_cons, ih, State.blit_frame]

/-- What one command can do (`60_exceptions.md` R245): end with no effect, end with one of the bits that end a command, initialise, overflow the store, write RESULT, draw, or hand over its first transaction. -/
inductive CommandEffect (i : Instr) (s : State) : State → Prop where
  /-- FAILED (log 16). -/
  | discarded : s.opState = .failed → CommandEffect i s s.finish
  /-- F_NOINIT, F_GEOM or F_ILLEGAL ends the command. -/
  | ended (f : StatusFault) : s.opState ≠ .failed → f = .noinit ∨ f = .geom ∨ f = .illegal →
      CommandEffect i s (s.raise f).finish
  /-- INIT succeeds (`40_sequencer.md` R143). -/
  | initialised (ext : Bool) : i = .init ext → s.opState ≠ .failed →
      geometryOK (size s.op0) (size s.op1) (size s.op2) →
      bufferSize (size s.op0) (size s.op1) ≤ Config.fbCapacity →
      CommandEffect i s (s.initSurface (size s.op0) (size s.op1) (size s.op2) ext)
  /-- INIT overflows the store (`40_sequencer.md` R142). -/
  | overflowed (ext : Bool) : i = .init ext → s.opState ≠ .failed → CommandEffect i s s.initOverflow
  /-- GET_PIXEL. -/
  | pixelRead (x y : Int) : i = .getPixel → s.opState.operational → CommandEffect i s (s.resultFromPixel x y).finish
  /-- READ_FB. -/
  | byteRead (k : Nat) : i = .readFb → s.opState.operational → CommandEffect i s (s.resultFromByte k).finish
  /-- SET_PIXEL, FILL and the shapes. -/
  | drew (ds : List Dot) : (∀ e, i ≠ .init e) → s.opState.operational → CommandEffect i s (s.draw ds).finish
  /-- CHAR and STRING. -/
  | wrote (cells : List GlyphCell) : (∀ e, i ≠ .init e) → s.opState.operational →
      CommandEffect i s (s.blitAll cells).finish
  /-- CONFIG, SEND_CMD and FLUSH. -/
  | emitted (op : BusOp) (k : Sticky) (t : Txn) : (∀ e, i ≠ .init e) → s.opState.operational →
      (k = s.sticky ∨ k = s.sticky.set .unconf) → (op.txns s)[0]? = some t →
      CommandEffect i s { s with sticky := k, phase := .running op 0, pending := some t }

/-- Every command answers a next state, and it is one of the effects above. -/
theorem exec_effect (i : Instr) (s : State) : ∃ t, exec i s = .next t ∧ CommandEffect i s t := by
  have hgate : ∀ body : State → State, (s.opState.operational → CommandEffect i s (body s)) →
      CommandEffect i s (s.whenOperational body) := by
    intro body hb
    rcases State.whenOperational_cases s body with ⟨h, e⟩ | ⟨h, e⟩ | ⟨h, e⟩ <;> rw [e]
    · exact .discarded h
    · exact .ended .noinit (by rw [h]; decide) (.inl rfl)
    · exact hb h
  have hinit : ∀ ext, i = .init ext → s.opState ≠ .failed →
      CommandEffect i s (s.initWith (size s.op0) (size s.op1) (size s.op2) ext) := by
    intro ext hi hf
    unfold State.initWith
    split
    · exact .ended .geom hf (.inr (.inl rfl))
    · next hok =>
      split
      · exact .overflowed ext hi hf
      · next hcap => exact .initialised ext hi hf (not_not.1 hok) (not_lt.1 hcap)
  have hemit : ∀ op, (∀ e, i ≠ .init e) → s.opState.operational → CommandEffect i s (s.emitFrom op 0) := by
    intro op hi ho
    obtain ⟨t, h⟩ := BusOp.txns_zero op s
    rw [State.emitFrom_some h]
    exact .emitted op s.sticky t hi ho (.inl rfl) h
  cases i with
  | init ext =>
    rcases hs : s.opState with _ | _ | _ | _
    · exact ⟨_, by simp only [exec, execInit, hs], hinit ext rfl (by simp [hs])⟩
    · exact ⟨_, by simp only [exec, execInit, hs], hinit ext rfl (by simp [hs])⟩
    · exact ⟨_, by simp only [exec, execInit, hs], hinit ext rfl (by simp [hs])⟩
    · exact ⟨_, by simp only [exec, execInit, hs], .discarded hs⟩
  | config => exact ⟨_, rfl, hgate _ (hemit .config (by simp))⟩
  | sendCmd => exact ⟨_, rfl, hgate _ (hemit .sendCmd (by simp))⟩
  | flush =>
    refine ⟨_, rfl, hgate _ fun ho => ?_⟩
    split
    · obtain ⟨t, h⟩ := BusOp.txns_zero .flush s
      have h' : (BusOp.txns (s.raise .unconf) .flush)[0]? = some t := by
        rw [BusOp.txns_congr (s := s) (t := s.raise .unconf) rfl rfl rfl .flush]
        exact h
      rw [State.emitFrom_some h']
      exact .emitted .flush (s.sticky.set .unconf) t (by simp) ho (.inr rfl) h
    · exact hemit .flush (by simp) ho
  | setPixel v => exact ⟨_, rfl, hgate _ fun ho => .drew [⟨_, _, v⟩] (by simp) ho⟩
  | getPixel => exact ⟨_, rfl, hgate _ fun ho => .pixelRead _ _ rfl ho⟩
  | fill v => exact ⟨_, rfl, hgate _ fun ho => .drew _ (by simp) ho⟩
  | readFb => exact ⟨_, rfl, hgate _ fun ho => .byteRead _ rfl ho⟩
  | rect v f => exact ⟨_, rfl, hgate _ fun ho => .drew _ (by simp) ho⟩
  | line v => exact ⟨_, rfl, hgate _ fun ho => .drew _ (by simp) ho⟩
  | hline v => exact ⟨_, rfl, hgate _ fun ho => .drew _ (by simp) ho⟩
  | vline v => exact ⟨_, rfl, hgate _ fun ho => .drew _ (by simp) ho⟩
  | char =>
    refine ⟨_, rfl, hgate _ fun ho => ?_⟩
    have h := CommandEffect.wrote (i := .char) [⟨lowByte s.op0, coord s.op1, coord s.op2⟩] (by simp) ho
    rwa [State.blitAll_singleton] at h
  | string =>
    refine ⟨_, rfl, hgate _ fun ho => ?_⟩
    unfold State.drawString
    split
    · exact .ended .illegal (by rcases ho with h | h <;> rw [h] <;> decide) (.inr (.inr rfl))
    · exact .wrote _ (by simp) ho

/-- If a command answers `t`, then `t` is one of the effects above. -/
theorem exec_cases {i : Instr} {s t : State} (h : exec i s = .next t) : CommandEffect i s t := by
  obtain ⟨t', h', he⟩ := exec_effect i s
  rw [h] at h'
  cases h'
  exact he

/-- No command changes the environment, the operand registers, TEXT, the latch, the font or LOG. -/
theorem exec_frame {i : Instr} {s t : State} (h : exec i s = .next t) : s.commandFrame t := by
  unfold State.commandFrame
  cases exec_cases h with
  | discarded => rfl
  | ended => rfl
  | initialised => rfl
  | overflowed => rfl
  | pixelRead x y =>
    unfold State.resultFromPixel
    split <;> rfl
  | byteRead k =>
    unfold State.resultFromByte
    split <;> rfl
  | drew ds =>
    rw [State.draw_frame]
    rfl
  | wrote cells =>
    rw [State.blitAll_frame]
    rfl
  | emitted => rfl

/-! ### The host -/

/-- A host access changes only A0 to A3, TEXT, BUSY, PHASE, the latch, the host's program and what its reads returned. -/
theorem State.access_frame (s : State) (a : HostAccess) :
    s.access a = { s with
      busy := (s.access a).busy, regs := (s.access a).regs, text := (s.access a).text, latch := (s.access a).latch,
      phase := (s.access a).phase, host := (s.access a).host, reads := (s.access a).reads } := by
  cases a with
  | wr16 off val =>
    simp only [State.access]
    split
    · rfl
    · unfold State.write16
      split <;> try rfl
      split <;> rfl
  | wr8 off val =>
    simp only [State.access]
    split
    · rfl
    · unfold State.write8
      split <;> rfl
  | rd16 off => rfl
  | rd8 off => rfl
  | waitIdle =>
    simp only [State.access]
    split <;> rfl

/-- While BUSY a host access only returns a read. -/
theorem State.access_busy {s : State} (h : s.busy = true) (a : HostAccess) :
    s.access a = { s with host := (s.access a).host, reads := (s.access a).reads } := by
  cases a with
  | wr16 off val => simp [State.access, h]
  | wr8 off val => simp [State.access, h]
  | rd16 off => rfl
  | rd8 off => rfl
  | waitIdle =>
    simp only [State.access]
    split <;> rfl

/-- With BUSY = 0 a host access either accepts a command or leaves BUSY, PHASE and the latch alone. -/
theorem State.access_idle {s : State} (h : s.busy = false) (a : HostAccess) :
    (s.opState ≠ .failed ∧ ∃ w, s.access a = s.accept w) ∨
    s.access a = { s with
      regs := (s.access a).regs, text := (s.access a).text, host := (s.access a).host, reads := (s.access a).reads } := by
  cases a with
  | wr16 off val =>
    have e : s.access (.wr16 off val) = s.write16 off val := by simp [State.access, h]
    rw [e]
    by_cases hc : s.opState ≠ .failed ∧ WindowReg.ofOffset off = some .cmd
    · exact .inl ⟨hc.1, val, by simp [State.write16, hc.1, hc.2]⟩
    · refine .inr ?_
      unfold State.write16
      split <;> first | rfl | skip
      · next hcmd =>
        rw [if_pos (by simpa [hcmd] using hc)]
  | wr8 off val =>
    have e : s.access (.wr8 off val) = s.write8 off val := by simp [State.access, h]
    refine .inr ?_
    rw [e]
    unfold State.write8
    split <;> rfl
  | rd16 off => exact .inr rfl
  | rd8 off => exact .inr rfl
  | waitIdle =>
    refine .inr ?_
    simp only [State.access]
    split <;> rfl

/-- The host's turn, if it answers a next state, makes its next access or has none. -/
theorem State.hostTurn_cases {s t : State} (h : s.hostTurn = .next t) :
    (s.host = [] ∧ t = s) ∨
    ∃ a rest, s.host = a :: rest ∧ a.inWindow = true ∧ admitted a = true ∧ t = ({ s with host := rest } : State).access a := by
  unfold State.hostTurn at h
  split at h
  · next hs => exact .inl ⟨hs, by cases h; rfl⟩
  · next a rest hs =>
    split at h
    · cases h
    · next hw =>
      split at h
      · cases h
      · next ha =>
        cases h
        exact .inr ⟨a, rest, hs, by simpa using hw, by simpa using ha, rfl⟩

/-! ### One step -/

/-- What one step can do, by the agent that moves. -/
theorem step_cases {s t : State} (h : step s = .next t) :
    (s.schedule = [] ∧ t = s) ∨
    (∃ r, s.schedule = .host :: r ∧ ({ s with schedule := r } : State).hostTurn = .next t) ∨
    (∃ r, s.schedule = .engine :: r ∧ s.phase = .accepted ∧
      ((∃ i, decode s.latch.cmd = .ok i ∧ exec i { s with schedule := r } = .next t) ∨
       (∃ e, decode s.latch.cmd = .error e ∧ t = (({ s with schedule := r } : State).raise .illegal).finish))) ∨
    (∃ r, s.schedule = .engine :: r ∧ s.phase ≠ .accepted ∧ t = { s with schedule := r }) ∨
    (∃ r, s.schedule = .transport :: r ∧ t = ({ s with schedule := r } : State).transportTurn) ∨
    (∃ r, s.schedule = .platform :: r ∧ t = ({ s with schedule := r } : State).platformReset) := by
  unfold step at h
  split at h
  · next hs => exact .inl ⟨hs, by cases h; rfl⟩
  · next r hs => exact .inr (.inl ⟨r, hs, h⟩)
  · next r hs =>
    unfold State.engineTurn at h
    split at h
    · next hp =>
      unfold State.perform at h
      split at h
      · next i hi => exact .inr (.inr (.inl ⟨r, hs, hp, .inl ⟨i, hi, h⟩⟩))
      · next e he => exact .inr (.inr (.inl ⟨r, hs, hp, .inr ⟨e, he, by cases h; rfl⟩⟩))
    · next hp => exact .inr (.inr (.inr (.inl ⟨r, hs, by simp_all, by cases h; rfl⟩)))
    · next hp => exact .inr (.inr (.inr (.inl ⟨r, hs, by simp_all, by cases h; rfl⟩)))
  · next r hs => exact .inr (.inr (.inr (.inr (.inl ⟨r, hs, by cases h; rfl⟩))))
  · next r hs => exact .inr (.inr (.inr (.inr (.inr ⟨r, hs, by cases h; rfl⟩))))

end Sys2Proof.Machine
end

