-- ==== Sys2Proof/Laws/PerInstr.lean ====
section
/-! SUPPORT. Laws of the command set, one lemma per command. -/

namespace Sys2Proof.Laws

/-- The word of a command has RSV = 0, and V and F only where its opcode uses them (`30_encoding.md` R100, R101). -/
def ReservedBitsZero.Statement (i : Instr) : Prop :=
  rsvField (encode i) = 0 ∧
  ∃ o, Opcode.ofCode (opcField (encode i)) = some o ∧
    (vField (encode i) = true → o.usesV = true) ∧ (fField (encode i) = true → o.usesF = true)

theorem ReservedBitsZero.init (ext : Bool) : ReservedBitsZero.Statement (.init ext) := by
  refine ⟨?_, .init, ?_⟩ <;> cases ext <;> decide

theorem ReservedBitsZero.config : ReservedBitsZero.Statement .config := ⟨by decide, .config, by decide⟩

theorem ReservedBitsZero.sendCmd : ReservedBitsZero.Statement .sendCmd := ⟨by decide, .sendCmd, by decide⟩

theorem ReservedBitsZero.flush : ReservedBitsZero.Statement .flush := ⟨by decide, .flush, by decide⟩

theorem ReservedBitsZero.setPixel (v : Bool) : ReservedBitsZero.Statement (.setPixel v) := by
  refine ⟨?_, .setPixel, ?_⟩ <;> cases v <;> decide

theorem ReservedBitsZero.getPixel : ReservedBitsZero.Statement .getPixel := ⟨by decide, .getPixel, by decide⟩

theorem ReservedBitsZero.fill (v : Bool) : ReservedBitsZero.Statement (.fill v) := by
  refine ⟨?_, .fill, ?_⟩ <;> cases v <;> decide

theorem ReservedBitsZero.readFb : ReservedBitsZero.Statement .readFb := ⟨by decide, .readFb, by decide⟩

theorem ReservedBitsZero.rect (v filled : Bool) : ReservedBitsZero.Statement (.rect v filled) := by
  refine ⟨?_, .rect, ?_⟩ <;> cases v <;> cases filled <;> decide

theorem ReservedBitsZero.line (v : Bool) : ReservedBitsZero.Statement (.line v) := by
  refine ⟨?_, .line, ?_⟩ <;> cases v <;> decide

theorem ReservedBitsZero.hline (v : Bool) : ReservedBitsZero.Statement (.hline v) := by
  refine ⟨?_, .hline, ?_⟩ <;> cases v <;> decide

theorem ReservedBitsZero.vline (v : Bool) : ReservedBitsZero.Statement (.vline v) := by
  refine ⟨?_, .vline, ?_⟩ <;> cases v <;> decide

theorem ReservedBitsZero.char : ReservedBitsZero.Statement .char := ⟨by decide, .char, by decide⟩

theorem ReservedBitsZero.string : ReservedBitsZero.Statement .string := ⟨by decide, .string, by decide⟩

end Sys2Proof.Laws
end

