-- ==== Sys2Proof/Tests/Slice0.lean ====
section
/-! SUPPORT. Tests: words written out from the encoding tables, ill-formed terms, one small step per command with values of `95_test_vectors.md`, and for every statement with hypotheses a witness that meets them. -/

namespace Sys2Proof.Tests

open Sys2Proof.Machine

/-! ### Words (`30_encoding.md` R100, R103, R107: RSV[15:10] F[9] V[8] OPC[7:0], written bit by bit) -/

theorem test_decode_init : decode 0b0000000000000001 = .ok (.init false) := by decide
theorem test_decode_init_ext : decode 0b0000001000000001 = .ok (.init true) := by decide
theorem test_decode_config : decode 0b0000000000000010 = .ok .config := by decide
theorem test_decode_sendCmd : decode 0b0000000000000011 = .ok .sendCmd := by decide
theorem test_decode_flush : decode 0b0000000000000100 = .ok .flush := by decide
theorem test_decode_setPixel : decode 0b0000000100010000 = .ok (.setPixel true) := by decide
theorem test_decode_getPixel : decode 0b0000000000010001 = .ok .getPixel := by decide
theorem test_decode_fill : decode 0b0000000000010010 = .ok (.fill false) := by decide
theorem test_decode_readFb : decode 0b0000000000010011 = .ok .readFb := by decide
theorem test_decode_rect : decode 0b0000001000100000 = .ok (.rect false true) := by decide
theorem test_decode_line : decode 0b0000000100100001 = .ok (.line true) := by decide
theorem test_decode_hline : decode 0b0000000000100010 = .ok (.hline false) := by decide
theorem test_decode_vline : decode 0b0000000100100011 = .ok (.vline true) := by decide
theorem test_decode_char : decode 0b0000000000110000 = .ok .char := by decide
theorem test_decode_string : decode 0b0000000000110001 = .ok .string := by decide

/-- DEC1, DEC3, DEC4, DEC5. -/
theorem test_decode_illegal :
    decode 0x0000 = .error .reservedOpcode ∧ decode 0x0401 = .error .reservedBits ∧
    decode 0x0101 = .error .unusedV ∧ decode 0x0211 = .error .unusedF := by decide

theorem test_decodeTableWord :
    decodeTableWord 16 0x0320 = some (.rect true true) ∧ decodeTableWord 16 0x0032 = none := by decide

/-! ### Ill-formed terms are refused -/

theorem test_wf_instr : (Instr.rect true true).wellFormed = true := by decide
theorem test_ill_wr16 : (HostAccess.wr16 0x200 0).inWindow = false := by decide
theorem test_ill_wr8 : (HostAccess.wr8 0x200 0).inWindow = false := by decide
theorem test_ill_rd16 : (HostAccess.rd16 0x1FF).inWindow = true ∧ (HostAccess.rd16 0x200).inWindow = false := by decide
theorem test_ill_rd8 : (HostAccess.rd8 0x200).inWindow = false := by decide
theorem test_ill_operand :
    operandFits (-32769) = false ∧ operandFits 65536 = false ∧ operandFits (-32768) = true ∧ operandFits 65535 = true := by
  decide
theorem test_ill_init :
    (Mnemonic.init 65536 8 0 false).wellFormed = false ∧ (Mnemonic.init 8 65536 0 false).wellFormed = false ∧
    (Mnemonic.init 8 8 65536 false).wellFormed = false := by decide
theorem test_ill_sendCmd : (Mnemonic.sendCmd 65536).wellFormed = false := by decide
theorem test_ill_setPix :
    (Mnemonic.setPix 65536 0 true).wellFormed = false ∧ (Mnemonic.setPix 0 65536 true).wellFormed = false := by decide
theorem test_ill_getPix :
    (Mnemonic.getPix 65536 0).wellFormed = false ∧ (Mnemonic.getPix 0 65536).wellFormed = false := by decide
theorem test_ill_readFb : (Mnemonic.readFb 65536).wellFormed = false := by decide
theorem test_ill_rect :
    (Mnemonic.rect 65536 0 0 0 true true).wellFormed = false ∧ (Mnemonic.rect 0 65536 0 0 true true).wellFormed = false ∧
    (Mnemonic.rect 0 0 65536 0 true true).wellFormed = false ∧ (Mnemonic.rect 0 0 0 65536 true true).wellFormed = false := by
  decide
theorem test_ill_line :
    (Mnemonic.line 65536 0 0 0 true).wellFormed = false ∧ (Mnemonic.line 0 65536 0 0 true).wellFormed = false ∧
    (Mnemonic.line 0 0 65536 0 true).wellFormed = false ∧ (Mnemonic.line 0 0 0 65536 true).wellFormed = false := by decide
theorem test_ill_hline :
    (Mnemonic.hline 65536 0 0 true).wellFormed = false ∧ (Mnemonic.hline 0 65536 0 true).wellFormed = false ∧
    (Mnemonic.hline 0 0 65536 true).wellFormed = false := by decide
theorem test_ill_vline :
    (Mnemonic.vline 65536 0 0 true).wellFormed = false ∧ (Mnemonic.vline 0 65536 0 true).wellFormed = false ∧
    (Mnemonic.vline 0 0 65536 true).wellFormed = false := by decide
theorem test_ill_char :
    (Mnemonic.char 65536 0 0).wellFormed = false ∧ (Mnemonic.char 0 65536 0).wellFormed = false ∧
    (Mnemonic.char 0 0 65536).wellFormed = false := by decide
theorem test_ill_string :
    (Mnemonic.string (List.replicate 129 65) 0 0).wellFormed = false ∧ (Mnemonic.string [65] 65536 0).wellFormed = false ∧
    (Mnemonic.string [65] 0 65536).wellFormed = false := by decide +kernel
theorem test_ill_access :
    admitted (.wr16 0x001 0) = false ∧ admitted (.wr8 0x004 0) = false ∧ admitted (.rd16 0x100) = false ∧
    admitted (.rd8 0x017) = false := by decide

/-! ### Small states -/

/-- The test font of `95_test_vectors.md` section 0. -/
def font : FontRom where
  bytes := List.replicate 8 0x55 ++ [0x7E, 0x11, 0x11, 0x11, 0x7E, 0, 0, 0] ++ [0x7F, 0x49, 0x49, 0x49, 0x36, 0, 0, 0] ++
    [0x3E, 0x41, 0x41, 0x41, 0x22, 0, 0, 0] ++ List.replicate 184 0 ++ [0x3E, 0x51, 0x49, 0x45, 0x3E, 0, 0, 0] ++
    List.replicate 72 0 ++ [0x20, 0x54, 0x54, 0x54, 0x78, 0, 0, 0] ++ List.replicate 200 0
  gUpper := 1
  gDigit := 27
  gLower := 37

theorem test_font_legal : font.legal := by
  have h : font.bytes.length = 504 := by
    simp only [font, List.length_append, List.length_replicate, List.length_cons, List.length_nil]
  unfold FontRom.legal
  rw [h]
  decide

/-- A cleared surface of `w` by `h` at bus address 0x3C, UNCONFIGURED, with a command accepted and the operands `a b c d` latched. -/
def surface (w h : Nat) (a b c d : Word) : State :=
  { State.reset with
    opState := .unconfigured
    busy := true
    phase := .accepted
    regs := ⟨a, b, c, d⟩
    geom := initGeometry w h 0x3C false
    latch := ⟨0, ⟨a, b, c, d⟩, blankText⟩
    fb := [(0, 0x40)]
    rom := font }

/-- A view of the state a command or a step answers. -/
def view {α : Type} (o : Host.Outcome State Fault Refusal) (f : State → α) : Option α :=
  match o with
  | .next s => some (f s)
  | .fault _ => none
  | .refused _ => none

/-! ### One command each (vectors of `95_test_vectors.md`) -/

/-- DEC-A5: INIT 1,8,0x3C. -/
theorem test_init_smallest :
    view (exec (.init false) { surface 16 16 1 8 0x3C 0 with opState := .reset })
      (fun s => (s.statusWord, s.geom.bufsize, s.fb)) = some (0x0001, 2, [(0, 0x40)]) := by decide

/-- DEC-A4: INIT 256,40,0x3C. -/
theorem test_init_overflow :
    view (exec (.init false) { surface 16 16 256 40 0x3C 0 with opState := .reset })
      (fun s => s.statusWord) = some 0x0203 := by decide

/-- SEQ3, the first transaction. -/
theorem test_config_first :
    view (exec .config (surface 16 16 0 0 0 0)) (fun s => (s.phase, s.pending)) =
      some (.running .config 0, some ⟨0x3C, [0x80, 0xAE]⟩) := by decide

/-- SEQ4, byte 6: 0x1F for H = 32. -/
theorem test_config_height : (configSeq 32)[6]? = some 0x1F := by decide

/-- SEQ6: A0[15:8] is ignored. -/
theorem test_sendCmd : view (exec .sendCmd (surface 16 16 0x12A7 0 0 0)) (fun s => s.pending) =
    some (some ⟨0x3C, [0x80, 0xA7]⟩) := by decide

/-- SEQ8: W_UNCONF. -/
theorem test_flush_unconf : view (exec .flush (surface 16 16 0 0 0 0)) (fun s => (s.sticky.wUnconf, s.pending)) =
    some (true, some ⟨0x3C, [0x80, 0x21]⟩) := by decide

/-- SEQ9: the window of a 16 by 16 surface. -/
theorem test_flush_window : windowSeq 16 2 = [0x21, 0x00, 0x0F, 0x22, 0x00, 0x01] := by decide

/-- SEQ9: SETPIX 3,9,1. -/
theorem test_setPixel : view (exec (.setPixel true) (surface 16 16 3 9 0 0)) (fun s => s.fb) =
    some [(0, 0x40), (8, 0x02)] := by decide

/-- PIX9: SETPIX -1,0,1. -/
theorem test_setPixel_oob : view (exec (.setPixel true) (surface 128 64 0xFFFF 0 0 0))
    (fun s => (s.statusWord, s.fb)) = some (0x0101, [(0, 0x40)]) := by decide

/-- PIX14: GETPIX 5,13 and 5,12 with FB[42] = 0x20. -/
theorem test_getPixel : view (exec .getPixel { surface 128 64 5 13 0 0 with fb := [(0, 0x40), (42, 0x20)] })
    (fun s => s.result) = some 1 := by decide

/-- PIX15: GETPIX 200,0. -/
theorem test_getPixel_oob : view (exec .getPixel { surface 128 64 200 0 0 0 with result := 1 })
    (fun s => (s.statusWord, s.result)) = some (0x0101, 0) := by decide

/-- PIX20: FILL 1 on an 8 by 8 surface. -/
theorem test_fill : view (exec (.fill true) (surface 8 8 0 0 0 0)) (fun s => (s.statusWord, s.fb)) =
    some (0x0001, [(0, 0x40), (1, 0xFF), (2, 0xFF), (3, 0xFF), (4, 0xFF), (5, 0xFF), (6, 0xFF), (7, 0xFF), (8, 0xFF)]) := by
  decide +kernel

/-- PIX19: READFB 42. -/
theorem test_readFb : view (exec .readFb { surface 128 64 42 0 0 0 with fb := [(0, 0x40), (42, 0x20)] })
    (fun s => s.result) = some 0x0020 := by decide

/-- PIX18: READFB 1025. -/
theorem test_readFb_oob : view (exec .readFb (surface 128 64 1025 0 0 0))
    (fun s => (s.statusWord, s.result)) = some (0x0101, 0) := by decide

/-- P2: RECT 2,3,4,4,1,1 on a 16 by 16 surface. -/
theorem test_rect_filled : view (exec (.rect true true) (surface 16 16 2 3 4 4)) (fun s => s.fb) =
    some [(0, 0x40), (7, 0x3C), (9, 0x3C), (11, 0x3C), (13, 0x3C)] := by decide +kernel

/-- SHP9: RECT -2,-2,5,5,1,0. -/
theorem test_rect_oob : view (exec (.rect true false) (surface 128 64 0xFFFE 0xFFFE 5 5))
    (fun s => (s.statusWord, s.fb)) = some (0x0101, [(0, 0x40), (1, 0x04), (9, 0x04), (17, 0x07)]) := by decide +kernel

/-- SHP19: LINE 0,0,8,3. -/
theorem test_line_shallow :
    linePixels 0 0 8 3 = [(0, 0), (1, 0), (2, 1), (3, 1), (4, 1), (5, 2), (6, 2), (7, 3), (8, 3)] := by decide

/-- SHP15: LINE 0,0,2,1,1. -/
theorem test_line : view (exec (.line true) (surface 128 64 0 0 2 1)) (fun s => s.fb) =
    some [(0, 0x40), (1, 0x01), (9, 0x01), (17, 0x02)] := by decide

/-- SHP23: HLINE 3,6,9,1. -/
theorem test_hline : view (exec (.hline true) (surface 128 64 3 6 9 0)) (fun s => s.fb) =
    some [(0, 0x40), (26, 0x02), (34, 0x02), (42, 0x02), (50, 0x02)] := by decide

/-- SHP24: HLINE 6,3,9,1. -/
theorem test_hline_empty : view (exec (.hline true) (surface 128 64 6 3 9 0)) (fun s => (s.statusWord, s.fb)) =
    some (0x0001, [(0, 0x40)]) := by decide

/-- SHP26: VLINE 4,11,0,1. -/
theorem test_vline : view (exec (.vline true) (surface 128 64 4 11 0 0)) (fun s => s.fb) =
    some [(0, 0x40), (1, 0xF0), (2, 0x0F)] := by decide

/-- GLY2: CHAR 'A',0,4. -/
theorem test_char_unaligned : view (exec .char (surface 128 64 0x41 0 4 0)) (fun s => (s.statusWord, s.fb)) =
    some (0x0001, [(0, 0x40), (1, 0xE0), (2, 0x07), (9, 0x10), (10, 0x01), (17, 0x10), (18, 0x01), (25, 0x10), (26, 0x01),
      (33, 0xE0), (34, 0x07)]) := by decide +kernel

/-- GLY6: CHAR ' ',0,0, on an 8 by 8 surface. -/
theorem test_char_unmapped : view (exec .char (surface 8 8 0x20 0 0 0)) (fun s => (s.statusWord, s.fb)) =
    some (0x2001, [(0, 0x40), (1, 0x55), (2, 0x55), (3, 0x55), (4, 0x55), (5, 0x55), (6, 0x55), (7, 0x55), (8, 0x55)]) := by
  decide +kernel

/-- GLY16: the origins of 5 characters at 0,0 with W = 20, H = 24. -/
theorem test_string_layout : (stringLayout 20 24 [65, 66, 67, 68, 69] 0 0).map (fun g => (g.x, g.y)) =
    [(0, 0), (8, 0), (0, 8), (8, 8), (0, 16)] := by decide

/-- GLY13: STRING n = 129. -/
theorem test_string_tooLong : view (exec .string (surface 8 8 129 0 0 0)) (fun s => (s.statusWord, s.fb)) =
    some (0x0801, [(0, 0x40)]) := by decide

/-- P1: the first lines of the encoding. -/
theorem test_mnemonic_init : expandMnemonic (.init 128 64 0x3C false) =
    [.wr16 0x004 0x0080, .wr16 0x006 0x0040, .wr16 0x008 0x003C, .wr16 0x000 0x0001] := by decide

/-- The host's turn: SETPIX in RESET, from the write of CMD to F_NOINIT (DEC2). -/
theorem test_noinit_after_reset :
    view (step { State.reset with schedule := [.host, .engine], host := [.wr16 0x000 0x0110] })
      (fun s => (s.busy, view (step s) State.statusWord)) = some (true, some 0x1000) := by decide

/-- The first instruction after reset. -/
theorem test_withFetchWord : view (step (State.reset.withFetchWord 16 0x0110)) State.statusWord = some 0x1000 := by decide

/-! ### States that meet the hypotheses of the statements -/

/-- A cleared surface on which nothing runs. -/
def resting (w h : Nat) (a b c d : Word) : State := { surface w h a b c d with busy := false, phase := .idle }

/-- A surface of 16 by 16 with a bus operation at its transaction `k`. -/
def sending (op : BusOp) (k : Nat) : State :=
  { surface 16 16 0 0 0 0 with phase := .running op k, pending := (op.txns (surface 16 16 0 0 0 0))[k]? }

/-- A state in FAILED. -/
def stuck : State :=
  { State.reset with opState := .failed, sticky := { Sticky.clear with fAlloc := true }, rom := font }

theorem test_geometry_legal : (initGeometry 16 16 0x3C false).legal ∧ (initGeometry 1 8 0 false).legal ∧
    (initGeometry 256 32 0x7F true).legal ∧ (initGeometry 4 256 0x3C false).legal := by decide

theorem test_store_wf : Memory.wf [(0, 0x40)] ∧ ∀ c ∈ ([(0, 0x40)] : Memory), c.1 < Config.fbCapacity := by decide

theorem test_surface_ready (a b c d : Word) : (surface 16 16 a b c d).ready :=
  ⟨.inl rfl, test_geometry_legal.1, test_store_wf.1⟩

theorem test_inv_surface (a b c d : Word) : Inv (surface 16 16 a b c d) where
  fbCanonical := test_store_wf.1
  fbInStore := test_store_wf.2
  fontLegal := test_font_legal
  allocFailed := ⟨fun h => (nomatch (show false = true from h)), fun h => (nomatch (show OpState.unconfigured = .failed from h))⟩
  resetGeometry h := nomatch (show OpState.unconfigured = .reset from h)
  geometryLegal _ := test_geometry_legal.1
  dataMarker _ := rfl
  busyPhase := ⟨fun _ h => (nomatch (show Phase.accepted = .idle from h)), fun _ => rfl⟩
  latched _ := ⟨rfl, rfl⟩
  acceptedState _ h := nomatch (show OpState.unconfigured = .failed from h)
  pendingIsNext op k h := nomatch (show Phase.accepted = .running op k from h)
  idlePending _ := rfl
  logFramed _ h := absurd h List.not_mem_nil

theorem test_inv_resting (r : List Agent) (a b c d : Word) : Inv { resting 16 16 a b c d with schedule := r } where
  fbCanonical := test_store_wf.1
  fbInStore := test_store_wf.2
  fontLegal := test_font_legal
  allocFailed := ⟨fun h => (nomatch (show false = true from h)), fun h => (nomatch (show OpState.unconfigured = .failed from h))⟩
  resetGeometry h := nomatch (show OpState.unconfigured = .reset from h)
  geometryLegal _ := test_geometry_legal.1
  dataMarker _ := rfl
  busyPhase := ⟨fun h => (nomatch (show false = true from h)), fun h => absurd (show Phase.idle = .idle from rfl) h⟩
  latched h := nomatch (show false = true from h)
  acceptedState h := nomatch (show Phase.idle = .accepted from h)
  pendingIsNext op k h := nomatch (show Phase.idle = .running op k from h)
  idlePending _ := rfl
  logFramed _ h := absurd h List.not_mem_nil

theorem test_inv_sending (op : BusOp) (k : Nat) (r : List Agent) (hk : k < (op.txns (surface 16 16 0 0 0 0)).length) :
    Inv { sending op k with schedule := r } where
  fbCanonical := test_store_wf.1
  fbInStore := test_store_wf.2
  fontLegal := test_font_legal
  allocFailed := ⟨fun h => (nomatch (show false = true from h)), fun h => (nomatch (show OpState.unconfigured = .failed from h))⟩
  resetGeometry h := nomatch (show OpState.unconfigured = .reset from h)
  geometryLegal _ := test_geometry_legal.1
  dataMarker _ := rfl
  busyPhase := ⟨fun _ h => (nomatch (show Phase.running op k = .idle from h)), fun _ => rfl⟩
  latched _ := ⟨rfl, rfl⟩
  acceptedState h := nomatch (show Phase.running op k = .accepted from h)
  pendingIsNext := by
    intro op' k' h
    cases show Phase.running op k = .running op' k' from h
    refine ⟨.inl rfl, (op.txns (surface 16 16 0 0 0 0))[k], List.getElem?_eq_getElem hk, ?_⟩
    exact (congrArg (·[k]?) (BusOp.txns_congr (s := surface 16 16 0 0 0 0) rfl rfl rfl op)).trans
      (List.getElem?_eq_getElem hk)
  idlePending h := absurd rfl (h op k)
  logFramed _ h := absurd h List.not_mem_nil

theorem test_inv_stuck (r : List Agent) (h : List HostAccess) : Inv { stuck with schedule := r, host := h } where
  fbCanonical := Memory.wf_nil
  fbInStore _ h := absurd h List.not_mem_nil
  fontLegal := test_font_legal
  allocFailed := ⟨fun _ => rfl, fun _ => rfl⟩
  resetGeometry h := nomatch (show OpState.failed = .reset from h)
  geometryLegal h := h.elim (fun h => nomatch (show OpState.failed = .unconfigured from h))
    (fun h => nomatch (show OpState.failed = .active from h))
  dataMarker h := h.elim (fun h => nomatch (show OpState.failed = .unconfigured from h))
    (fun h => nomatch (show OpState.failed = .active from h))
  busyPhase := ⟨fun h => (nomatch (show false = true from h)), fun h => absurd (show Phase.idle = .idle from rfl) h⟩
  latched _ := ⟨rfl, rfl⟩
  acceptedState h := nomatch (show Phase.idle = .accepted from h)
  pendingIsNext op k h := nomatch (show Phase.idle = .running op k from h)
  idlePending _ := rfl
  logFramed _ h := absurd h List.not_mem_nil

/-! ### Witnesses: encoding and the step -/

theorem test_witness_DecodeAndEncodeAgree : (Instr.rect true true).wellFormed = true ∧ decode 0x0320 = .ok (.rect true true) := by
  decide

/-- A reserved opcode. -/
abbrev reservedOpc (w : Word) : Prop :=
  w.toNat % 256 = 0 ∨ (0x05 ≤ w.toNat % 256 ∧ w.toNat % 256 ≤ 0x0F) ∨ (0x14 ≤ w.toNat % 256 ∧ w.toNat % 256 ≤ 0x1F) ∨
  (0x24 ≤ w.toNat % 256 ∧ w.toNat % 256 ≤ 0x2F) ∨ 0x32 ≤ w.toNat % 256

/-- An unused V bit set. -/
abbrev unusedVSet (w : Word) : Prop := w.toNat / 256 % 2 = 1 ∧ w.toNat % 256 ∉ [0x10, 0x12, 0x20, 0x21, 0x22, 0x23]

/-- An unused F bit set. -/
abbrev unusedFSet (w : Word) : Prop := w.toNat / 512 % 2 = 1 ∧ w.toNat % 256 ∉ [0x01, 0x20]

/-- Each way a word is illegal, at the ends of its range. -/
theorem test_witness_IllegalWordOnlySetsFIllegal :
    (let s : State := { State.reset with schedule := [.host, .engine], host := [.wr16 0x000 0x0005] }
     s.schedule = .host :: .engine :: [] ∧ s.host = .wr16 0x000 0x0005 :: [] ∧ s.busy = false ∧ s.opState ≠ .failed) ∧
    (reservedOpc 0x0000 ∧ reservedOpc 0x0005 ∧ reservedOpc 0x000F ∧ reservedOpc 0x0014 ∧ reservedOpc 0x001F ∧
      reservedOpc 0x0024 ∧ reservedOpc 0x002F ∧ reservedOpc 0x0032 ∧ reservedOpc 0x00FF) ∧
    ((0x0401 : Word).toNat / 1024 ≠ 0 ∧ (0xFC01 : Word).toNat / 1024 ≠ 0) ∧
    (unusedVSet 0x0101 ∧ unusedVSet 0x0131) ∧ (unusedFSet 0x0202 ∧ unusedFSet 0x0231) :=
  ⟨by decide, by and_intros <;> decide, by decide, by decide, by decide⟩

theorem test_witness_EngineTurnRunsTheDecodedCommand :
    (let s : State := { State.reset with schedule := [.engine], phase := .accepted, latch := ⟨0x0011, OperandRegs.zero, blankText⟩ }
     s.schedule = .engine :: [] ∧ s.phase = .accepted ∧ decode s.latch.cmd = .ok .getPixel) := by decide

theorem test_witness_CommandIsAcceptedAndReadsOnlyItsLatch :
    (let s : State := { State.reset with schedule := [.host], host := [.wr16 0x000 0x0011] }
     s.schedule = .host :: [] ∧ s.host = .wr16 0x000 0x0011 :: [] ∧ s.busy = false ∧ s.opState ≠ .failed) ∧
    (∃ t, exec .getPixel (surface 16 16 0 0 0 0) = .next t) := ⟨by decide, _, rfl⟩

theorem test_witness_WritesAreHeldWhileBusy :
    (∀ off ∈ [0x000, 0x002, 0x004, 0x006, 0x008, 0x00A, 0x016, 0x0FE, 0x180, 0x1FE],
      (let s : State := { surface 16 16 0 0 0 0 with schedule := [.host], host := [.wr16 off 7] }
       s.schedule = .host :: [] ∧ s.busy = true ∧ off < 0x200 ∧ off % 2 = 0 ∧
       (off < 0x100 ∨ 0x100 + Config.textCap ≤ off) ∧ s.host = .wr16 off 7 :: [])) ∧
    (∀ off ∈ [0x018, 0x0FF, 0x100, 0x17F, 0x180, 0x1FF],
      (let s : State := { surface 16 16 0 0 0 0 with schedule := [.host], host := [.wr8 off 7] }
       s.schedule = .host :: [] ∧ s.busy = true ∧ 0x018 ≤ off ∧ off < 0x200 ∧ s.host = .wr8 off 7 :: [])) ∧
    (let s : State := { stuck with schedule := [.host], host := [.wr16 0x000 7], busy := true }
     s.schedule = .host :: [] ∧ s.busy = true ∧ s.host = .wr16 0x000 7 :: [] ∧ s.opState = .failed) := by decide

/-- The write of A3 that BUSY held is made once BUSY = 0. -/
theorem test_heldWrite_isMade :
    (let s : State := { surface 16 16 1 2 3 4 with schedule := [.host], host := [.wr16 0x00A 7] }
     view (step s) (fun t => (t.regs.a3, t.host)) = some (4, [.wr16 0x00A 7]) ∧
     view (step { s with busy := false }) (fun t => (t.regs.a3, t.host)) = some (7, [])) := by decide

theorem test_witness_HostReadsReturnRegistersAndChangeNothing :
    (∀ off ∈ [0x000, 0x002, 0x004, 0x006, 0x008, 0x00A, 0x00C, 0x00E, 0x010, 0x012, 0x014, 0x016],
      (let s : State := { State.reset with schedule := [.host], host := [.rd16 off] }
       s.schedule = .host :: [] ∧ s.host = .rd16 off :: [])) ∧
    (∀ i ∈ [(⟨0, by decide⟩ : Fin Config.textCap), ⟨127, by decide⟩],
      (let s : State := { State.reset with schedule := [.host], host := [.rd8 (0x100 + i.val)] }
       s.schedule = .host :: [] ∧ s.host = .rd8 (0x100 + i.val) :: [])) ∧
    (∀ b ∈ [true, false],
      (let s : State := { State.reset with schedule := [.host], host := [.waitIdle], busy := b }
       s.schedule = .host :: [] ∧ s.host = .waitIdle :: [] ∧ s.busy = b)) := by decide

theorem test_witness_ReservedOffsetsReadZeroAndIgnoreWrites :
    (∀ off ∈ [0x018, 0x0FE, 0x180, 0x1FE], ∀ a ∈ [HostAccess.rd16 off, .wr16 off 7],
      (let s : State := { State.reset with schedule := [.host], host := [a] }
       s.schedule = .host :: [] ∧ off % 2 = 0 ∧
       ((0x018 ≤ off ∧ off < 0x100) ∨ (0x100 + Config.textCap ≤ off ∧ off < 0x200)) ∧ s.busy = false ∧ s.host = a :: [])) ∧
    (∀ off ∈ [0x018, 0x0FF, 0x180, 0x1FF], ∀ a ∈ [HostAccess.rd8 off, .wr8 off 7],
      (let s : State := { State.reset with schedule := [.host], host := [a] }
       s.schedule = .host :: [] ∧
       ((0x018 ≤ off ∧ off < 0x100) ∨ (0x100 + Config.textCap ≤ off ∧ off < 0x200)) ∧ s.busy = false ∧ s.host = a :: [])) ∧
    (∀ off ∈ [0x019, 0x0FF, 0x181, 0x1FF], ∀ a ∈ [HostAccess.rd16 off, .wr16 off 7],
      (let s : State := { State.reset with schedule := [.host], host := [a] }
       s.schedule = .host :: [] ∧ off % 2 = 1 ∧
       ((0x018 ≤ off ∧ off < 0x100) ∨ (0x100 + Config.textCap ≤ off ∧ off < 0x200)) ∧ s.host = a :: [])) ∧
    (∀ off ∈ [0x002, 0x00C, 0x00E, 0x010, 0x012, 0x014, 0x016],
      (let s : State := { State.reset with schedule := [.host], host := [.wr16 off 7] }
       s.schedule = .host :: [] ∧ s.busy = false ∧ s.host = .wr16 off 7 :: [])) := by decide

theorem test_witness_WrongWidthAccessesAreRefused :
    (∀ off ∈ [0x001, 0x017], off < 0x018 ∧ off % 2 = 1) ∧ (∀ off ∈ [0x000, 0x017], off < 0x018) ∧
    (∀ off ∈ [0x100, 0x17F], 0x100 ≤ off ∧ off < 0x100 + Config.textCap) ∧
    (∀ a ∈ [HostAccess.rd16 0x001, .wr16 0x017 0, .rd8 0x000, .wr8 0x017 0, .rd16 0x100, .wr16 0x17F 0],
      (let s : State := { State.reset with schedule := [.host], host := [a] }
       s.schedule = .host :: [] ∧ s.host = a :: [])) ∧
    (let s : State := { surface 16 16 0 0 0 0 with schedule := [.host], host := [.wr8 0x000 7] }
     s.schedule = .host :: [] ∧ s.host = .wr8 0x000 7 :: [] ∧ s.busy = true) := by decide

theorem test_witness_OperandsAndTextKeepWhatTheHostWrote :
    (∀ a ∈ [HostAccess.wr16 0x004 1, .wr16 0x006 2, .wr16 0x008 3, .wr16 0x00A 4, .wr8 0x100 5, .wr8 (0x100 + 127) 6],
      (let s : State := { State.reset with schedule := [.host], host := [a] }
       s.schedule = .host :: [] ∧ s.busy = false ∧ s.host = a :: [])) ∧
    (∃ s', step { surface 16 16 0 0 0 0 with schedule := [.engine] } = .next s') ∧
    (∃ s', step { sending .flush 0 with schedule := [.transport] } = .next s') := ⟨by decide, ⟨_, rfl⟩, ⟨_, rfl⟩⟩

/-! ### Witnesses: faults and reset -/

theorem test_witness_StickyBitsOnlyGrowAndAreNeverRead :
    (let s : State := { surface 16 16 0 0 0 0 with schedule := [.engine], sticky := { Sticky.clear with fOob := true } }
     (∃ s', step s = .next s') ∧ s.schedule.head? ≠ some .platform ∧ s.sticky.get .oob = true) ∧
    (∃ s', step { sending .flush 0 with schedule := [.transport] } = .next s') :=
  ⟨⟨⟨_, rfl⟩, by decide, rfl⟩, ⟨_, rfl⟩⟩

theorem test_witness_FailedIsStuckUntilReset :
    (∀ a ∈ [HostAccess.wr16 0x000 1, .wr16 0x004 7, .wr16 0x006 7, .wr16 0x008 7, .wr16 0x00A 7, .wr8 0x100 7,
        .wr8 (0x100 + 127) 7, .rd16 0x000, .rd16 0x016, .rd8 0x100, .rd8 (0x100 + 127)],
      (let s : State := { stuck with schedule := [.host], host := [a] }
       s.opState = .failed ∧ s.schedule = .host :: [] ∧ s.host = a :: [] ∧ s.schedule.head? ≠ some .platform)) ∧
    (∀ h, Inv { stuck with schedule := [.host], host := h }) ∧
    (∃ s', step { stuck with schedule := [.host], host := [.wr16 0x000 1] } = .next s') :=
  ⟨by decide, test_inv_stuck [.host], _, rfl⟩

theorem test_witness_CommandsBeforeInitOnlySetFNoinit : State.reset.opState = .reset ∧ ∀ e, Instr.fill true ≠ .init e :=
  ⟨rfl, by decide⟩

theorem test_witness_ResetRestoresEveryRegister :
    ({ sending .flush 3 with schedule := [.platform] } : State).schedule = .platform :: [] := rfl

theorem test_witness_NothingRunsWithoutACommand :
    State.reset.schedule = [] ∧
    ∀ a ∈ [Agent.engine, .transport], (let s : State := { resting 16 16 0 0 0 0 with schedule := [a] }
      Inv s ∧ s.phase = .idle ∧ s.schedule = a :: []) :=
  ⟨rfl, fun a _ => ⟨test_inv_resting [a] 0 0 0 0, rfl, rfl⟩⟩

/-! ### Witnesses: the sequencer -/

/-- A state in which INIT finds the operands `w h a`. -/
abbrev initState (w h a : Word) : State := surface 16 16 w h a 0

/-- INIT finds a legal geometry and bus address. -/
abbrev legalInit (s : State) : Prop :=
  1 ≤ s.latch.regs.a0.toNat ∧ s.latch.regs.a0.toNat ≤ 256 ∧ 8 ≤ s.latch.regs.a1.toNat ∧
  s.latch.regs.a1.toNat ≤ 256 ∧ s.latch.regs.a1.toNat % 8 = 0 ∧ s.latch.regs.a2.toNat ≤ 0x7F

/-- The bytes INIT needs. -/
abbrev initBytes (s : State) : Nat := s.latch.regs.a1.toNat / 8 * s.latch.regs.a0.toNat + 1

theorem test_init_state (w h a : Word) : (initState w h a).opState ≠ .failed ∧ (initState w h a).fb.wf :=
  ⟨fun h => (nomatch (show OpState.unconfigured = .failed from h)), test_store_wf.1⟩

/-- The smallest and the largest surfaces. -/
theorem test_witness_InitRecordsGeometryAndClearsBuffer :
    (legalInit (initState 1 8 0) ∧ initBytes (initState 1 8 0) ≤ Config.fbCapacity) ∧
    (legalInit (initState 256 32 0x7F) ∧ initBytes (initState 256 32 0x7F) ≤ Config.fbCapacity) ∧
    (legalInit (initState 4 256 0x3C) ∧ initBytes (initState 4 256 0x3C) ≤ Config.fbCapacity) ∧
    ((∀ b, Instr.config ≠ .init b) ∧ ∃ t, exec .config (surface 16 16 0 0 0 0) = .next t) ∧
    (∃ t, exec (.init true) (surface 16 16 16 8 0x3C 0) = .next t) ∧
    (∃ t, exec (.init true) (surface 16 16 0 8 0x3C 0) = .next t) ∧
    (∀ k ∈ [0, 6],
      (let s : State := { sending .flush k with schedule := [.transport] }
       s.schedule = .transport :: [] ∧ ∃ t, step s = .next t)) :=
  ⟨by decide, by decide, by decide, ⟨by decide, _, rfl⟩, ⟨_, rfl⟩, ⟨_, rfl⟩, fun _ _ => ⟨rfl, _, rfl⟩⟩

/-- DEC9 to DEC14. -/
theorem test_witness_InitOfIllegalGeometryOnlySetsFGeom :
    ¬ legalInit (initState 0 64 0x3C) ∧ ¬ legalInit (initState 257 64 0x3C) ∧ ¬ legalInit (initState 128 60 0x3C) ∧
    ¬ legalInit (initState 128 0 0x3C) ∧ ¬ legalInit (initState 8 264 0x3C) ∧ ¬ legalInit (initState 128 64 0x80) := by
  decide

/-- The least overflow for a height of 64 (1033 bytes), and the greatest. -/
theorem test_witness_InitBeyondTheStoreIsFatal :
    (legalInit (initState 129 64 0x3C) ∧ Config.fbCapacity < initBytes (initState 129 64 0x3C)) ∧
    (legalInit (initState 256 256 0x3C) ∧ Config.fbCapacity < initBytes (initState 256 256 0x3C)) := by decide

theorem test_witness_ConfigSendsItsSequenceAndBecomesActive :
    (surface 16 16 0 0 0 0).opState.operational ∧ State.reset.opState = .reset ∧ 24 < 25 := ⟨.inl rfl, rfl, by decide⟩

theorem test_witness_SendCmdSendsOneCommand :
    ({ surface 16 16 0x12A7 0 0 0 with opState := .active } : State).opState.operational ∧ State.reset.opState = .reset :=
  ⟨.inr rfl, rfl⟩

theorem test_witness_FlushSendsWindowThenFrame :
    (surface 16 16 0 0 0 0).opState.operational ∧
    ({ surface 16 16 0 0 0 0 with opState := .active } : State).opState.operational ∧ State.reset.opState = .reset :=
  ⟨.inl rfl, .inr rfl, rfl⟩

/-- The first and the last done report of FLUSH. -/
theorem test_witness_DoneReportAppendsAndHandsOverTheNext :
    ∀ k ∈ [0, 6], (let s : State := { sending .flush k with schedule := [.transport] }
      Inv s ∧ s.phase = .running .flush k ∧ s.schedule = .transport :: [] ∧
      ((BusOp.flush.txns s)[k + 1]? = none ↔ k = 6)) := by
  intro k hk
  have hl : ∀ s : State, (BusOp.flush.txns s).length = 7 := BusOp.txns_length .flush
  simp only [List.mem_cons, List.not_mem_nil, or_false] at hk
  refine ⟨test_inv_sending .flush k _ (by rw [hl]; omega), rfl, rfl, ?_⟩
  rw [List.getElem?_eq_none_iff, hl]
  omega

theorem test_witness_LogGrowsOnlyByDoneReports :
    (∃ s', step { sending .flush 6 with schedule := [.transport] } = .next s') ∧
    (∃ s', step { sending .flush 3 with schedule := [.platform], log := [⟨0x3C, [0x80, 0x21]⟩] } = .next s') ∧
    (∃ s', step { sending .flush 3 with schedule := [.host], host := [.rd16 0x002] } = .next s') ∧
    (∃ s', step { sending .flush 3 with schedule := [.engine] } = .next s') ∧
    (∃ s', step { sending .flush 3 with schedule := [] } = .next s') := ⟨⟨_, rfl⟩, ⟨_, rfl⟩, ⟨_, rfl⟩, ⟨_, rfl⟩, ⟨_, rfl⟩⟩

theorem test_witness_SilentTransportHangsTheEngine :
    (let s : State := { sending .flush 3 with schedule := [.host, .engine] }
     Inv s ∧ s.phase = .running .flush 3 ∧ (∀ a ∈ s.schedule, a = .host ∨ a = .engine) ∧
     ∃ s', Sys2Proof.core.run 2 s = .next s') :=
  ⟨test_inv_sending .flush 3 _ (by rw [BusOp.txns_length]; decide), rfl, by decide, _, rfl⟩

/-! ### Witnesses: pixels -/

theorem test_witness_SetPixelDrawsOnePixel :
    (surface 16 16 3 9 0 0).ready ∧ (surface 16 16 0xFFFF 16 0 0).ready := ⟨test_surface_ready .., test_surface_ready ..⟩

/-- The pixel the operands name is on the surface. -/
abbrev pixelInside (s : State) : Prop :=
  0 ≤ s.latch.regs.a0.toInt ∧ s.latch.regs.a0.toInt < s.geom.w.toNat ∧
  0 ≤ s.latch.regs.a1.toInt ∧ s.latch.regs.a1.toInt < s.geom.h.toNat

/-- Both clauses, at the corners and just outside. -/
theorem test_witness_GetPixelReadsOnePixel :
    (surface 16 16 0 0 0 0).opState.operational ∧
    pixelInside (surface 16 16 0 0 0 0) ∧ pixelInside (surface 16 16 15 15 0 0) ∧
    ¬ pixelInside (surface 16 16 0xFFFF 0 0 0) ∧ ¬ pixelInside (surface 16 16 16 0 0 0) ∧
    ¬ pixelInside (surface 16 16 0 0xFFFF 0 0) ∧ ¬ pixelInside (surface 16 16 0 16 0 0) := by decide

theorem test_witness_FillDrawsEveryPixel : (surface 16 16 0 0 0 0).ready := test_surface_ready ..

theorem test_witness_FillSetsEveryPixelByte :
    (surface 16 16 0 0 0 0).ready ∧ (let g := (surface 16 16 0 0 0 0).geom
      g.pages.toNat * g.w.toNat = 32) := ⟨test_surface_ready .., by decide⟩

theorem test_witness_ReadFbReadsOneByte :
    (surface 16 16 0 0 0 0).opState.operational ∧ (surface 16 16 0 0 0 0).geom.bufsize.toNat = 33 ∧
    (surface 16 16 0 0 0 0).latch.regs.a0.toNat < 33 ∧ (surface 16 16 32 0 0 0).latch.regs.a0.toNat < 33 ∧
    33 ≤ (surface 16 16 33 0 0 0).latch.regs.a0.toNat ∧ 33 ≤ (surface 16 16 65535 0 0 0).latch.regs.a0.toNat ∧
    Inv (surface 16 16 0 0 0 0) ∧ (surface 16 16 0 0 0 0).latch.regs.a0 = 0 :=
  ⟨by decide, by decide, by decide, by decide, by decide, by decide, test_inv_surface .., rfl⟩

theorem test_witness_PixelMapIsOneToOne :
    (let g := initGeometry 16 16 0x3C false
     g.legal ∧ g.inRange 0 0 ∧ g.inRange 15 15 ∧ g.pixelIndex 15 15 = g.pixelIndex 15 15 ∧
     ∀ i ∈ [1, 32], 1 ≤ i ∧ i ≤ g.pages.toNat * g.w.toNat) := by decide

theorem test_witness_PixelWritesObeyThePixelLaws :
    (let s := surface 16 16 15 0 0 0
     s.ready ∧ s.geom.inRange s.latch.regs.a0.toInt s.latch.regs.a1.toInt ∧
     pixelAt s.geom s.fb s.latch.regs.a0.toInt s.latch.regs.a1.toInt = false ∧
     (let p : OperandRegs := ⟨0, 0, 0, 0⟩
      let q : OperandRegs := ⟨0, 1, 0, 0⟩
      s.geom.inRange p.a0.toInt p.a1.toInt ∧ s.geom.inRange q.a0.toInt q.a1.toInt ∧ ¬ (p.a0 = q.a0 ∧ p.a1 = q.a1))) := by
  decide

theorem test_witness_FillRoundTripRestoresTheInitState :
    (let s := surface 16 16 1 8 0 0
     s.opState ≠ .failed ∧ s.fb.wf ∧ 1 ≤ s.latch.regs.a0.toNat ∧ s.latch.regs.a0.toNat ≤ 256 ∧
     8 ≤ s.latch.regs.a1.toNat ∧ s.latch.regs.a1.toNat ≤ 256 ∧ s.latch.regs.a1.toNat % 8 = 0 ∧
     s.latch.regs.a2.toNat ≤ 0x7F ∧ s.latch.regs.a1.toNat / 8 * s.latch.regs.a0.toNat + 1 ≤ Config.fbCapacity) := by decide

theorem test_witness_OrderOfPixelWritesIsNotObservable :
    (let ds : List Dot := [⟨0, 0, true⟩, ⟨20, 0, true⟩]
     let es : List Dot := [⟨20, 0, true⟩, ⟨0, 0, true⟩]
     (surface 16 16 0 0 0 0).ready ∧ (∀ d ∈ ds, d.v = true) ∧ (∀ e ∈ es, e.v = true) ∧
     ∀ x y, (∃ d ∈ ds, d.x = x ∧ d.y = y) ↔ (∃ e ∈ es, e.x = x ∧ e.y = y)) := by
  refine ⟨test_surface_ready .., by decide, by decide, fun x y => ?_⟩
  simp [or_comm]

/-! ### Witnesses: shapes -/

theorem test_witness_RectDrawsEdgesAndInterior :
    (surface 16 16 2 3 4 4).ready ∧ (surface 16 16 0 0 0 5).ready := ⟨test_surface_ready .., test_surface_ready ..⟩

theorem test_witness_RectPerimeterHasItsCount : 1 ≤ 1 ∧ 2 ≤ 2 ∧ 2 ≤ 3 := by decide

/-- An inner pixel and the last one. -/
theorem test_witness_LineDrawsTheVisitedPixels :
    (surface 16 16 0 0 3 8).ready ∧ (linePixels 0 0 2 1)[1]? = some (1, 0) ∧ (linePixels 0 0 2 1)[2]? = some (2, 1) :=
  ⟨test_surface_ready .., by decide, by decide⟩

theorem test_witness_LineWalkObeysTheLineLaws :
    (linePixels 0 0 2 1)[1]? = some (1, 0) ∧ (linePixels 0 0 2 1)[2]? = some (2, 1) ∧
    |(1 : Int) - 0| ≤ |(2 : Int) - 0| ∧ |(2 : Int) - 0| < |(3 : Int) - 0| := by decide

theorem test_witness_HlineDrawsItsRow : (surface 16 16 3 6 9 0).ready ∧ (surface 16 16 6 3 9 0).ready :=
  ⟨test_surface_ready .., test_surface_ready ..⟩

/-- The operands of a VLINE over page `p`. -/
abbrev pageRun (p : Nat) (s : State) : Prop :=
  p < s.geom.pages.toNat ∧ s.latch.regs.a0.toInt = 8 * p ∧ s.latch.regs.a1.toInt = 8 * p + 7 ∧
  0 ≤ s.latch.regs.a2.toInt ∧ s.latch.regs.a2.toInt < s.geom.w.toNat

theorem test_witness_VlineDrawsItsColumn : (surface 16 16 4 11 0 0).ready ∧ (surface 16 16 11 4 0 0).ready :=
  ⟨test_surface_ready .., test_surface_ready ..⟩

/-- The first and the last page. -/
theorem test_witness_VlineOverOnePageSetsOneByte :
    (surface 16 16 0 7 0 0).ready ∧ pageRun 0 (surface 16 16 0 7 0 0) ∧
    (surface 16 16 8 15 15 0).ready ∧ pageRun 1 (surface 16 16 8 15 15 0) :=
  ⟨test_surface_ready .., by decide, test_surface_ready .., by decide⟩

theorem test_witness_StraightLinesVisitTheirRuns :
    (3 : Int) ≤ 3 ∧ (-2 : Int) ≤ 5 ∧ ((1 : Int) = 1 ∨ (1 : Int) = -1) ∧ ((-1 : Int) = 1 ∨ (-1 : Int) = -1) := by decide

/-- Each of the six forms. -/
theorem test_witness_DrawingTwiceIsDrawingOnce :
    (surface 16 16 2 3 4 4).ready ∧
    ∀ i ∈ [Instr.rect true false, .line true, .hline true, .vline true, .setPixel true, .fill true],
      ∃ v f, i = .rect v f ∨ i = .line v ∨ i = .hline v ∨ i = .vline v ∨ i = .setPixel v ∨ i = .fill v := by
  refine ⟨test_surface_ready .., fun i hi => ⟨true, false, ?_⟩⟩
  simpa using hi

/-! ### Witnesses: glyphs -/

/-- An unmapped character. -/
abbrev unmapped (c : Byte) : Prop :=
  c.toNat < 0x30 ∨ (0x39 < c.toNat ∧ c.toNat < 0x41) ∨ (0x5A < c.toNat ∧ c.toNat < 0x61) ∨ 0x7A < c.toNat

/-- The ends of each class, and of the gaps between them. -/
theorem test_witness_GlyphNumbersFollowTheCharacterClasses :
    (0x41 ≤ (0x41 : Byte).toNat ∧ (0x5A : Byte).toNat ≤ 0x5A) ∧ (0x30 ≤ (0x30 : Byte).toNat ∧ (0x39 : Byte).toNat ≤ 0x39) ∧
    (0x61 ≤ (0x61 : Byte).toNat ∧ (0x7A : Byte).toNat ≤ 0x7A) ∧
    (unmapped 0x00 ∧ unmapped 0x2F ∧ unmapped 0x3A ∧ unmapped 0x40 ∧ unmapped 0x5B ∧ unmapped 0x60 ∧ unmapped 0x7B ∧
      unmapped 0xFF) := by decide

theorem test_witness_GlyphReadsStayInTheFont :
    font.legal ∧ 7 ≤ 7 ∧ mappedGlyph font 0x5A ≠ none ∧ mappedGlyph font 0x5A = mappedGlyph font 0x5A :=
  ⟨test_font_legal, by decide, by decide, rfl⟩

/-- A cell inside, and one that leaves the surface. -/
theorem test_witness_CharDrawsItsCell :
    (surface 16 16 0x41 0 4 0).ready ∧ (surface 16 16 0x20 12 0xFFFC 0).ready ∧
    (let s := surface 16 16 0x41 0 4 0
     s.geom.inRange (s.latch.regs.a1.toInt + (7 : Nat)) (s.latch.regs.a2.toInt + (7 : Nat))) :=
  ⟨test_surface_ready .., test_surface_ready .., by decide⟩

theorem test_witness_AlignedGlyphCopiesItsBytes :
    (let s := surface 16 16 0x41 8 8 0
     s.ready ∧ 7 ≤ 7 ∧ s.latch.regs.a2.toInt % 8 = 0 ∧ s.geom.inRange s.latch.regs.a1.toInt s.latch.regs.a2.toInt ∧
     s.geom.inRange (s.latch.regs.a1.toInt + 7) (s.latch.regs.a2.toInt + 7) ∧ ∃ t, exec .char s = .next t) :=
  ⟨test_surface_ready .., by decide, by decide, by decide, by decide, _, rfl⟩

theorem test_witness_StringDrawsItsLayout :
    (∀ n, (surface 16 16 n 0 0 0).ready) ∧
    (Config.textCap < (surface 16 16 129 0 0 0).latch.regs.a0.toNat ∧
      Config.textCap < (surface 16 16 65535 0 0 0).latch.regs.a0.toNat) ∧
    ((surface 16 16 0 0 0 0).latch.regs.a0.toNat ≤ Config.textCap ∧
      (surface 16 16 128 0 0 0).latch.regs.a0.toNat ≤ Config.textCap) :=
  ⟨fun n => test_surface_ready n 0 0 0, by decide, by decide⟩

/-- A wrap, and a stop before the end of the text. -/
theorem test_witness_StringLayoutAdvancesWrapsAndStops :
    (stringLayout 16 16 [65, 66, 67, 68, 69] 0 0)[1]? = some ⟨66, 8, 0⟩ ∧
    (stringLayout 16 16 [65, 66, 67, 68, 69] 0 0)[2]? = some ⟨67, 0, 8⟩ ∧
    (stringLayout 16 16 [65, 66, 67, 68, 69] 0 0).length < [65, 66, 67, 68, 69].length ∧
    (stringLayout 16 16 [65] (-4) 0).head? = some ⟨65, -4, 0⟩ ∧ List.takeWhile (fun c => c != 0) [(65 : Byte)] ≠ [] := by
  decide

/-! ### Witnesses: the whole machine -/

theorem test_witness_EveryStepKeepsTheInvariant :
    Inv { sending .config 24 with schedule := [.transport] } ∧
    ∃ s', step { sending .config 24 with schedule := [.transport] } = .next s' :=
  ⟨test_inv_sending .config 24 _ (by rw [BusOp.txns_length]; decide), _, rfl⟩

theorem test_witness_StateMovesOnlyAlongItsTransitions :
    Inv { sending .config 24 with schedule := [.transport] } ∧
    view (step { sending .config 24 with schedule := [.transport] }) State.opState = some .active ∧
    view (step { surface 16 16 8 8 0x3C 0 with
      schedule := [.engine], latch := ⟨1, ⟨8, 8, 0x3C, 0⟩, blankText⟩, opState := .active }) State.opState =
      some .unconfigured :=
  ⟨test_inv_sending .config 24 _ (by rw [BusOp.txns_length]; decide), by decide, by decide⟩

theorem test_witness_OnlyTheReadCommandsWriteResult :
    (let s : State := { surface 16 16 0 0 0 0 with schedule := [.engine], latch := ⟨0x0013, OperandRegs.zero, blankText⟩ }
     view (step s) State.result = some 0x0040 ∧ s.result = 0) := by decide

theorem test_witness_OnlyInitWritesTheDataPrefix :
    (surface 16 16 0 0 0 0).ready ∧ (∀ e, Instr.fill true ≠ .init e) ∧
    (∃ t, exec (.fill true) (surface 16 16 0 0 0 0) = .next t) ∧
    (∃ t, exec .flush (surface 16 16 0 0 0 0) = .next t) := ⟨test_surface_ready .., by decide, ⟨_, rfl⟩, ⟨_, rfl⟩⟩

theorem test_witness_MnemonicsExpandToWindowWrites : ([65, 66] : List Byte)[1]? = some 66 := rfl

theorem test_witness_FontNeverChanges :
    ∃ s', step { surface 16 16 0x41 0 0 0 with schedule := [.platform] } = .next s' := ⟨_, rfl⟩

end Sys2Proof.Tests
end

/-! ### The invariant is kept by every step -/

namespace Sys2Proof.Machine

theorem OpState.reset_not_operational : ¬ OpState.reset.operational := by decide

theorem OpState.failed_not_operational : ¬ OpState.failed.operational := by decide

theorem OpState.ne_failed_of_operational {o : OpState} (ho : o.operational) : o ≠ .failed := by
  rintro rfl
  exact failed_not_operational ho

theorem OpState.ne_reset_of_operational {o : OpState} (ho : o.operational) : o ≠ .reset := by
  rintro rfl
  exact reset_not_operational ho

/-- The invariant says nothing of the host's program, of what its reads returned and of the schedule. -/
theorem Inv.environment {s : State} (h : Inv s) (r : List Agent) (p : List HostAccess) (v : List Word) :
    Inv { s with schedule := r, host := p, reads := v } :=
  { h with }

/-- A state with the specified reset values, a canonical store and a legal font meets the invariant (`10_state.md` R38). -/
theorem Inv.of_reset {m : Memory} {rom : FontRom} (hm : m.wf) (hk : ∀ c ∈ m, c.1 < Config.fbCapacity)
    (hr : rom.legal) (l : Latch) (p : List HostAccess) (v : List Word) (r : List Agent) (n : Nat) :
    Inv { State.reset with
      fb := m, latch := l, rom := rom, host := p, reads := v, schedule := r, draws := n } where
  fbCanonical := hm
  fbInStore := hk
  fontLegal := hr
  allocFailed := iff_of_false nofun nofun
  resetGeometry := fun _ => rfl
  geometryLegal := fun ho => absurd ho OpState.reset_not_operational
  dataMarker := fun ho => absurd ho OpState.reset_not_operational
  busyPhase := iff_of_false nofun (not_not.2 rfl)
  latched := nofun
  acceptedState := nofun
  pendingIsNext := nofun
  idlePending := fun _ => rfl
  logFramed := nofun

/-- Reset by the platform needs only the font to be legal (`70_reset_and_hazards.md` R270). -/
theorem Inv.platformReset {s : State} (h : Inv s) : Inv s.platformReset :=
  have hm := Memory.unspecified_wf s.draws
  Inv.of_reset hm.1 hm.2 h.fontLegal _ _ _ _ _

/-! #### The host's turn -/

/-- Acceptance with BUSY = 0 outside FAILED (`10_state.md` R29, R33). -/
theorem Inv.accept {s : State} (h : Inv s) (hb : s.busy = false) (hf : s.opState ≠ .failed) (w : Word) :
    Inv (s.accept w) :=
  have hidle : s.phase = .idle := by simpa [hb] using h.busyPhase
  { h with
    busyPhase := by simp
    latched := fun _ => ⟨rfl, rfl⟩
    acceptedState := fun _ => hf
    pendingIsNext := nofun
    idlePending := fun _ => h.idlePending fun op k => by rw [hidle]; exact nofun }

/-- With BUSY = 0 the operand registers and TEXT are free: nothing is latched. -/
theorem Inv.operands {s : State} (h : Inv s) (hb : s.busy = false) (regs : OperandRegs)
    (text : Vector Byte Config.textCap) (p : List HostAccess) (v : List Word) :
    Inv { s with regs := regs, text := text, host := p, reads := v } :=
  { h with
    latched := fun hb' => absurd (hb.symm.trans hb') Bool.false_ne_true }

theorem Inv.access {s : State} (h : Inv s) (a : HostAccess) : Inv (s.access a) := by
  rcases hb : s.busy with _ | _
  · rcases State.access_idle hb a with ⟨hf, w, e⟩ | e
    · rw [e]
      exact h.accept hb hf w
    · rw [e]
      exact h.operands hb _ _ _ _
  · rw [State.access_busy hb a]
    exact h.environment _ _ _

theorem Inv.hostTurn {s t : State} (h : Inv s) (ht : s.hostTurn = .next t) : Inv t := by
  rcases State.hostTurn_cases ht with ⟨-, rfl⟩ | ⟨a, rest, -, -, -, rfl⟩
  · exact h
  · exact (h.environment _ rest _).access a

/-! #### The engine's turn -/

theorem Sticky.set_fAlloc (k : Sticky) {f : StatusFault} (hf : f ≠ .alloc) : (k.set f).fAlloc = k.fAlloc := by
  simpa [Sticky.get, hf] using k.get_set f .alloc

/-- Raising any fault but F_ALLOC (`60_exceptions.md` R241). -/
theorem Inv.raise {s : State} (h : Inv s) {f : StatusFault} (hf : f ≠ .alloc) : Inv (s.raise f) :=
  { h with
    allocFailed := by
      rw [State.raise_sticky, Sticky.set_fAlloc _ hf]
      exact h.allocFailed }

/-- The end of an operation that has nothing pending. -/
theorem Inv.finish {s : State} (h : Inv s) (hp : s.pending = none) : Inv s.finish :=
  { h with
    busyPhase := by simp
    latched := nofun
    acceptedState := nofun
    pendingIsNext := nofun
    idlePending := fun _ => hp }

/-- While a command is accepted nothing is pending yet. -/
theorem Inv.pending_of_accepted {s : State} (h : Inv s) (hp : s.phase = .accepted) : s.pending = none :=
  h.idlePending fun op k => by rw [hp]; exact nofun

theorem Inv.result {s : State} (h : Inv s) (v : Word) : Inv { s with result := v } :=
  { h with }

theorem Inv.resultFromPixel {s : State} (h : Inv s) (x y : Int) : Inv (s.resultFromPixel x y) := by
  unfold State.resultFromPixel
  split
  · exact h.result _
  · exact (h.raise (f := .oob) (by decide)).result _

theorem Inv.resultFromByte {s : State} (h : Inv s) (i : Nat) : Inv (s.resultFromByte i) := by
  unfold State.resultFromByte
  split
  · exact h.result _
  · exact (h.raise (f := .oob) (by decide)).result _

/-- Pixel writes of an accepted command in an operational state: byte 0 and the bytes beyond the store are no pixel's. -/
theorem Inv.draw {s : State} (h : Inv s) (hp : s.phase = .accepted) (ho : s.opState.operational) (ds : List Dot) :
    Inv (s.draw ds) := by
  have hg := h.geometryLegal ho
  have hwf := State.draw_wf h.fbCanonical ds
  have hin := State.draw_inStore hg h.fbInStore ds
  have h0 := State.draw_read_outside h.fbCanonical hg ds (.inl rfl)
  rw [State.draw_frame]
  exact { h with
    fbCanonical := hwf
    fbInStore := hin
    dataMarker := fun ho => h0.trans (h.dataMarker ho)
    pendingIsNext := fun _ _ hp' => nomatch hp.symm.trans hp' }

theorem Inv.blit {s : State} (h : Inv s) (hp : s.phase = .accepted) (ho : s.opState.operational) (c : Byte)
    (x y : Int) : Inv (s.blit c x y) := by
  unfold State.blit
  split
  · exact (h.raise (by decide)).draw hp ho _
  · exact h.draw hp ho _

theorem Inv.blitAll {s : State} (h : Inv s) (hp : s.phase = .accepted) (ho : s.opState.operational)
    (cells : List GlyphCell) : Inv (s.blitAll cells) := by
  induction cells generalizing s with
  | nil => exact h
  | cons g cells ih =>
    have hframe := State.blit_frame s g.c g.x g.y
    exact ih (h.blit hp ho g.c g.x g.y) ((congrArg State.phase hframe).trans hp)
      ((congrArg State.opState hframe).symm ▸ ho)

/-- INIT writes a legal geometry (`40_sequencer.md` R141 to R143). -/
theorem initGeometry_legal {w h a : Nat} (hok : geometryOK w h a) (hcap : bufferSize w h ≤ Config.fbCapacity)
    (ext : Bool) : (initGeometry w h a ext).legal := by
  obtain ⟨hw1, hw2, hh1, hh2, h8, -⟩ := hok
  have e16 : ∀ {n : Nat}, n ≤ 1025 → (BitVec.ofNat 16 n).toNat = n := fun hn => by
    rw [BitVec.toNat_ofNat, Nat.mod_eq_of_lt (by omega)]
  simp only [Geometry.legal, initGeometry]
  rw [e16 (show w ≤ 1025 by omega), e16 (show h ≤ 1025 by omega), e16 (show h / 8 ≤ 1025 by omega), e16 hcap]
  exact ⟨hw1, hw2, hh1, hh2, h8, rfl, rfl, hcap⟩

/-- A successful INIT in place of an accepted command (`40_sequencer.md` R143). -/
theorem Inv.initSurface {s : State} (h : Inv s) (hp : s.phase = .accepted) (hf : s.opState ≠ .failed) {w ht a : Nat}
    (hok : geometryOK w ht a) (hcap : bufferSize w ht ≤ Config.fbCapacity) (ext : Bool) :
    Inv (s.initSurface w ht a ext) :=
  have hz := Memory.zeroBelow_wf h.fbCanonical (bufferSize w ht)
  have hsurface : Inv { s with
      geom := initGeometry w ht a ext
      fb := (s.fb.zeroBelow (bufferSize w ht)).write 0 Config.dataMarker
      opState := .unconfigured } :=
    { h with
      fbCanonical := Memory.write_wf hz _ _
      fbInStore := fun c hc => by
        rcases Memory.mem_write hc with ⟨rfl, -⟩ | hc
        · exact Nat.succ_pos 1024
        · exact h.fbInStore c (Memory.mem_zeroBelow hc)
      allocFailed := iff_of_false (fun ha => hf (h.allocFailed.1 ha)) nofun
      resetGeometry := nofun
      geometryLegal := fun _ => initGeometry_legal hok hcap ext
      dataMarker := fun _ => by rw [Memory.read_write hz, if_pos rfl]
      acceptedState := nofun
      pendingIsNext := fun _ _ hp' => nomatch hp.symm.trans hp' }
  hsurface.finish (h.pending_of_accepted hp)

/-- An INIT that overflows the store in place of an accepted command (`40_sequencer.md` R142). -/
theorem Inv.initOverflow {s : State} (h : Inv s) (hp : s.phase = .accepted) : Inv s.initOverflow :=
  have hm := Memory.unspecified_wf s.draws
  have hend := h.finish (h.pending_of_accepted hp)
  { hend with
    fbCanonical := hm.1
    fbInStore := hm.2
    allocFailed := iff_of_true rfl rfl
    resetGeometry := nofun
    geometryLegal := fun ho => absurd ho OpState.failed_not_operational
    dataMarker := fun ho => absurd ho OpState.failed_not_operational
    acceptedState := nofun
    pendingIsNext := nofun }

/-- Handing over a transaction of a bus operation (`20_memory.md` R81). -/
theorem Inv.emit {s : State} (h : Inv s) (hb : s.busy = true) (ho : s.opState.operational) {op : BusOp} {t : Txn}
    {k : Nat} (ht : (op.txns s)[k]? = some t) : Inv { s with phase := .running op k, pending := some t } :=
  { h with
    busyPhase := iff_of_true hb nofun
    acceptedState := nofun
    pendingIsNext := fun op' k' hp => by
      cases hp
      exact ⟨ho, t, rfl, ht⟩
    idlePending := fun hn => absurd rfl (hn op k) }

/-- Whatever an accepted command does, it keeps the invariant. -/
theorem Inv.command {s t : State} {i : Instr} (h : Inv s) (hp : s.phase = .accepted) (ht : CommandEffect i s t) :
    Inv t := by
  have hnone := h.pending_of_accepted hp
  have hbusy : s.busy = true := h.busyPhase.2 (by rw [hp]; exact nofun)
  cases ht with
  | discarded hf => exact h.finish hnone
  | ended f hf hfault => exact (h.raise (by rcases hfault with rfl | rfl | rfl <;> decide)).finish hnone
  | initialised ext hi hf hok hcap => exact h.initSurface hp hf hok hcap ext
  | overflowed ext hi hf => exact h.initOverflow hp
  | pixelRead x y hi ho =>
    refine (h.resultFromPixel x y).finish ?_
    unfold State.resultFromPixel
    split <;> exact hnone
  | byteRead k hi ho =>
    refine (h.resultFromByte k).finish ?_
    unfold State.resultFromByte
    split <;> exact hnone
  | drew ds hi ho => exact (h.draw hp ho ds).finish ((congrArg State.pending (State.draw_frame s ds)).trans hnone)
  | wrote cells hi ho =>
    exact (h.blitAll hp ho cells).finish ((congrArg State.pending (State.blitAll_frame s cells)).trans hnone)
  | emitted op k u hi ho hk hu =>
    rcases hk with rfl | rfl
    · exact h.emit hbusy ho hu
    · exact (h.raise (f := .unconf) (by decide)).emit hbusy ho hu

/-! #### The transport's turn -/

/-- The frame buffer is sent as the data marker and at least one byte of pixels (`20_memory.md` R62, R83). -/
theorem State.dataTxn_framed {s : State} (hg : s.geom.legal) (h0 : Memory.read s.fb 0 = Config.dataMarker) :
    s.dataTxn.framed := by
  obtain ⟨hw, -, hh, -, -, hp, hb, -⟩ := hg
  have hpos : 0 < s.geom.pages.toNat * s.geom.w.toNat := Nat.mul_pos (by omega) (by omega)
  obtain ⟨n, hn⟩ : ∃ n, s.geom.bufsize.toNat = n + 2 := ⟨s.geom.bufsize.toNat - 2, by omega⟩
  refine .inr ⟨Memory.read s.fb 1, (List.range n).map fun i => Memory.read s.fb (i + 2), ?_⟩
  simp [State.dataTxn, Memory.bytes, hn, List.range_succ_eq_map, h0, Function.comp_def]

/-- Every transaction of a bus operation has one of the two shapes (`20_memory.md` R80). -/
theorem BusOp.txns_framed {s : State} (hg : s.geom.legal) (h0 : Memory.read s.fb 0 = Config.dataMarker) (op : BusOp) :
    ∀ t ∈ op.txns s, t.framed := by
  have hcmd : ∀ c, (s.cmdTxn c).framed := fun c => .inl ⟨c, rfl⟩
  cases op with
  | config =>
    intro t ht
    obtain ⟨c, -, rfl⟩ := List.mem_map.1 ht
    exact hcmd c
  | sendCmd =>
    intro t ht
    rw [List.mem_singleton.1 ht]
    exact hcmd _
  | flush =>
    intro t ht
    rcases List.mem_append.1 ht with ht | ht
    · obtain ⟨c, -, rfl⟩ := List.mem_map.1 ht
      exact hcmd c
    · rw [List.mem_singleton.1 ht]
      exact State.dataTxn_framed hg h0

/-- What a done report of the transport does when the invariant holds: nothing is pending, or transaction `k` of the
running operation is appended to LOG and the next is handed over, or the operation ends (`20_memory.md` R81). -/
theorem Inv.transportTurn_cases {s : State} (h : Inv s) :
    s.transportTurn = s ∨
    ∃ op k t, s.phase = .running op k ∧ s.opState.operational ∧ (op.txns s)[k]? = some t ∧
      ((∃ u, (op.txns s)[k + 1]? = some u ∧
        s.transportTurn = { s with log := s.log ++ [t], phase := .running op (k + 1), pending := some u }) ∨
       (k + 1 = (op.txns s).length ∧
        s.transportTurn = { s with
          log := s.log ++ [t], pending := none, busy := false, phase := .idle,
          opState := if op = .config then .active else s.opState })) := by
  rcases hpend : s.pending with _ | t
  · exact .inl (State.transportTurn_none hpend)
  right
  obtain ⟨op, k, hp⟩ : ∃ op k, s.phase = .running op k := by
    by_contra hn
    simp only [not_exists] at hn
    exact absurd (hpend.symm.trans (h.idlePending hn)) nofun
  obtain ⟨ho, t', ht', hk⟩ := h.pendingIsNext op k hp
  obtain rfl : t = t' := Option.some.inj (hpend.symm.trans ht')
  refine ⟨op, k, t, hp, ho, hk, ?_⟩
  have hcongr := BusOp.txns_congr (s := s) (t := { s with log := s.log ++ [t], pending := none }) rfl rfl rfl op
  rw [State.transportTurn_running hp hpend]
  rcases hu : (op.txns s)[k + 1]? with _ | u
  · refine .inr ⟨?_, State.emitFrom_none (hcongr ▸ hu)⟩
    have hlt := (List.getElem?_eq_some_iff.1 hk).1
    have hge := List.getElem?_eq_none_iff.1 hu
    omega
  · exact .inl ⟨u, rfl, State.emitFrom_some (hcongr ▸ hu)⟩

/-- Appending a well-formed transaction to LOG. -/
theorem Inv.append {s : State} (h : Inv s) {t : Txn} (ht : t.framed) : Inv { s with log := s.log ++ [t] } :=
  { h with
    logFramed := fun u hu => by
      rcases List.mem_append.1 hu with hu | hu
      · exact h.logFramed u hu
      · rwa [List.mem_singleton.1 hu] }

/-- The end of a bus operation, which may make STATE ACTIVE (`40_sequencer.md` R146). -/
theorem Inv.conclude {s : State} (h : Inv s) (ho : s.opState.operational) {o : OpState} (ho' : o.operational) :
    Inv { s with pending := none, busy := false, phase := .idle, opState := o } :=
  { h with
    allocFailed := iff_of_false
      (fun ha => OpState.ne_failed_of_operational ho (h.allocFailed.1 ha)) (OpState.ne_failed_of_operational ho')
    resetGeometry := fun hr => absurd hr (OpState.ne_reset_of_operational ho')
    geometryLegal := fun _ => h.geometryLegal ho
    dataMarker := fun _ => h.dataMarker ho
    busyPhase := iff_of_false nofun (not_not.2 rfl)
    latched := nofun
    acceptedState := nofun
    pendingIsNext := nofun
    idlePending := fun _ => rfl }

theorem Inv.transportTurn {s : State} (h : Inv s) : Inv s.transportTurn := by
  rcases h.transportTurn_cases with e | ⟨op, k, t, hp, ho, hk, ⟨u, hu, e⟩ | ⟨-, e⟩⟩
  · rw [e]
    exact h
  all_goals
    have hframed : t.framed :=
      BusOp.txns_framed (h.geometryLegal ho) (h.dataMarker ho) op t (List.mem_of_getElem? hk)
    rw [e]
  · have hbusy : s.busy = true := h.busyPhase.2 (by rw [hp]; exact nofun)
    exact (h.append hframed).emit hbusy ho hu
  · refine (h.append hframed).conclude ho ?_
    split
    · exact .inr rfl
    · exact ho

/-- The invariant is kept by the turn of every agent. -/
theorem Inv.step {s t : State} (h : Inv s) (ht : step s = .next t) : Inv t := by
  have hs : ∀ r, Inv { s with schedule := r } := fun r => h.environment r _ _
  rcases step_cases ht with ⟨-, rfl⟩ | ⟨r, -, ht⟩ | ⟨r, -, hp, ⟨i, -, ht⟩ | ⟨e, -, rfl⟩⟩ | ⟨r, -, -, rfl⟩ |
    ⟨r, -, rfl⟩ | ⟨r, -, rfl⟩
  · exact h
  · exact (hs r).hostTurn ht
  · exact (hs r).command hp (exec_cases ht)
  · exact ((hs r).raise (by decide)).finish (h.pending_of_accepted hp)
  · exact hs r
  · exact (hs r).transportTurn
  · exact (hs r).platformReset

end Sys2Proof.Machine

namespace Sys2Proof

open Sys2Proof.Machine

/-- Settles O53, by the agent whose turn the step is. -/
theorem everyStepKeepsTheInvariant : Obligations.EveryStepKeepsTheInvariant :=
  fun _ _ h ht => h.step ht

/-- Settles O54: an empty store is canonical and the machine's font is legal. -/
theorem resetMeetsTheInvariant : Obligations.ResetMeetsTheInvariant :=
  Inv.of_reset Memory.wf_nil nofun Config.font_legal _ _ _ _ _

end Sys2Proof

/-! ### What each agent's turn leaves unchanged -/

namespace Sys2Proof.Machine

/-- The host's turn changes only A0 to A3, TEXT, BUSY, PHASE, the latch, the host's program and what its reads returned. -/
theorem State.hostTurn_frame {s t : State} (h : s.hostTurn = .next t) :
    t = { s with
      busy := t.busy, regs := t.regs, text := t.text, latch := t.latch, phase := t.phase, host := t.host,
      reads := t.reads } := by
  rcases State.hostTurn_cases h with ⟨-, rfl⟩ | ⟨a, rest, -, -, -, rfl⟩
  · rfl
  · rw [State.access_frame]

/-- What one step can change, by the agent that moves. -/
theorem step_frame {s t : State} (h : step s = .next t) :
    (s.schedule = [] ∧ t = s) ∨
    (∃ r, s.schedule = .host :: r ∧ t = { s with
      schedule := r, busy := t.busy, regs := t.regs, text := t.text, latch := t.latch, phase := t.phase,
      host := t.host, reads := t.reads }) ∨
    (∃ r, s.schedule = .engine :: r ∧ ({ s with schedule := r } : State).commandFrame t) ∨
    (∃ r, s.schedule = .transport :: r ∧ t = { s with
      schedule := r, log := s.log ++ s.pending.toList, pending := t.pending, phase := t.phase, busy := t.busy,
      opState := t.opState }) ∨
    (∃ r, s.schedule = .platform :: r ∧ t = ({ s with schedule := r } : State).platformReset) := by
  rcases step_cases h with hs | ⟨r, hs, ht⟩ | ⟨r, hs, -, ⟨i, -, ht⟩ | ⟨e, -, rfl⟩⟩ | ⟨r, hs, -, rfl⟩ | ⟨r, hs, rfl⟩ |
    ⟨r, hs, ht⟩
  · exact .inl hs
  · exact .inr (.inl ⟨r, hs, State.hostTurn_frame ht⟩)
  · exact .inr (.inr (.inl ⟨r, hs, exec_frame ht⟩))
  · exact .inr (.inr (.inl ⟨r, hs, rfl⟩))
  · exact .inr (.inr (.inl ⟨r, hs, rfl⟩))
  · have e := State.transportTurn_frame { s with schedule := r }
    rw [State.transportTurn_log] at e
    exact .inr (.inr (.inr (.inl ⟨r, hs, e⟩)))
  · exact .inr (.inr (.inr (.inr ⟨r, hs, ht⟩)))

/-- How a command can move STATE: only INIT does (`40_sequencer.md` R142, R143). -/
theorem CommandEffect.opState_cases {i : Instr} {s t : State} (h : CommandEffect i s t) :
    t.opState = s.opState ∨
    (s.opState ≠ .failed ∧ (∃ e, i = .init e) ∧
      (t.opState = .unconfigured ∨ (t.opState = .failed ∧ t.sticky.fAlloc = true))) := by
  cases h with
  | discarded => exact .inl rfl
  | ended => exact .inl rfl
  | initialised ext hi hf => exact .inr ⟨hf, ⟨ext, hi⟩, .inl rfl⟩
  | overflowed ext hi hf => exact .inr ⟨hf, ⟨ext, hi⟩, .inr ⟨rfl, rfl⟩⟩
  | pixelRead x y =>
    left
    unfold State.resultFromPixel
    split <;> rfl
  | byteRead k =>
    left
    unfold State.resultFromByte
    split <;> rfl
  | drew ds => exact .inl (congrArg State.opState (State.draw_frame s ds) :)
  | wrote cells => exact .inl (congrArg State.opState (State.blitAll_frame s cells) :)
  | emitted => exact .inl rfl

/-- GET_PIXEL gives RESULT one bit (`41_pixel.md` R171). -/
theorem State.resultFromPixel_result_le (s : State) (x y : Int) : (s.resultFromPixel x y).result.toNat ≤ 1 := by
  unfold State.resultFromPixel
  split
  · dsimp only
    split <;> decide
  · exact Nat.zero_le 1

/-- READ_FB gives RESULT one byte (`41_pixel.md` R173). -/
theorem State.resultFromByte_result_le (s : State) (i : Nat) : (s.resultFromByte i).result.toNat ≤ 255 := by
  unfold State.resultFromByte
  split
  · have := (s.fb.read i).isLt
    simp only [BitVec.toNat_setWidth]
    omega
  · exact Nat.zero_le 255

/-- How a command can write RESULT: only the two read commands do, as they end (`10_state.md` R27). -/
theorem CommandEffect.result_cases {i : Instr} {s t : State} (h : CommandEffect i s t) :
    t.result = s.result ∨
    (s.opState.operational ∧ t.busy = false ∧
      ((i = .getPixel ∧ t.result.toNat ≤ 1) ∨ (i = .readFb ∧ t.result.toNat ≤ 255))) := by
  cases h with
  | discarded => exact .inl rfl
  | ended => exact .inl rfl
  | initialised => exact .inl rfl
  | overflowed => exact .inl rfl
  | pixelRead x y hi ho => exact .inr ⟨ho, rfl, .inl ⟨hi, s.resultFromPixel_result_le x y⟩⟩
  | byteRead k hi ho => exact .inr ⟨ho, rfl, .inr ⟨hi, s.resultFromByte_result_le k⟩⟩
  | drew ds => exact .inl (congrArg State.result (State.draw_frame s ds) :)
  | wrote cells => exact .inl (congrArg State.result (State.blitAll_frame s cells) :)
  | emitted => exact .inl rfl

/-- When a done report moves STATE: it ends CONFIG, whose last transaction is number 24 (`40_sequencer.md` R146). -/
theorem Inv.transportTurn_opState {s : State} (h : Inv s) :
    s.transportTurn.opState = s.opState ∨
    (s.phase = .running .config 24 ∧ s.opState.operational ∧ s.transportTurn.opState = .active) := by
  rcases h.transportTurn_cases with e | ⟨op, k, t, hp, ho, -, ⟨u, -, e⟩ | ⟨hlen, e⟩⟩
  · exact .inl (congrArg State.opState e :)
  · exact .inl (congrArg State.opState e :)
  · by_cases hop : op = .config
    · subst hop
      rw [BusOp.txns_length] at hlen
      obtain rfl : k = 24 := Nat.succ.inj hlen
      exact .inr ⟨hp, ho, (congrArg State.opState e :)⟩
    · exact .inl ((congrArg State.opState e).trans (if_neg hop))

end Sys2Proof.Machine

namespace Sys2Proof

open Sys2Proof.Machine

/-- Settles O5: the three hypotheses name the branches of the step. -/
theorem engineTurnRunsTheDecodedCommand : Obligations.EngineTurnRunsTheDecodedCommand := by
  intro s i r hs hp hi
  simp only [step, hs, State.engineTurn, hp, State.perform, hi]

/-- Settles O58: every agent's turn has the font in its frame. -/
theorem fontNeverChanges : Obligations.FontNeverChanges := by
  intro s t h
  rcases step_frame h with ⟨-, rfl⟩ | ⟨r, -, e⟩ | ⟨r, -, e⟩ | ⟨r, -, e⟩ | ⟨r, -, rfl⟩
  · rfl
  · exact (congrArg State.rom e :)
  · exact (congrArg State.rom e :)
  · exact (congrArg State.rom e :)
  · rfl

/-- Settles O26: only the transport and reset have LOG outside their frame. -/
theorem logGrowsOnlyByDoneReports : Obligations.LogGrowsOnlyByDoneReports := by
  intro s t h
  rcases step_frame h with ⟨hs, rfl⟩ | ⟨r, hs, e⟩ | ⟨r, hs, e⟩ | ⟨r, hs, e⟩ | ⟨r, hs, rfl⟩ <;> rw [hs]
  · rfl
  · exact (congrArg State.log e :)
  · exact (congrArg State.log e :)
  · exact (congrArg State.log e :)
  · rfl

/-- Settles O55, by the agent whose turn the step is. -/
theorem stateMovesOnlyAlongItsTransitions : Obligations.StateMovesOnlyAlongItsTransitions := by
  intro s t hinv h
  rcases step_cases h with ⟨-, rfl⟩ | ⟨r, -, ht⟩ | ⟨r, hs, hp, ⟨i, hi, ht⟩ | ⟨e, -, rfl⟩⟩ | ⟨r, -, -, rfl⟩ |
    ⟨r, hs, rfl⟩ | ⟨r, hs, rfl⟩
  · exact .inl rfl
  · exact .inl (congrArg State.opState (State.hostTurn_frame ht) :)
  · rcases (exec_cases ht).opState_cases with e | ⟨hf, ⟨ext, rfl⟩, ho⟩
    · exact .inl e
    · exact .inr (.inr (.inl ⟨congrArg List.head? hs, hp, hf, ⟨ext, hi⟩, ho⟩))
  · exact .inl rfl
  · exact .inl rfl
  · rcases (hinv.environment r _ _).transportTurn_opState with e | ⟨hp, ho, ha⟩
    · exact .inl e
    · exact .inr (.inr (.inr ⟨congrArg List.head? hs, hp, ho, ha⟩))
  · exact .inr (.inl ⟨congrArg List.head? hs, rfl⟩)

/-- Settles O56, by the agent whose turn the step is. -/
theorem onlyTheReadCommandsWriteResult : Obligations.OnlyTheReadCommandsWriteResult := by
  intro s t h hne
  rcases step_cases h with ⟨-, rfl⟩ | ⟨r, -, ht⟩ | ⟨r, hs, hp, ⟨i, hi, ht⟩ | ⟨e, -, rfl⟩⟩ | ⟨r, -, -, rfl⟩ |
    ⟨r, -, rfl⟩ | ⟨r, hs, rfl⟩
  · exact absurd rfl hne
  · exact absurd (congrArg State.result (State.hostTurn_frame ht) :) hne
  · rcases (exec_cases ht).result_cases with e | ⟨ho, hb, hr⟩
    · exact absurd e hne
    · refine .inr ⟨congrArg List.head? hs, hp, ho, hb, ?_⟩
      rcases hr with ⟨rfl, hr⟩ | ⟨rfl, hr⟩
      · exact .inl ⟨hi, hr⟩
      · exact .inr ⟨hi, hr⟩
  · exact absurd rfl hne
  · exact absurd rfl hne
  · exact absurd (congrArg State.result (State.transportTurn_frame { s with schedule := r }) :) hne
  · exact .inl ⟨congrArg List.head? hs, rfl⟩

end Sys2Proof

/-! ### The register window -/

namespace Sys2Proof.Machine

/-- The host makes an admitted access at the head of its program. -/
theorem step_host {s : State} {a : HostAccess} {h : List HostAccess} {r : List Agent} (hs : s.schedule = .host :: r)
    (hh : s.host = a :: h) (hw : a.inWindow = true) (ha : admitted a = true) :
    step s = .next (({ s with schedule := r, host := h } : State).access a) := by
  simp only [step, hs, State.hostTurn, hh, hw, ha, Bool.true_eq_false, if_false]

/-- An access of the wrong width or alignment is refused (`10_state.md` R32). -/
theorem step_host_refused {s : State} {a : HostAccess} {h : List HostAccess} {r : List Agent}
    (hs : s.schedule = .host :: r) (hh : s.host = a :: h) (hw : a.inWindow = true) (ha : admitted a = false) :
    step s = .refused .accessNotAdmitted := by
  simp only [step, hs, State.hostTurn, hh, hw, ha, Bool.true_eq_false, if_false, if_true]

theorem isTextOffset_iff {off : Nat} : isTextOffset off = true ↔ 0x100 ≤ off ∧ off < 0x100 + Config.textCap := by
  simp [isTextOffset]

/-- TEXT lies in the window (`10_state.md` R22). -/
theorem textOffset_lt {off : Nat} (h : off < 0x100 + Config.textCap) : off < 0x200 := lt_trans h (by decide)

theorem isTextOffset_eq_false {off : Nat} (h : off < 0x100 ∨ 0x100 + Config.textCap ≤ off) :
    isTextOffset off = false := by
  rw [← Bool.not_eq_true, isTextOffset_iff]
  omega

/-- Which offsets take a 16-bit access (`10_state.md` R32). -/
theorem admitted16_iff {off : Nat} :
    admitted16 off = true ↔ off % 2 = 0 ∧ (off < 0x100 ∨ 0x100 + Config.textCap ≤ off) := by
  simp only [admitted16, decide_eq_true_eq, ← Bool.not_eq_true, isTextOffset_iff]
  omega

theorem admitted16_eq_false {off : Nat} (h : off % 2 = 1 ∨ (0x100 ≤ off ∧ off < 0x100 + Config.textCap)) :
    admitted16 off = false := by
  rw [← Bool.not_eq_true, admitted16_iff]
  omega

/-- Which offsets take an 8-bit access (`10_state.md` R32). -/
theorem admitted8_iff {off : Nat} : admitted8 off = true ↔ 0x018 ≤ off := by
  simp [admitted8, isWordOffset]

theorem admitted8_eq_false {off : Nat} (h : off < 0x018) : admitted8 off = false := by
  rw [← Bool.not_eq_true, admitted8_iff]
  omega

/-- No 16-bit register lies beyond BUSCFG (`10_state.md` R22). -/
theorem WindowReg.ofOffset_none {off : Nat} (h : 0x018 ≤ off) : WindowReg.ofOffset off = none := by
  unfold WindowReg.ofOffset
  split
  case h_13 => rfl
  all_goals omega

/-- What a 16-bit write does, by its offset (`10_state.md` R23, R24, R29, R30). -/
theorem State.write16_eq (s : State) (off : Nat) (val : Word) :
    s.write16 off val =
      if off = 0x000 then if s.opState = .failed then s else s.accept val
      else { s with
        regs :=
          if off = 0x004 then { s.regs with a0 := val }
          else if off = 0x006 then { s.regs with a1 := val }
          else if off = 0x008 then { s.regs with a2 := val }
          else if off = 0x00A then { s.regs with a3 := val }
          else s.regs } := by
  by_cases hoff : off < 0x018
  · interval_cases off <;> rfl
  · have hne : ∀ n < 0x018, off ≠ n := by omega
    simp [State.write16, WindowReg.ofOffset_none (not_lt.1 hoff), hne]

/-- What an 8-bit write does, by its offset (`10_state.md` R30, R31). -/
theorem State.write8_eq (s : State) (off : Nat) (val : Byte) :
    s.write8 off val =
      { s with text := if 0x100 ≤ off then s.text.setIfInBounds (off - 0x100) val else s.text } := by
  unfold State.write8
  split
  · next ht => rw [if_pos (isTextOffset_iff.1 ht).1]
  · next ht =>
    rw [isTextOffset_iff] at ht
    split
    · rw [Vector.setIfInBounds_eq_of_size_le (by omega)]
    · rfl

/-- TEXT byte `i` reads at its offset (`10_state.md` R31). -/
theorem State.read8_text (s : State) (i : Fin Config.textCap) : s.read8 (0x100 + i.val) = s.text[i] := by
  have h : isTextOffset (0x100 + i.val) = true := isTextOffset_iff.2 ⟨by omega, by omega⟩
  simp [State.read8, h]

/-- A reserved offset reads 0 (`10_state.md` R30). -/
theorem State.read16_reserved (s : State) {off : Nat} (h : 0x018 ≤ off) : s.read16 off = 0 := by
  rw [State.read16, WindowReg.ofOffset_none h]

theorem State.read8_reserved (s : State) {off : Nat} (h : off < 0x100 ∨ 0x100 + Config.textCap ≤ off) :
    s.read8 off = 0 := by
  rw [State.read8, isTextOffset_eq_false h, if_neg Bool.false_ne_true]

/-- Read-only registers and reserved offsets ignore a 16-bit write (`10_state.md` R30). -/
theorem State.write16_ignored (s : State) {off : Nat} (val : Word) (h : off ∉ [0x000, 0x004, 0x006, 0x008, 0x00A]) :
    s.write16 off val = s := by
  simp only [List.mem_cons, List.not_mem_nil, or_false, not_or] at h
  obtain ⟨hcmd, h0, h1, h2, h3⟩ := h
  rw [State.write16_eq, if_neg hcmd, if_neg h0, if_neg h1, if_neg h2, if_neg h3]

theorem State.write8_ignored (s : State) {off : Nat} (val : Byte) (h : off < 0x100 ∨ 0x100 + Config.textCap ≤ off) :
    s.write8 off val = s := by
  rw [State.write8, isTextOffset_eq_false h, if_neg Bool.false_ne_true]

/-! #### The bits of STATUS and BUSCFG -/

/-- The low bits of a concatenation are those of its right part. -/
theorem toNat_append_mod {m n : Nat} (x : BitVec m) (y : BitVec n) : (x ++ y).toNat % 2 ^ n = y.toNat := by
  rw [BitVec.toNat_append, Nat.shiftLeft_eq, Nat.or_mod_two_pow, Nat.mul_mod_left, Nat.zero_or, Nat.mod_eq_of_lt y.isLt]

theorem State.statusWord_state (s : State) : s.statusWord.toNat % 4 = s.opState.code.toNat :=
  toNat_append_mod _ s.opState.code

/-- The bits of STATUS above STATE, from BUSY on (`10_state.md` R25). -/
theorem State.statusWord_getLsbD (s : State) {i : Nat} (hi : i < 14) :
    s.statusWord.getLsbD (i + 2) =
      [s.busy, false, false, false, false, false, s.sticky.fOob, s.sticky.fAlloc, s.sticky.fGeom, s.sticky.fIllegal,
        s.sticky.fNoinit, s.sticky.wChar, s.sticky.wUnconf, false].getD i false := by
  unfold State.statusWord
  repeat rw [BitVec.getLsbD_append]
  interval_cases i <;> simp

/-- The bits of BUSCFG above BUS_ADDR: only EXTVCC, in bit 8, is not 0 (`10_state.md` R28). -/
theorem Geometry.buscfgWord_getLsbD (g : Geometry) (i : Nat) :
    g.buscfgWord.getLsbD (i + 7) = (decide (i = 1) && g.extvcc) := by
  unfold Geometry.buscfgWord
  repeat rw [BitVec.getLsbD_append]
  rcases i with _ | _ | i <;> simp

/-! #### The host's accesses -/

section
variable {s : State} {h : List HostAccess} {r : List Agent} (hs : s.schedule = .host :: r)
include hs

theorem step_rd16 {off : Nat} (hw : off < 0x200) (ha : off % 2 = 0 ∧ (off < 0x100 ∨ 0x100 + Config.textCap ≤ off))
    (hh : s.host = .rd16 off :: h) :
    step s = .next { s with schedule := r, host := h, reads := s.reads ++ [s.read16 off] } :=
  step_host hs hh (decide_eq_true hw) (admitted16_iff.2 ha)

theorem step_rd8 {off : Nat} (hw : off < 0x200) (ha : 0x018 ≤ off) (hh : s.host = .rd8 off :: h) :
    step s = .next { s with schedule := r, host := h, reads := s.reads ++ [(s.read8 off).setWidth 16] } :=
  step_host hs hh (decide_eq_true hw) (admitted8_iff.2 ha)

/-- A 16-bit write with BUSY = 0 is made. -/
theorem step_wr16 {off : Nat} {val : Word} (hb : s.busy = false) (hw : off < 0x200)
    (ha : off % 2 = 0 ∧ (off < 0x100 ∨ 0x100 + Config.textCap ≤ off)) (hh : s.host = .wr16 off val :: h) :
    step s = .next (({ s with schedule := r, host := h } : State).write16 off val) := by
  rw [step_host hs hh (decide_eq_true hw) (admitted16_iff.2 ha)]
  simp only [State.access, hb, Bool.false_eq_true, if_false]

/-- An 8-bit write with BUSY = 0 is made. -/
theorem step_wr8 {off : Nat} {val : Byte} (hb : s.busy = false) (hw : off < 0x200) (ha : 0x018 ≤ off)
    (hh : s.host = .wr8 off val :: h) :
    step s = .next (({ s with schedule := r, host := h } : State).write8 off val) := by
  rw [step_host hs hh (decide_eq_true hw) (admitted8_iff.2 ha)]
  simp only [State.access, hb, Bool.false_eq_true, if_false]

/-- A 16-bit write with BUSY = 1 is held (`10_state.md` R29). -/
theorem step_wr16_held {off : Nat} {val : Word} (hb : s.busy = true) (hw : off < 0x200)
    (ha : off % 2 = 0 ∧ (off < 0x100 ∨ 0x100 + Config.textCap ≤ off)) (hh : s.host = .wr16 off val :: h) :
    step s = .next { s with schedule := r } := by
  rw [step_host hs hh (decide_eq_true hw) (admitted16_iff.2 ha)]
  simp only [State.access, hb, if_true, ← hh]

/-- An 8-bit write with BUSY = 1 is held (`10_state.md` R29). -/
theorem step_wr8_held {off : Nat} {val : Byte} (hb : s.busy = true) (hw : off < 0x200) (ha : 0x018 ≤ off)
    (hh : s.host = .wr8 off val :: h) : step s = .next { s with schedule := r } := by
  rw [step_host hs hh (decide_eq_true hw) (admitted8_iff.2 ha)]
  simp only [State.access, hb, if_true, ← hh]

end

end Sys2Proof.Machine

namespace Sys2Proof

open Sys2Proof.Machine

/-- Settles O7: a held write stays the host's next access, and once BUSY = 0 it is made. -/
theorem writesAreHeldWhileBusy : Obligations.WritesAreHeldWhileBusy := by
  intro s h r hs hb
  refine ⟨fun off val hw he ho hh => ⟨step_wr16_held hs hb hw ⟨he, ho⟩ hh, ?_⟩,
    fun off val ha hw hh => ⟨step_wr8_held hs hb hw ha hh, ?_⟩⟩
  · rw [step_wr16 (s := { s with busy := false }) hs rfl hw ⟨he, ho⟩ hh, State.write16_eq]
    rfl
  · rw [step_wr8 (s := { s with busy := false }) hs rfl hw ha hh, State.write8_eq]

/-- Settles O8, by the offset map. -/
theorem hostReadsReturnRegistersAndChangeNothing : Obligations.HostReadsReturnRegistersAndChangeNothing := by
  intro s h r hs
  refine ⟨?_, fun i hh => ?_, fun hh => ?_⟩
  · simp only [List.forall_mem_cons]
    refine ⟨?_, ?_, ?_, ?_, ?_, ?_, ?_, ?_, ?_, ?_, ?_, ?_, nofun⟩ <;> exact step_rd16 hs (by decide) (by decide)
  · rw [step_rd8 hs (textOffset_lt (by omega)) (by omega) hh, s.read8_text i]
  · have hbusy : (({ s with schedule := r, host := h } : State).read16 0x002).getLsbD 2 = s.busy :=
      State.statusWord_getLsbD _ (i := 0) (by decide)
    rw [step_host hs hh rfl rfl]
    simp only [State.access, hbusy, hh]
    cases s.busy <;> rfl

/-- Settles O9, by the width and the offset of the access. -/
theorem reservedOffsetsReadZeroAndIgnoreWrites : Obligations.ReservedOffsetsReadZeroAndIgnoreWrites := by
  intro s h r hs
  refine ⟨fun off he hoff => ?_, fun off hoff => ?_, fun off he hoff => ?_, fun off hoff val hb hh => ?_⟩
  · refine ⟨fun hh => ?_, fun val hb hh => ?_⟩
    · rw [step_rd16 hs (by omega) (by omega) hh, s.read16_reserved (by omega)]
    · rw [step_wr16 hs hb (by omega) (by omega) hh, State.write16_ignored]
      simp only [List.mem_cons, List.not_mem_nil, or_false]
      omega
  · refine ⟨fun hh => ?_, fun val hb hh => ?_⟩
    · rw [step_rd8 hs (by omega) (by omega) hh, s.read8_reserved (by omega)]
      rfl
    · rw [step_wr8 hs hb (by omega) (by omega) hh, State.write8_ignored _ _ (by omega)]
  · have hw : off < 0x200 := by omega
    exact ⟨fun hh => step_host_refused hs hh (decide_eq_true hw) (admitted16_eq_false (.inl he)),
      fun val hh => step_host_refused hs hh (decide_eq_true hw) (admitted16_eq_false (.inl he))⟩
  · have hro : off < 0x018 ∧ off % 2 = 0 ∧ off ∉ [0x000, 0x004, 0x006, 0x008, 0x00A] :=
      (by decide : ∀ off ∈ [0x002, 0x00C, 0x00E, 0x010, 0x012, 0x014, 0x016],
        off < 0x018 ∧ off % 2 = 0 ∧ off ∉ [0x000, 0x004, 0x006, 0x008, 0x00A]) off hoff
    obtain ⟨hlt, he, hn⟩ := hro
    rw [step_wr16 hs hb (by omega) (by omega) hh, State.write16_ignored _ _ hn]

/-- Settles O11, by the width and the offset of the access. -/
theorem wrongWidthAccessesAreRefused : Obligations.WrongWidthAccessesAreRefused := by
  rintro s a h r hs hh ⟨off, ⟨hlt, ho, ha⟩ | ⟨hlt, ha⟩ | ⟨hlo, hhi, ha⟩⟩
  · have hn := admitted16_eq_false (.inl ho)
    rcases ha with rfl | ⟨val, rfl⟩ <;> exact step_host_refused hs hh (decide_eq_true (by omega)) hn
  · have hn := admitted8_eq_false hlt
    rcases ha with rfl | ⟨val, rfl⟩ <;> exact step_host_refused hs hh (decide_eq_true (by omega)) hn
  · have hn := admitted16_eq_false (.inr ⟨hlo, hhi⟩)
    rcases ha with rfl | ⟨val, rfl⟩ <;> exact step_host_refused hs hh (decide_eq_true (textOffset_lt hhi)) hn

/-- Settles O12: the host's writes by their offsets, and the frames of the engine's and the transport's turn. -/
theorem operandsAndTextKeepWhatTheHostWrote : Obligations.OperandsAndTextKeepWhatTheHostWrote := by
  refine ⟨fun s h r val hs hb => ?_, fun s h r i val hs hb hh => ?_, fun s t a r hs ha ht => ?_, rfl, fun i => ?_⟩
  · refine ⟨?_, ?_, ?_, ?_⟩ <;> exact step_wr16 hs hb (by decide) (by decide)
  · refine ⟨s.text.setIfInBounds i val, ?_, fun j => ?_⟩
    · rw [step_wr8 hs hb (textOffset_lt (by omega)) (by omega) hh, State.write8_eq, if_pos (by omega),
        Nat.add_sub_cancel_left]
    · simp [Vector.getElem_setIfInBounds, Fin.ext_iff, eq_comm]
  · rcases step_frame ht with ⟨hs', -⟩ | ⟨r', hs', -⟩ | ⟨r', -, e⟩ | ⟨r', -, e⟩ | ⟨r', hs', -⟩
    · exact nomatch hs.symm.trans hs'
    · obtain rfl := List.head_eq_of_cons_eq (hs.symm.trans hs')
      exact absurd ha (by decide)
    · exact ⟨(congrArg State.regs e :), (congrArg State.text e :)⟩
    · exact ⟨(congrArg State.regs e :), (congrArg State.text e :)⟩
    · obtain rfl := List.head_eq_of_cons_eq (hs.symm.trans hs')
      exact absurd ha (by decide)
  · simp [State.reset, blankText]

/-- Settles O16: `State.reset` lists the values field by field. -/
theorem resetLeavesTheSpecifiedValues : Obligations.ResetLeavesTheSpecifiedValues := by
  refine ⟨rfl, rfl, by decide, rfl, rfl, rfl, rfl, rfl, rfl, by decide, fun i => ?_, rfl, rfl, rfl⟩
  simp [State.reset, blankText]

/-- Settles O10, bit by bit. -/
theorem statusAndBuscfgFieldsStandInTheirBits : Obligations.StatusAndBuscfgFieldsStandInTheirBits := by
  intro s
  have hbit := fun i (hi : i < 14) => s.statusWord_getLsbD hi
  refine ⟨?_, hbit 0 (by decide), ?_, hbit 6 (by decide), hbit 7 (by decide), hbit 8 (by decide), hbit 9 (by decide),
    hbit 10 (by decide), hbit 11 (by decide), hbit 12 (by decide), hbit 13 (by decide), toNat_append_mod _ s.geom.busAddr,
    s.geom.buscfgWord_getLsbD 0, s.geom.buscfgWord_getLsbD 1, ?_⟩
  · rw [s.statusWord_state]
    cases s.opState <;> rfl
  · intro b h1 h2
    have := hbit (b - 2) (by omega)
    interval_cases b <;> exact this
  · intro b h1 h2
    have := s.geom.buscfgWord_getLsbD (b - 7)
    interval_cases b <;> exact this

end Sys2Proof

/-! ### A command reads only its latch -/

namespace Sys2Proof.Machine

/-- `s` with other values in the registers the host writes: A0 to A3 and TEXT (`10_state.md` R24, R31). -/
def State.withHostRegs (s : State) (regs : OperandRegs) (text : Vector Byte Config.textCap) : State :=
  { s with regs := regs, text := text }

section
variable (regs : OperandRegs) (text : Vector Byte Config.textCap)

theorem State.whenOperational_withHostRegs {s : State} {body : State → State}
    (hb : body (s.withHostRegs regs text) = (body s).withHostRegs regs text) :
    (s.withHostRegs regs text).whenOperational body = (s.whenOperational body).withHostRegs regs text := by
  rcases h : s.opState with _ | _ | _ | _
  · rw [State.whenOperational_reset (s := s) h, State.whenOperational_reset (s := s.withHostRegs regs text) h]
    rfl
  · rw [State.whenOperational_of (s := s) (.inl h),
      State.whenOperational_of (s := s.withHostRegs regs text) (.inl h), hb]
  · rw [State.whenOperational_of (s := s) (.inr h),
      State.whenOperational_of (s := s.withHostRegs regs text) (.inr h), hb]
  · rw [State.whenOperational_failed (s := s) h, State.whenOperational_failed (s := s.withHostRegs regs text) h]
    rfl

theorem State.pixelWrite_withHostRegs (s : State) (x y : Int) (v : Bool) :
    (s.withHostRegs regs text).pixelWrite x y v = (s.pixelWrite x y v).withHostRegs regs text := by
  unfold State.pixelWrite
  rw [apply_ite (State.withHostRegs · regs text)]
  rfl

theorem State.draw_withHostRegs (s : State) (ds : List Dot) :
    (s.withHostRegs regs text).draw ds = (s.draw ds).withHostRegs regs text :=
  List.foldl_hom (State.withHostRegs · regs text) fun t d => t.pixelWrite_withHostRegs regs text d.x d.y d.v

theorem State.blit_withHostRegs (s : State) (c : Byte) (x y : Int) :
    (s.withHostRegs regs text).blit c x y = (s.blit c x y).withHostRegs regs text := by
  unfold State.blit
  rw [← State.draw_withHostRegs, apply_ite (State.withHostRegs · regs text)]
  rfl

theorem State.blitAll_withHostRegs (s : State) (cells : List GlyphCell) :
    (s.withHostRegs regs text).blitAll cells = (s.blitAll cells).withHostRegs regs text :=
  List.foldl_hom (State.withHostRegs · regs text) fun t g => t.blit_withHostRegs regs text g.c g.x g.y

theorem State.drawString_withHostRegs (s : State) (n : Nat) (x y : Int) :
    (s.withHostRegs regs text).drawString n x y = (s.drawString n x y).withHostRegs regs text := by
  unfold State.drawString
  split
  · rfl
  · rw [State.blitAll_withHostRegs]
    rfl

theorem State.resultFromPixel_withHostRegs (s : State) (x y : Int) :
    (s.withHostRegs regs text).resultFromPixel x y = (s.resultFromPixel x y).withHostRegs regs text := by
  unfold State.resultFromPixel
  rw [apply_ite (State.withHostRegs · regs text)]
  rfl

theorem State.resultFromByte_withHostRegs (s : State) (i : Nat) :
    (s.withHostRegs regs text).resultFromByte i = (s.resultFromByte i).withHostRegs regs text := by
  unfold State.resultFromByte
  rw [apply_ite (State.withHostRegs · regs text)]
  rfl

theorem State.initWith_withHostRegs (s : State) (w h a : Nat) (ext : Bool) :
    (s.withHostRegs regs text).initWith w h a ext = (s.initWith w h a ext).withHostRegs regs text := by
  unfold State.initWith
  split
  · rfl
  · split <;> rfl

theorem State.emitFrom_withHostRegs (s : State) (op : BusOp) (k : Nat) :
    (s.withHostRegs regs text).emitFrom op k = (s.emitFrom op k).withHostRegs regs text := by
  have hcongr := BusOp.txns_congr (s := s) (t := s.withHostRegs regs text) rfl rfl rfl op
  rcases h : (op.txns s)[k]? with _ | t
  · rw [State.emitFrom_none h, State.emitFrom_none (hcongr ▸ h)]
    rfl
  · rw [State.emitFrom_some h, State.emitFrom_some (hcongr ▸ h)]
    rfl

/-- No command reads A0 to A3 or TEXT: with other values there it does the same and leaves them (`10_state.md` R33). -/
theorem exec_withHostRegs {i : Instr} {s t : State} (h : exec i s = .next t) :
    exec i (s.withHostRegs regs text) = .next (t.withHostRegs regs text) := by
  have hgate := @State.whenOperational_withHostRegs regs text s
  cases i with
  | init ext =>
    have hinit := s.initWith_withHostRegs regs text (size s.op0) (size s.op1) (size s.op2) ext
    have hop : (s.withHostRegs regs text).opState = s.opState := rfl
    simp only [exec, execInit, hop] at h ⊢
    cases hs : s.opState <;> rw [hs] at h <;> cases h
    case init.failed.refl => rfl
    all_goals exact congrArg _ hinit
  | config => cases h; exact congrArg _ (hgate (s.emitFrom_withHostRegs regs text .config 0))
  | sendCmd => cases h; exact congrArg _ (hgate (s.emitFrom_withHostRegs regs text .sendCmd 0))
  | flush =>
    cases h
    refine congrArg _ (hgate ?_)
    rw [← State.emitFrom_withHostRegs, apply_ite (State.withHostRegs · regs text)]
    rfl
  | setPixel => cases h; exact congrArg _ (hgate (congrArg State.finish (s.pixelWrite_withHostRegs regs text _ _ _)))
  | getPixel => cases h; exact congrArg _ (hgate (congrArg State.finish (s.resultFromPixel_withHostRegs regs text _ _)))
  | readFb => cases h; exact congrArg _ (hgate (congrArg State.finish (s.resultFromByte_withHostRegs regs text _)))
  | fill | rect | line | hline | vline =>
    cases h
    exact congrArg _ (hgate (congrArg State.finish (s.draw_withHostRegs regs text _)))
  | char => cases h; exact congrArg _ (hgate (congrArg State.finish (s.blit_withHostRegs regs text _ _ _)))
  | string => cases h; exact congrArg _ (hgate (s.drawString_withHostRegs regs text _ _ _))

end

end Sys2Proof.Machine

namespace Sys2Proof

open Sys2Proof.Machine

/-- Settles O6: acceptance is the write of CMD, and no command reads the registers the host writes. -/
theorem commandIsAcceptedAndReadsOnlyItsLatch : Obligations.CommandIsAcceptedAndReadsOnlyItsLatch := by
  refine ⟨fun s w h r hs hh hb hf => ?_, fun s t i regs text h => exec_withHostRegs regs text h⟩
  rw [step_wr16 hs hb (by decide) (by decide) hh, State.write16_eq, if_pos rfl, if_neg hf]
  rfl

end Sys2Proof

/-! ### The frame buffer and the bus -/

namespace Sys2Proof.Machine

/-- The transport's turn during an operation, as a step (`20_memory.md` R81). -/
theorem step_transport_running {s : State} {op : BusOp} {k : Nat} {t : Txn} {r : List Agent}
    (hs : s.schedule = .transport :: r) (hp : s.phase = .running op k) (ht : s.pending = some t) :
    step s = .next (({ s with schedule := r, log := s.log ++ [t], pending := none } : State).emitFrom op (k + 1)) := by
  simp only [step, hs]
  exact congrArg _ (State.transportTurn_running (s := { s with schedule := r }) hp ht)

/-- The inverse of the pixel map: a pixel from its byte and its bit (`20_memory.md` R70). -/
theorem Geometry.pixel_of_index {g : Geometry} (hg : g.legal) {x y : Int} (h : g.inRange x y) :
    x = ((g.pixelIndex x y - 1) / g.pages.toNat : Nat) ∧
    y = (8 * ((g.pixelIndex x y - 1) % g.pages.toNat) + pixelBit y : Nat) := by
  have hp := Geometry.page_lt hg h
  obtain ⟨hx0, -, hy0, -⟩ := h
  have hpos : 0 < g.pages.toNat := by omega
  unfold Geometry.pixelIndex pixelBit
  rw [Nat.add_sub_cancel, Nat.add_mul_div_right _ _ hpos, Nat.div_eq_of_lt hp, Nat.add_mul_mod_self_right,
    Nat.mod_eq_of_lt hp]
  omega

/-! #### Pixel writes in another order, and glyphs as pixel writes -/

/-- Pixel writes of one value to the same pixels leave the same frame buffer (`20_memory.md` R90). -/
theorem State.draw_fb_of_same_pixels {s : State} (hw : s.fb.wf) (hg : s.geom.legal) {v : Bool} {ds es : List Dot}
    (hd : ∀ d ∈ ds, d.v = v) (he : ∀ e ∈ es, e.v = v)
    (h : ∀ x y, (∃ d ∈ ds, d.x = x ∧ d.y = y) ↔ ∃ e ∈ es, e.x = x ∧ e.y = y) : (s.draw ds).fb = (s.draw es).fb := by
  refine Memory.ext_pixels hg (State.draw_wf hw ds) (State.draw_wf hw es) (fun x y hin => ?_) fun a ha => ?_
  · by_cases hit : ∃ d ∈ ds, d.x = x ∧ d.y = y
    · rw [State.draw_pixelAt_hit hw hg hin (fun d hm _ _ => hd d hm) hit,
        State.draw_pixelAt_hit hw hg hin (fun e hm _ _ => he e hm) ((h x y).1 hit)]
    · rw [State.draw_pixelAt_other hw hg hin fun d hm hxy => hit ⟨d, hm, hxy⟩,
        State.draw_pixelAt_other hw hg hin fun e hm hxy => hit ((h x y).2 ⟨e, hm, hxy⟩)]
  · rw [State.draw_read_outside hw hg ds ha, State.draw_read_outside hw hg es ha]

/-- F_OOB after pixel writes, by the pixels they go to. -/
theorem State.draw_oob_iff_pixel (s : State) (ds : List Dot) :
    (s.draw ds).sticky.fOob = true ↔
      s.sticky.fOob = true ∨ ∃ x y, (∃ d ∈ ds, d.x = x ∧ d.y = y) ∧ ¬ s.geom.inRange x y := by
  rw [State.draw_oob]
  refine or_congr_right ⟨?_, ?_⟩
  · rintro ⟨d, hm, hout⟩
    exact ⟨d.x, d.y, ⟨d, hm, rfl, rfl⟩, hout⟩
  · rintro ⟨_, _, ⟨d, hm, rfl, rfl⟩, hout⟩
    exact ⟨d, hm, hout⟩

/-- The frame buffer after a pixel write depends only on the geometry and the frame buffer before. -/
theorem State.pixelWrite_fb_congr {s t : State} (hg : t.geom = s.geom) (hf : t.fb = s.fb) (x y : Int) (v : Bool) :
    (t.pixelWrite x y v).fb = (s.pixelWrite x y v).fb := by
  unfold State.pixelWrite
  rw [hg, hf]
  split
  · rfl
  · exact hf

/-- The frame buffer after pixel writes depends only on the geometry and the frame buffer before. -/
theorem State.draw_fb_congr {s t : State} (hg : t.geom = s.geom) (hf : t.fb = s.fb) (ds : List Dot) :
    (t.draw ds).fb = (s.draw ds).fb := by
  induction ds generalizing s t with
  | nil => exact hf
  | cons d ds ih =>
    rw [State.draw_cons, State.draw_cons]
    exact ih (by simpa using hg) (State.pixelWrite_fb_congr hg hf d.x d.y d.v)

/-- A glyph leaves the frame buffer of its 64 pixel writes (`43_glyph.md` R221). -/
theorem State.blit_fb (s : State) (c : Byte) (x y : Int) :
    (s.blit c x y).fb = (s.draw (glyphDots s.rom c x y)).fb := by
  unfold State.blit
  refine State.draw_fb_congr ?_ ?_ _
  · split <;> rfl
  · split <;> rfl

/-- Glyphs leave the frame buffer of all their pixel writes (`43_glyph.md` R223). -/
theorem State.blitAll_fb (s : State) (cells : List GlyphCell) :
    (s.blitAll cells).fb = (s.draw (cells.flatMap fun g => glyphDots s.rom g.c g.x g.y)).fb := by
  induction cells generalizing s with
  | nil => rfl
  | cons g cells ih =>
    have hframe := State.blit_frame s g.c g.x g.y
    have hrom : (s.blit g.c g.x g.y).rom = s.rom := (congrArg State.rom hframe :)
    have hgeom : (s.blit g.c g.x g.y).geom = s.geom := (congrArg State.geom hframe :)
    calc (s.blitAll (g :: cells)).fb
        = ((s.blit g.c g.x g.y).blitAll cells).fb := rfl
      _ = ((s.blit g.c g.x g.y).draw (cells.flatMap fun g => glyphDots s.rom g.c g.x g.y)).fb := by rw [ih, hrom]
      _ = (s.draw ((g :: cells).flatMap fun g => glyphDots s.rom g.c g.x g.y)).fb := by
        rw [List.flatMap_cons, State.draw_append]
        exact State.draw_fb_congr (hgeom.trans (State.draw_geom ..).symm) (s.blit_fb g.c g.x g.y) _

/-! #### Glyph numbers -/

/-- Which characters have a glyph of their own, and which (`43_glyph.md` R220). -/
theorem mappedGlyph_eq_some {r : FontRom} {c : Byte} {n : Nat} :
    mappedGlyph r c = some n ↔
      (0x41 ≤ c.toNat ∧ c.toNat ≤ 0x5A ∧ n = r.gUpper + (c.toNat - 0x41)) ∨
      (0x30 ≤ c.toNat ∧ c.toNat ≤ 0x39 ∧ n = r.gDigit + (c.toNat - 0x30)) ∨
      (0x61 ≤ c.toNat ∧ c.toNat ≤ 0x7A ∧ n = r.gLower + (c.toNat - 0x61)) := by
  unfold mappedGlyph
  split_ifs <;> simp only [Option.some.injEq, false_iff] <;> omega

/-- Every glyph lies in the font: the three glyph ranges do, and glyph 0 exists (`00_scope.md` R7). -/
theorem glyphNumber_lt {r : FontRom} (hr : r.legal) (c : Byte) : glyphNumber r c < r.bytes.length / 8 := by
  obtain ⟨-, hlen, hupper, hdigit, hlower, -⟩ := hr
  unfold glyphNumber
  rcases h : mappedGlyph r c with _ | n
  · rw [Option.getD_none]
    omega
  · rw [Option.getD_some]
    rcases mappedGlyph_eq_some.1 h with h | h | h <;> omega

/-- Characters of one glyph are equal: the three glyph ranges are disjoint (`00_scope.md` R7). -/
theorem mappedGlyph_inj {r : FontRom} (hr : r.legal) {c d : Byte} {n : Nat} (hc : mappedGlyph r c = some n)
    (hd : mappedGlyph r d = some n) : c = d := by
  obtain ⟨-, -, -, -, -, hupperDigit, hupperLower, hdigitLower⟩ := hr
  refine BitVec.eq_of_toNat_eq ?_
  rcases mappedGlyph_eq_some.1 hc with hc | hc | hc <;>
    rcases mappedGlyph_eq_some.1 hd with hd | hd | hd <;> omega

/-! #### Commands that write no byte -/

/-- A command whose body writes no byte writes none: the checks before it do not either. -/
theorem State.whenOperational_fb {s : State} {body : State → State} (hb : (body s).fb = s.fb) :
    (s.whenOperational body).fb = s.fb := by
  rcases State.whenOperational_cases s body with ⟨-, e⟩ | ⟨-, e⟩ | ⟨-, e⟩ <;> rw [e]
  · rfl
  · rfl
  · exact hb

@[simp] theorem State.emitFrom_fb (s : State) (op : BusOp) (k : Nat) : (s.emitFrom op k).fb = s.fb := by
  rcases h : (op.txns s)[k]? with _ | t
  · rw [State.emitFrom_none h]
  · rw [State.emitFrom_some h]

@[simp] theorem State.resultFromPixel_fb (s : State) (x y : Int) : (s.resultFromPixel x y).fb = s.fb := by
  unfold State.resultFromPixel
  split <;> rfl

@[simp] theorem State.resultFromByte_fb (s : State) (i : Nat) : (s.resultFromByte i).fb = s.fb := by
  unfold State.resultFromByte
  split <;> rfl

/-- In the ready states a command other than INIT leaves byte 0: it is no pixel's (`20_memory.md` R62, R64). -/
theorem CommandEffect.read_zero {i : Instr} {s t : State} (h : CommandEffect i s t) (hr : s.ready)
    (hi : ∀ e, i ≠ .init e) : Memory.read t.fb 0 = Memory.read s.fb 0 := by
  obtain ⟨-, hg, hw⟩ := hr
  cases h with
  | discarded => rfl
  | ended => rfl
  | initialised ext e => exact absurd e (hi ext)
  | overflowed ext e => exact absurd e (hi ext)
  | pixelRead x y => rw [State.finish_fb, State.resultFromPixel_fb]
  | byteRead k => rw [State.finish_fb, State.resultFromByte_fb]
  | drew ds => exact State.draw_read_outside hw hg ds (.inl rfl)
  | wrote cells =>
    rw [State.finish_fb, State.blitAll_fb]
    exact State.draw_read_outside hw hg _ (.inl rfl)
  | emitted => rfl

end Sys2Proof.Machine

namespace Sys2Proof

open Sys2Proof.Machine

/-- Settles O25: the pending transaction is there by the invariant, and appending it to LOG leaves what the operation
has still to send. -/
theorem doneReportAppendsAndHandsOverTheNext : Obligations.DoneReportAppendsAndHandsOverTheNext := by
  intro s op k r h hp hs
  obtain ⟨-, t, ht, -⟩ := h.pendingIsNext op k hp
  have hcongr := BusOp.txns_congr (s := s)
    (t := { s with schedule := r, log := s.log ++ [t], pending := none }) rfl rfl rfl op
  refine ⟨t, ht, fun t' ht' => ?_, fun hend => ?_⟩
  · rw [step_transport_running hs hp ht, State.emitFrom_some (hcongr ▸ ht')]
  · rw [step_transport_running hs hp ht, State.emitFrom_none (hcongr ▸ hend)]

/-- Settles O33: the inverse of R70 takes every pixel back from its byte and bit, and every such bit holds a pixel. -/
theorem pixelMapIsOneToOne : Obligations.PixelMapIsOneToOne := by
  intro g hg
  refine ⟨fun x y x' y' h h' hi hb => ?_, fun x y h => ?_, fun i b h1 h2 hb => ?_⟩
  · obtain ⟨hx, hy⟩ := Geometry.pixel_of_index hg h
    obtain ⟨hx', hy'⟩ := Geometry.pixel_of_index hg h'
    rw [hi] at hx hy
    rw [hb] at hy
    exact ⟨hx.trans hx'.symm, hy.trans hy'.symm⟩
  · have hindex := Geometry.pixelIndex_bounds hg h
    have hbit := pixelBit_lt y
    obtain ⟨-, -, -, -, -, -, hsize, -⟩ := hg
    omega
  · obtain ⟨x, y, hin, rfl, rfl⟩ := Geometry.pixel_of_bit hg h1 h2 hb
    obtain ⟨hx, hy⟩ := Geometry.pixel_of_index hg hin
    dsimp only
    rw [← hx, ← hy]
    exact ⟨hin, rfl, rfl⟩

/-- Settles O36: pixel writes change only FB and F_OOB, and both depend only on the pixels written. -/
theorem orderOfPixelWritesIsNotObservable : Obligations.OrderOfPixelWritesIsNotObservable := by
  rintro s v ds es ⟨-, hg, hw⟩ hd he h
  have hfb := State.draw_fb_of_same_pixels hw hg hd he h
  have hoob : (s.draw ds).sticky.fOob = (s.draw es).sticky.fOob := by
    rw [Bool.eq_iff_iff, State.draw_oob_iff_pixel, State.draw_oob_iff_pixel]
    simp only [h]
  rw [State.draw_frame s ds, State.draw_frame s es, hfb, hoob]

/-- Settles O48: glyph numbers are glyphs of the font, and the glyph ranges are disjoint. -/
theorem glyphReadsStayInTheFont : Obligations.GlyphReadsStayInTheFont := by
  intro r hr
  refine ⟨fun c i hi => ?_, fun c d hc h => ?_⟩
  · have := glyphNumber_lt hr c
    omega
  · obtain ⟨n, hn⟩ := Option.ne_none_iff_exists'.1 hc
    exact mappedGlyph_inj hr hn (h.symm.trans hn)

/-- Settles O57: byte 0 by the effect of the command, and the five commands by what their bodies leave. -/
theorem onlyInitWritesTheDataPrefix : Obligations.OnlyInitWritesTheDataPrefix := by
  refine ⟨fun s t i hr hi h => (exec_cases h).read_zero hr hi, ?_⟩
  rintro s t i (rfl | rfl | rfl | rfl | rfl) h <;> cases h
  · exact State.whenOperational_fb (s.emitFrom_fb .sendCmd 0)
  · exact State.whenOperational_fb (s.emitFrom_fb .config 0)
  · refine State.whenOperational_fb ?_
    rw [State.emitFrom_fb]
    split <;> rfl
  · exact State.whenOperational_fb (s.resultFromPixel_fb _ _)
  · exact State.whenOperational_fb (s.resultFromByte_fb _)

end Sys2Proof

/-! ### The decoder and the encoder -/

namespace Sys2Proof

/-! #### The fields of a command word (`30_encoding.md` R100) -/

theorem opcField_eq (c : Word) : opcField c = c.toNat % 256 := by
  simp [opcField, BitVec.extractLsb'_toNat]

theorem rsvField_eq (c : Word) : rsvField c = c.toNat / 1024 := by
  have hc := c.isLt
  rw [rsvField, BitVec.extractLsb'_toNat, Nat.shiftRight_eq_div_pow]
  omega

theorem vField_iff (c : Word) : vField c = true ↔ c.toNat / 256 % 2 = 1 := by
  simp [vField, BitVec.getLsbD, Nat.testBit_eq_decide_div_mod_eq]

theorem fField_iff (c : Word) : fField c = true ↔ c.toNat / 512 % 2 = 1 := by
  simp [fField, BitVec.getLsbD, Nat.testBit_eq_decide_div_mod_eq]

/-- The four fields cover the word. -/
theorem word_eq_iff_fields {c d : Word} :
    c = d ↔ opcField c = opcField d ∧ rsvField c = rsvField d ∧ vField c = vField d ∧ fField c = fField d := by
  constructor
  · rintro rfl
    exact ⟨rfl, rfl, rfl, rfl⟩
  · rintro ⟨hopc, hrsv, hv, hf⟩
    rw [opcField_eq, opcField_eq] at hopc
    rw [rsvField_eq, rsvField_eq] at hrsv
    rw [Bool.eq_iff_iff, vField_iff, vField_iff] at hv
    rw [Bool.eq_iff_iff, fField_iff, fField_iff] at hf
    apply BitVec.eq_of_toNat_eq
    omega

/-! #### The rows of the opcode table (`30_encoding.md` R101, R103, R107) -/

/-- The OPC of an opcode. -/
def Opcode.code : Opcode → Nat
  | .init => 0x01
  | .config => 0x02
  | .sendCmd => 0x03
  | .flush => 0x04
  | .setPixel => 0x10
  | .getPixel => 0x11
  | .fill => 0x12
  | .readFb => 0x13
  | .rect => 0x20
  | .line => 0x21
  | .hline => 0x22
  | .vline => 0x23
  | .char => 0x30
  | .string => 0x31

theorem Opcode.ofCode_eq_some {n : Nat} {o : Opcode} : Opcode.ofCode n = some o ↔ n = o.code := by
  constructor
  · intro h
    unfold Opcode.ofCode at h
    split at h <;> cases h <;> rfl
  · rintro rfl
    cases o <;> rfl

/-- The word `c` stands in the row of `o`: it has its OPC, RSV is 0, and V and F are set only if `o` uses them. -/
structure Opcode.Matches (o : Opcode) (c : Word) : Prop where
  opc : opcField c = o.code
  rsv : rsvField c = 0
  v : vField c = true → o.usesV = true
  f : fField c = true → o.usesF = true

/-- A word decodes to the command of the row it stands in, with its V and F bits. -/
theorem decode_eq_ok_iff {c : Word} {i : Instr} :
    decode c = .ok i ↔ ∃ o : Opcode, o.Matches c ∧ o.instr (vField c) (fField c) = i := by
  constructor
  · intro h
    unfold decode at h
    split at h
    · cases h
    · next o ho =>
      split_ifs at h with hrsv hv hf
      cases h
      exact ⟨o, ⟨Opcode.ofCode_eq_some.1 ho, not_not.1 hrsv, by simpa using hv, by simpa using hf⟩, rfl⟩
  · rintro ⟨o, ⟨hopc, hrsv, hv, hf⟩, rfl⟩
    simp only [decode, Opcode.ofCode_eq_some.2 hopc]
    rw [if_neg (not_not.2 hrsv), if_neg (by simpa using hv), if_neg (by simpa using hf)]

theorem decode_ok_iff_matches {c : Word} : (∃ i, decode c = .ok i) ↔ ∃ o : Opcode, o.Matches c := by
  simp only [decode_eq_ok_iff]
  exact ⟨fun ⟨_, o, ho, _⟩ => ⟨o, ho⟩, fun ⟨o, ho⟩ => ⟨_, o, ho, rfl⟩⟩

/-- Every command is that of an opcode, with V and F set only if the opcode uses them. -/
theorem Instr.exists_opcode (i : Instr) :
    ∃ (o : Opcode) (v f : Bool), (v = true → o.usesV = true) ∧ (f = true → o.usesF = true) ∧ o.instr v f = i := by
  cases i with
  | init ext => exact ⟨.init, false, ext, nofun, fun _ => rfl, rfl⟩
  | config => exact ⟨.config, false, false, nofun, nofun, rfl⟩
  | sendCmd => exact ⟨.sendCmd, false, false, nofun, nofun, rfl⟩
  | flush => exact ⟨.flush, false, false, nofun, nofun, rfl⟩
  | setPixel v => exact ⟨.setPixel, v, false, fun _ => rfl, nofun, rfl⟩
  | getPixel => exact ⟨.getPixel, false, false, nofun, nofun, rfl⟩
  | fill v => exact ⟨.fill, v, false, fun _ => rfl, nofun, rfl⟩
  | readFb => exact ⟨.readFb, false, false, nofun, nofun, rfl⟩
  | rect v f => exact ⟨.rect, v, f, fun _ => rfl, fun _ => rfl, rfl⟩
  | line v => exact ⟨.line, v, false, fun _ => rfl, nofun, rfl⟩
  | hline v => exact ⟨.hline, v, false, fun _ => rfl, nofun, rfl⟩
  | vline v => exact ⟨.vline, v, false, fun _ => rfl, nofun, rfl⟩
  | char => exact ⟨.char, false, false, nofun, nofun, rfl⟩
  | string => exact ⟨.string, false, false, nofun, nofun, rfl⟩

/-- The encoder puts OPC, V and F in their fields and leaves RSV 0. -/
theorem fields_encode (o : Opcode) {v f : Bool} (hv : v = true → o.usesV = true) (hf : f = true → o.usesF = true) :
    opcField (encode (o.instr v f)) = o.code ∧ rsvField (encode (o.instr v f)) = 0 ∧
      vField (encode (o.instr v f)) = v ∧ fField (encode (o.instr v f)) = f := by
  revert v f
  cases o <;> decide

theorem decode_encode (i : Instr) : decode (encode i) = .ok i := by
  obtain ⟨o, v, f, hv, hf, rfl⟩ := i.exists_opcode
  obtain ⟨hopc, hrsv, ev, ef⟩ := fields_encode o hv hf
  exact decode_eq_ok_iff.2 ⟨o, ⟨hopc, hrsv, ev.symm ▸ hv, ef.symm ▸ hf⟩, by rw [ev, ef]⟩

theorem Opcode.Matches.encode_eq {o : Opcode} {c : Word} (h : o.Matches c) :
    encode (o.instr (vField c) (fField c)) = c := by
  obtain ⟨hopc, hrsv, ev, ef⟩ := fields_encode o h.v h.f
  exact word_eq_iff_fields.2 ⟨hopc.trans h.opc.symm, hrsv.trans h.rsv.symm, ev, ef⟩

/-! #### Match and mask (`30_encoding.md` R101) -/

/-- The mask of an opcode: every bit but the V and F bits it uses. -/
def Opcode.mask (o : Opcode) : Word := ~~~(vBit o.usesV ||| fBit o.usesF)

/-- The match and the mask of an opcode. -/
def Opcode.row (o : Opcode) : Word × Word := (encode (o.instr false false), o.mask)

/-- The opcodes in the order of the table. -/
def Opcode.all : List Opcode :=
  [.init, .config, .sendCmd, .flush, .setPixel, .getPixel, .fill, .readFb, .rect, .line, .hline, .vline, .char, .string]

theorem Opcode.mem_all (o : Opcode) : o ∈ Opcode.all := by
  cases o <;> decide

theorem Opcode.rsv_le_mask (o : Opcode) : o.mask &&& 0xFC00 = 0xFC00 := by
  cases o <;> decide

theorem Opcode.fields_and_mask (o : Opcode) (c : Word) :
    opcField (c &&& o.mask) = opcField c ∧ rsvField (c &&& o.mask) = rsvField c ∧
      vField (c &&& o.mask) = (vField c && !o.usesV) ∧ fField (c &&& o.mask) = (fField c && !o.usesF) := by
  have hopc : o.mask.extractLsb' 0 8 = BitVec.allOnes 8 := by cases o <;> decide
  have hrsv : o.mask.extractLsb' 10 6 = BitVec.allOnes 6 := by cases o <;> decide
  have hv : o.mask.getLsbD 8 = !o.usesV := by cases o <;> decide
  have hf : o.mask.getLsbD 9 = !o.usesF := by cases o <;> decide
  simp only [opcField, rsvField, vField, fField, BitVec.extractLsb'_and, BitVec.getLsbD_and, hopc, hrsv, hv, hf,
    BitVec.and_allOnes, and_self]

/-- A word gives the match under the mask exactly if it stands in the row. -/
theorem Opcode.and_mask_eq_iff {o : Opcode} {c : Word} :
    c &&& o.mask = encode (o.instr false false) ↔ o.Matches c := by
  obtain ⟨hopc, hrsv, hv, hf⟩ := o.fields_and_mask c
  obtain ⟨eopc, ersv, ev, ef⟩ := fields_encode o (v := false) (f := false) nofun nofun
  rw [word_eq_iff_fields, hopc, hrsv, hv, hf, eopc, ersv, ev, ef]
  simp only [Bool.and_eq_false_imp, Bool.not_eq_false']
  exact ⟨fun ⟨mopc, mrsv, mv, mf⟩ => ⟨mopc, mrsv, mv, mf⟩, fun ⟨mopc, mrsv, mv, mf⟩ => ⟨mopc, mrsv, mv, mf⟩⟩

/-! #### Illegal words (`30_encoding.md` R104, R105) -/

theorem Opcode.code_not_reserved (o : Opcode) :
    ¬ (o.code = 0 ∨ (0x05 ≤ o.code ∧ o.code ≤ 0x0F) ∨ (0x14 ≤ o.code ∧ o.code ≤ 0x1F) ∨
      (0x24 ≤ o.code ∧ o.code ≤ 0x2F) ∨ 0x32 ≤ o.code) := by
  cases o <;> decide

theorem Opcode.code_mem_of_usesV {o : Opcode} : o.usesV = true → o.code ∈ [0x10, 0x12, 0x20, 0x21, 0x22, 0x23] := by
  cases o <;> decide

theorem Opcode.code_mem_of_usesF {o : Opcode} : o.usesF = true → o.code ∈ [0x01, 0x20] := by
  cases o <;> decide

/-- What makes a word illegal: a reserved OPC, a non-zero RSV, or an unused V or F bit that is set. -/
def illegalWord (w : Word) : Prop :=
  let opc := w.toNat % 256
  (opc = 0 ∨ (0x05 ≤ opc ∧ opc ≤ 0x0F) ∨ (0x14 ≤ opc ∧ opc ≤ 0x1F) ∨ (0x24 ≤ opc ∧ opc ≤ 0x2F) ∨ 0x32 ≤ opc) ∨
  w.toNat / 1024 ≠ 0 ∨
  (w.toNat / 256 % 2 = 1 ∧ opc ∉ [0x10, 0x12, 0x20, 0x21, 0x22, 0x23]) ∨
  (w.toNat / 512 % 2 = 1 ∧ opc ∉ [0x01, 0x20])

theorem Opcode.Matches.not_illegalWord {o : Opcode} {w : Word} (ho : o.Matches w) : ¬ illegalWord w := by
  obtain ⟨hopc, hrsv, hv, hf⟩ := ho
  rw [opcField_eq] at hopc
  rw [rsvField_eq] at hrsv
  simp only [illegalWord, hopc]
  rintro (hres | hne | ⟨h8, hunused⟩ | ⟨h9, hunused⟩)
  · exact o.code_not_reserved hres
  · exact hne hrsv
  · exact hunused (Opcode.code_mem_of_usesV (hv ((vField_iff w).2 h8)))
  · exact hunused (Opcode.code_mem_of_usesF (hf ((fField_iff w).2 h9)))

end Sys2Proof

namespace Sys2Proof.Machine

/-- The engine ends a command whose word does not decode with F_ILLEGAL. -/
theorem step_engine_illegal {s : State} {r : List Agent} (hs : s.schedule = .engine :: r) (hp : s.phase = .accepted)
    (hc : ∀ i, decode s.latch.cmd ≠ .ok i) :
    step s = .next (({ s with schedule := r } : State).raise .illegal).finish := by
  simp only [step, hs, State.engineTurn, hp, State.perform]
  split
  · next i hi => exact absurd hi (hc i)
  · rfl

end Sys2Proof.Machine

/-! #### The writes of TEXT (`30_encoding.md` R109) -/

namespace Sys2Proof.Machine

/-- The writes of a string to TEXT, byte by byte. -/
def textWrites (t : List Byte) : List HostAccess := t.zipIdx.map fun p => .wr8 (0x100 + p.2) p.1

theorem textWrites_length (t : List Byte) : (textWrites t).length = t.length := by
  simp [textWrites]

theorem textWrites_getElem? {t : List Byte} {k : Nat} {c : Byte} (h : t[k]? = some c) :
    (textWrites t)[k]? = some (.wr8 (0x100 + k) c) := by
  simp [textWrites, h]

theorem expandMnemonic_string (t : List Byte) (x y : Int) :
    expandMnemonic (.string t x y) = textWrites t ++ (operandWrites [t.length, x, y] ++ [issue .string]) :=
  List.append_assoc ..

end Sys2Proof.Machine

namespace Sys2Proof

open Sys2Proof.Machine

/-- Settles O2: the word of a command has the fields of its row, and the fields determine the word. -/
theorem decodeAndEncodeAgree : Obligations.DecodeAndEncodeAgree := by
  refine ⟨fun i _ => decode_encode i, fun w i h => ?_⟩
  obtain ⟨o, ho, rfl⟩ := decode_eq_ok_iff.1 h
  exact ho.encode_eq

/-- Settles O3: a word matches a row of the table exactly if it stands in the row of an opcode. -/
theorem legalWordsMatchTheOpcodeTable : Obligations.LegalWordsMatchTheOpcodeTable := by
  unfold Obligations.LegalWordsMatchTheOpcodeTable
  intro table
  have htable : table = Opcode.all.map Opcode.row := rfl
  rw [htable]
  refine ⟨List.forall_mem_map.2 fun o _ => o.rsv_le_mask, fun w => decode_ok_iff_matches.trans ⟨?_, ?_⟩⟩
  · rintro ⟨o, ho⟩
    exact ⟨o.row, List.mem_map_of_mem o.mem_all, Opcode.and_mask_eq_iff.2 ho⟩
  · rintro ⟨row, hrow, h⟩
    obtain ⟨o, -, rfl⟩ := List.mem_map.1 hrow
    exact ⟨o, Opcode.and_mask_eq_iff.1 h⟩

/-- Settles O4: acceptance is O6's, and the engine finds that the word stands in no row. -/
theorem illegalWordOnlySetsFIllegal : Obligations.IllegalWordOnlySetsFIllegal := by
  intro s w h r hs hh hb hf hw
  refine ⟨_, commandIsAcceptedAndReadsOnlyItsLatch.1 s w h _ hs hh hb hf, rfl, ?_⟩
  rw [step_engine_illegal rfl rfl fun i hi => ?_]
  · simp only [hb, State.raise, State.finish, Sticky.set]
  · obtain ⟨o, ho, -⟩ := decode_eq_ok_iff.1 hi
    exact ho.not_illegalWord hw

/-- Settles O1, word by word. -/
theorem wordsDecodeAsTheTableSays : Obligations.WordsDecodeAsTheTableSays := by
  and_intros <;> decide

/-- Settles O59: the operand writes are those of A0, A1, ... and the CMD word is evaluated for both values of V and F. -/
theorem mnemonicsExpandToWindowWrites : Obligations.MnemonicsExpandToWindowWrites := by
  refine ⟨fun w h a e => by cases e <;> rfl, rfl, fun c => rfl, rfl,
    fun x y v => by cases v <;> rfl, fun x y => rfl, fun v => by cases v <;> rfl, fun i => rfl,
    fun t l w h v => by cases v <;> rfl, fun t l w h v => by cases v <;> rfl, fun a b c d v => by cases v <;> rfl,
    fun a b y v => by cases v <;> rfl, fun a b x v => by cases v <;> rfl, fun c x y => rfl,
    fun t x y => ⟨textWrites t, ?_, textWrites_length t, fun k c => textWrites_getElem?⟩,
    rfl, fun x y => ⟨rfl, rfl, rfl, rfl⟩, fun t l w h => rfl, fun w h a => rfl⟩
  rw [expandMnemonic_string, ← BitVec.ofInt_natCast]
  rfl

end Sys2Proof

/-! ### The sequencer -/

/-! #### What INIT does, by its checks (`40_sequencer.md` R140) -/

namespace Sys2Proof.Machine

/-- INIT runs in every state but FAILED. -/
theorem exec_init_of_ne_failed {s : State} (hf : s.opState ≠ .failed) (ext : Bool) :
    exec (.init ext) s = .next (s.initWith (size s.op0) (size s.op1) (size s.op2) ext) := by
  rcases h : s.opState with _ | _ | _ | _
  · simp only [exec, execInit, h]
  · simp only [exec, execInit, h]
  · simp only [exec, execInit, h]
  · exact absurd h hf

theorem exec_init_failed {s : State} (hf : s.opState = .failed) (ext : Bool) : exec (.init ext) s = .next s.finish := by
  simp only [exec, execInit, hf]

theorem State.initWith_illegal (s : State) {w h a : Nat} (hbad : ¬ geometryOK w h a) (ext : Bool) :
    s.initWith w h a ext = (s.raise .geom).finish :=
  if_pos hbad

theorem State.initWith_overflow (s : State) {w h a : Nat} (hok : geometryOK w h a)
    (hcap : Config.fbCapacity < bufferSize w h) (ext : Bool) : s.initWith w h a ext = s.initOverflow :=
  (if_neg (not_not.2 hok)).trans (if_pos hcap)

theorem State.initWith_fits (s : State) {w h a : Nat} (hok : geometryOK w h a)
    (hcap : bufferSize w h ≤ Config.fbCapacity) (ext : Bool) : s.initWith w h a ext = s.initSurface w h a ext :=
  (if_neg (not_not.2 hok)).trans (if_neg (not_lt.2 hcap))

/-- INIT records its operand registers as they are, A2 in the width of a bus address. -/
theorem initGeometry_of_words (w h a : Word) (ext : Bool) :
    initGeometry (size w) (size h) (size a) ext = {
      w := w, h := h, pages := BitVec.ofNat 16 (h.toNat / 8), bufsize := BitVec.ofNat 16 (h.toNat / 8 * w.toNat + 1),
      busAddr := a.setWidth 7, extvcc := ext } := by
  simp only [initGeometry, size, bufferSize, BitVec.ofNat_toNat, BitVec.setWidth_eq]

/-- The store after a successful INIT: the data marker, then zeros up to BUFSIZE, then what it was
(`40_sequencer.md` R143). -/
theorem State.initSurface_read {s : State} (hw : s.fb.wf) (w h a : Nat) (ext : Bool) (i : Nat) :
    Memory.read (s.initSurface w h a ext).fb i =
      if 0 = i then Config.dataMarker else if i < bufferSize w h then 0x00 else Memory.read s.fb i := by
  simp only [State.initSurface, State.finish_fb]
  rw [Memory.read_write (Memory.zeroBelow_wf hw _), Memory.read_zeroBelow]

/-- A CMD write in FAILED is discarded (`60_exceptions.md` R244). -/
theorem step_cmd_failed {s : State} {w : Word} {h : List HostAccess} {r : List Agent} (hs : s.schedule = .host :: r)
    (hh : s.host = .wr16 0x000 w :: h) (hb : s.busy = false) (hf : s.opState = .failed) :
    step s = .next { s with schedule := r, host := h } := by
  rw [step_wr16 hs hb (by decide) (by decide) hh, State.write16_eq, if_pos rfl]
  exact congrArg _ (if_pos hf)

/-! #### Every command but INIT (`60_exceptions.md` R245) -/

/-- Every command but INIT passes the check of STATE before its own body. -/
theorem exec_eq_whenOperational {i : Instr} (hi : ∀ e, i ≠ .init e) :
    ∃ body : State → State, ∀ s, exec i s = .next (s.whenOperational body) := by
  cases i with
  | init e => exact absurd rfl (hi e)
  | _ => exact ⟨_, fun _ => rfl⟩

theorem State.endsWithNoinit_of_reset {s : State} {i : Instr} (hi : ∀ e, i ≠ .init e) (hr : s.opState = .reset) :
    s.endsWithNoinit i := by
  obtain ⟨body, he⟩ := exec_eq_whenOperational hi
  unfold State.endsWithNoinit
  rw [he, State.whenOperational_reset hr]
  rfl

/-! #### What a bus command hands over first -/

theorem lowByte_eq_ofNat (v : Word) : lowByte v = BitVec.ofNat 8 (v.toNat % 256) :=
  BitVec.eq_of_toNat_eq (by simp [lowByte])

section
variable {s : State} (ho : s.opState.operational)
include ho

theorem exec_config : exec .config s = .next
    { s with phase := .running .config 0, pending := some (s.cmdTxn 0xAE) } :=
  (congrArg _ (State.whenOperational_of ho _)).trans (congrArg _ (State.emitFrom_some rfl))

theorem exec_sendCmd : exec .sendCmd s = .next
    { s with phase := .running .sendCmd 0, pending := some (s.cmdTxn (lowByte s.op0)) } :=
  (congrArg _ (State.whenOperational_of ho _)).trans (congrArg _ (State.emitFrom_some rfl))

/-- FLUSH raises W_UNCONF in UNCONFIGURED (`40_sequencer.md` R150). -/
theorem exec_flush : exec .flush s = .next { s with
    phase := .running .flush 0, pending := some (s.cmdTxn Config.cmdColAddr),
    sticky := { s.sticky with wUnconf := s.sticky.wUnconf || decide (s.opState = .unconfigured) } } := by
  have hwarn : (if s.opState = .unconfigured then s.raise .unconf else s) = { s with
      sticky := { s.sticky with wUnconf := s.sticky.wUnconf || decide (s.opState = .unconfigured) } } := by
    split
    · next h => simp [State.raise, Sticky.set, h]
    · next h => simp [h]
  refine (congrArg _ (State.whenOperational_of ho _)).trans (congrArg _ ?_)
  rw [hwarn]
  exact State.emitFrom_some rfl

end

/-! #### EXTVCC is read by nothing (`40_sequencer.md` R143) -/

/-- `s` with another value of EXTVCC. -/
def State.withExtvcc (s : State) (e : Bool) : State :=
  { s with geom := { s.geom with extvcc := e } }

section
variable (e : Bool)

theorem BusOp.txns_withExtvcc (s : State) (op : BusOp) : op.txns (s.withExtvcc e) = op.txns s := by
  cases op <;> rfl

theorem State.emitFrom_withExtvcc (s : State) (op : BusOp) (k : Nat) :
    (s.withExtvcc e).emitFrom op k = (s.emitFrom op k).withExtvcc e := by
  rcases h : (op.txns s)[k]? with _ | t
  · rw [State.emitFrom_none h, State.emitFrom_none ((BusOp.txns_withExtvcc e s op).symm ▸ h)]
    rfl
  · rw [State.emitFrom_some h, State.emitFrom_some ((BusOp.txns_withExtvcc e s op).symm ▸ h)]
    rfl

theorem State.transportTurn_withExtvcc (s : State) :
    (s.withExtvcc e).transportTurn = s.transportTurn.withExtvcc e := by
  rcases ht : s.pending with _ | t
  · rw [State.transportTurn_none ht, State.transportTurn_none (s := s.withExtvcc e) ht]
  rcases hp : s.phase with _ | _ | ⟨op, k⟩
  · simp only [State.transportTurn, State.withExtvcc, ht, hp]
  · simp only [State.transportTurn, State.withExtvcc, ht, hp]
  · rw [State.transportTurn_running hp ht, State.transportTurn_running (s := s.withExtvcc e) hp ht]
    exact State.emitFrom_withExtvcc e { s with log := s.log ++ [t], pending := none } op (k + 1)

theorem State.whenOperational_withExtvcc {s : State} {body : State → State}
    (hb : body (s.withExtvcc e) = (body s).withExtvcc e) :
    (s.withExtvcc e).whenOperational body = (s.whenOperational body).withExtvcc e := by
  rcases State.whenOperational_cases s body with ⟨h, hs⟩ | ⟨h, hs⟩ | ⟨h, hs⟩ <;> rw [hs]
  · exact State.whenOperational_failed (s := s.withExtvcc e) h body
  · exact State.whenOperational_reset (s := s.withExtvcc e) h body
  · exact (State.whenOperational_of (s := s.withExtvcc e) h body).trans hb

theorem State.pixelWrite_withExtvcc (s : State) (x y : Int) (v : Bool) :
    (s.withExtvcc e).pixelWrite x y v = (s.pixelWrite x y v).withExtvcc e := by
  unfold State.pixelWrite
  rw [apply_ite (State.withExtvcc · e)]
  rfl

theorem State.draw_withExtvcc (s : State) (ds : List Dot) :
    (s.withExtvcc e).draw ds = (s.draw ds).withExtvcc e :=
  List.foldl_hom (State.withExtvcc · e) fun t d => t.pixelWrite_withExtvcc e d.x d.y d.v

theorem State.blit_withExtvcc (s : State) (c : Byte) (x y : Int) :
    (s.withExtvcc e).blit c x y = (s.blit c x y).withExtvcc e := by
  unfold State.blit
  rw [← State.draw_withExtvcc, apply_ite (State.withExtvcc · e)]
  rfl

theorem State.blitAll_withExtvcc (s : State) (cells : List GlyphCell) :
    (s.withExtvcc e).blitAll cells = (s.blitAll cells).withExtvcc e :=
  List.foldl_hom (State.withExtvcc · e) fun t g => t.blit_withExtvcc e g.c g.x g.y

theorem State.drawString_withExtvcc (s : State) (n : Nat) (x y : Int) :
    (s.withExtvcc e).drawString n x y = (s.drawString n x y).withExtvcc e := by
  unfold State.drawString
  split
  · rfl
  · exact congrArg State.finish (s.blitAll_withExtvcc e _)

theorem State.resultFromPixel_withExtvcc (s : State) (x y : Int) :
    (s.withExtvcc e).resultFromPixel x y = (s.resultFromPixel x y).withExtvcc e := by
  unfold State.resultFromPixel
  rw [apply_ite (State.withExtvcc · e)]
  rfl

theorem State.resultFromByte_withExtvcc (s : State) (i : Nat) :
    (s.withExtvcc e).resultFromByte i = (s.resultFromByte i).withExtvcc e := by
  unfold State.resultFromByte
  rw [apply_ite (State.withExtvcc · e)]
  rfl

/-- With another value of EXTVCC every command but INIT does the same and leaves it. -/
theorem exec_withExtvcc {i : Instr} (hi : ∀ b, i ≠ .init b) {s t : State} (h : exec i s = .next t) :
    exec i (s.withExtvcc e) = .next (t.withExtvcc e) := by
  have hgate := @State.whenOperational_withExtvcc e s
  cases i with
  | init b => exact absurd rfl (hi b)
  | config => cases h; exact congrArg _ (hgate (s.emitFrom_withExtvcc e .config 0))
  | sendCmd => cases h; exact congrArg _ (hgate (s.emitFrom_withExtvcc e .sendCmd 0))
  | flush =>
    cases h
    refine congrArg _ (hgate ?_)
    rw [← State.emitFrom_withExtvcc, apply_ite (State.withExtvcc · e)]
    rfl
  | setPixel => cases h; exact congrArg _ (hgate (congrArg State.finish (s.pixelWrite_withExtvcc e _ _ _)))
  | getPixel => cases h; exact congrArg _ (hgate (congrArg State.finish (s.resultFromPixel_withExtvcc e _ _)))
  | readFb => cases h; exact congrArg _ (hgate (congrArg State.finish (s.resultFromByte_withExtvcc e _)))
  | fill | rect | line | hline | vline =>
    cases h
    exact congrArg _ (hgate (congrArg State.finish (s.draw_withExtvcc e _)))
  | char => cases h; exact congrArg _ (hgate (congrArg State.finish (s.blit_withExtvcc e _ _ _)))
  | string => cases h; exact congrArg _ (hgate (s.drawString_withExtvcc e _ _ _))

/-- INIT goes the same way for every value of EXTVCC: it overwrites it, or ends and leaves it. -/
theorem exec_init_withExtvcc {s t : State} {ext : Bool} (h : exec (.init ext) s = .next t) :
    exec (.init ext) (s.withExtvcc e) = .next t ∨ exec (.init ext) (s.withExtvcc e) = .next (t.withExtvcc e) := by
  by_cases hf : s.opState = .failed
  · rw [exec_init_failed hf] at h
    cases h
    exact .inr (exec_init_failed (s := s.withExtvcc e) hf ext)
  rw [exec_init_of_ne_failed hf] at h
  cases h
  rw [exec_init_of_ne_failed (s := s.withExtvcc e) hf]
  by_cases hok : geometryOK (size s.op0) (size s.op1) (size s.op2)
  · rcases le_or_gt (bufferSize (size s.op0) (size s.op1)) Config.fbCapacity with hcap | hcap
    · left
      rw [State.initWith_fits s hok hcap]
      exact congrArg _ (State.initWith_fits (s.withExtvcc e) hok hcap ext)
    · right
      rw [State.initWith_overflow s hok hcap]
      exact congrArg _ (State.initWith_overflow (s.withExtvcc e) hok hcap ext)
  · right
    rw [State.initWith_illegal s hok]
    exact congrArg _ (State.initWith_illegal (s.withExtvcc e) hok ext)

/-- The transport's turn goes the same way for every value of EXTVCC. -/
theorem step_transport_withExtvcc {s t : State} {r : List Agent} (hs : s.schedule = .transport :: r)
    (h : step s = .next t) : step (s.withExtvcc e) = .next (t.withExtvcc e) := by
  have hstep : ∀ u : State, u.schedule = .transport :: r → step u = .next { u with schedule := r }.transportTurn :=
    fun u hu => by simp only [step, hu]
  rw [hstep s hs] at h
  cases h
  rw [hstep (s.withExtvcc e) hs]
  exact congrArg _ (State.transportTurn_withExtvcc e { s with schedule := r })

end

end Sys2Proof.Machine

namespace Sys2Proof

open Sys2Proof.Machine

/-- Settles O19: the three checks pass, and no operation but INIT's own write names EXTVCC. -/
theorem initRecordsGeometryAndClearsBuffer : Obligations.InitRecordsGeometryAndClearsBuffer := by
  refine ⟨fun s ext hf hwf => ?_, fun s t i e hi h => exec_withExtvcc e hi h,
    fun s t ext e h => exec_init_withExtvcc e h, fun s t e r hs h => step_transport_withExtvcc e hs h⟩
  intro w h hw1 hw2 hh1 hh2 h8 ha hcap
  have hok : geometryOK (size s.op0) (size s.op1) (size s.op2) := ⟨hw1, hw2, hh1, hh2, h8, ha⟩
  have hread := State.initSurface_read hwf (size s.op0) (size s.op1) (size s.op2) ext
  refine ⟨(s.initSurface (size s.op0) (size s.op1) (size s.op2) ext).fb, ?_, hread 0, fun i h1 hi => ?_, fun i hi => ?_⟩
  · rw [exec_init_of_ne_failed hf, State.initWith_fits s hok hcap]
    simp only [State.initSurface, initGeometry_of_words]
    rfl
  · exact (hread i).trans ((if_neg (by omega)).trans (if_pos hi))
  · exact (hread i).trans ((if_neg (by omega)).trans (if_neg (not_lt.2 hi)))

/-- Settles O20: the first check of INIT fails. -/
theorem initOfIllegalGeometryOnlySetsFGeom : Obligations.InitOfIllegalGeometryOnlySetsFGeom := by
  intro s ext hf hbad
  exact (exec_init_of_ne_failed hf ext).trans (congrArg _ (State.initWith_illegal s hbad ext))

/-- Settles O21: the second check of INIT fails, and the state it leaves discards a CMD write. -/
theorem initBeyondTheStoreIsFatal : Obligations.InitBeyondTheStoreIsFatal := by
  intro s ext hf hw1 hw2 hh1 hh2 h8 ha hcap
  refine ⟨s.initOverflow.fb, s.initOverflow.draws, ?_, fun w h r => step_cmd_failed rfl rfl rfl rfl⟩
  exact (exec_init_of_ne_failed hf ext).trans
    (congrArg _ (State.initWith_overflow s ⟨hw1, hw2, hh1, hh2, h8, ha⟩ hcap ext))

/-- Settles O22: the transactions of CONFIG are its 25 command bytes, and reports send them one by one. -/
theorem configSendsItsSequenceAndBecomesActive : Obligations.ConfigSendsItsSequenceAndBecomesActive := by
  refine ⟨rfl, fun s hr => State.endsWithNoinit_of_reset nofun hr, fun s ho => ?_⟩
  refine ⟨_, exec_config ho, rfl, fun k hk => ?_, ?_⟩
  · rw [State.reports_running (op := .config) rfl rfl k hk]
    exact ⟨rfl, rfl, rfl⟩
  · exact State.reports_all (op := .config) rfl rfl

/-- Settles O23: SEND_CMD has one transaction, so one report ends it. -/
theorem sendCmdSendsOneCommand : Obligations.SendCmdSendsOneCommand := by
  refine ⟨rfl, fun s hr => State.endsWithNoinit_of_reset nofun hr, fun s ho => ?_⟩
  dsimp only
  rw [← lowByte_eq_ofNat]
  exact ⟨exec_sendCmd ho, State.reports_all (op := .sendCmd) rfl rfl⟩

/-- Settles O24: the transactions of FLUSH are the window and the frame, and seven reports send them. -/
theorem flushSendsWindowThenFrame : Obligations.FlushSendsWindowThenFrame := by
  refine ⟨rfl, fun s hr => State.endsWithNoinit_of_reset nofun hr, fun s ho => ⟨_, exec_flush ho, rfl, ?_⟩⟩
  rw [List.append_assoc]
  exact State.reports_all (op := .flush) rfl rfl

end Sys2Proof

/-! ### The pixels -/

namespace Sys2Proof.Machine

/-! #### What each command of the family does in an operational state -/

section
variable {s : State} (ho : s.opState.operational)
include ho

theorem exec_setPixel (v : Bool) :
    exec (.setPixel v) s = .next (s.draw [⟨s.latch.regs.a0.toInt, s.latch.regs.a1.toInt, v⟩]).finish :=
  congrArg _ (State.whenOperational_of ho _)

theorem exec_getPixel : exec .getPixel s = .next (s.resultFromPixel s.latch.regs.a0.toInt s.latch.regs.a1.toInt).finish :=
  congrArg _ (State.whenOperational_of ho _)

theorem exec_fill (v : Bool) : exec (.fill v) s = .next (s.draw (fillDots s.geom.w.toNat s.geom.h.toNat v)).finish :=
  congrArg _ (State.whenOperational_of ho _)

theorem exec_readFb : exec .readFb s = .next (s.resultFromByte s.latch.regs.a0.toNat).finish :=
  congrArg _ (State.whenOperational_of ho _)

end

theorem State.resultFromPixel_inRange {s : State} {x y : Int} (h : s.geom.inRange x y) :
    s.resultFromPixel x y = { s with result := if pixelAt s.geom s.fb x y then 1 else 0 } :=
  if_pos h

theorem State.resultFromPixel_outOfRange {s : State} {x y : Int} (h : ¬ s.geom.inRange x y) :
    s.resultFromPixel x y = { s.raise .oob with result := 0 } :=
  if_neg h

theorem State.resultFromByte_below {s : State} {i : Nat} (h : i < s.geom.bufsize.toNat) :
    s.resultFromByte i = { s with result := (s.fb.read i).setWidth 16 } :=
  if_pos h

theorem State.resultFromByte_beyond {s : State} {i : Nat} (h : s.geom.bufsize.toNat ≤ i) :
    s.resultFromByte i = { s.raise .oob with result := 0 } :=
  if_neg (not_lt.2 h)

/-- A pixel as the shift and mask of its byte (`20_memory.md` R68). -/
theorem pixelAt_word (g : Geometry) (m : Memory) (x y : Int) :
    (if pixelAt g m x y then 1 else 0 : Word) =
      BitVec.ofNat 16 ((Memory.read m (g.pixelIndex x y)).toNat >>> pixelBit y % 2) := by
  rw [Nat.shiftRight_eq_div_pow, ← Nat.toNat_testBit]
  unfold pixelAt BitVec.getLsbD
  cases Nat.testBit _ _ <;> rfl

/-! #### Pixel writes that are in range, that change nothing, and that are overwritten -/

/-- Writes of in-range pixels raise nothing. -/
theorem State.draw_of_inRange {s : State} {ds : List Dot} (h : ∀ d ∈ ds, s.geom.inRange d.x d.y) :
    s.draw ds = { s with fb := (s.draw ds).fb } := by
  have hoob : (s.draw ds).sticky.fOob = s.sticky.fOob := by
    rw [Bool.eq_iff_iff, State.draw_oob]
    exact or_iff_left fun ⟨d, hd, hout⟩ => hout (h d hd)
  rw [State.draw_frame, hoob]

/-- Writing the value a pixel has changes nothing. -/
theorem State.pixelWrite_eq_self {s : State} (hw : s.fb.wf) {x y : Int} {v : Bool} (hin : s.geom.inRange x y)
    (hv : pixelAt s.geom s.fb x y = v) : s.pixelWrite x y v = s := by
  have hbyte : putBit (Memory.read s.fb (s.geom.pixelIndex x y)) (pixelBit y) v =
      Memory.read s.fb (s.geom.pixelIndex x y) := by
    refine BitVec.eq_of_getLsbD_eq fun j _ => ?_
    rw [putBit_getLsbD _ (pixelBit_lt y)]
    split
    · next hj => rw [hj, ← hv, pixelAt]
    · rfl
  have hfb : Memory.write s.fb (s.geom.pixelIndex x y) (Memory.read s.fb (s.geom.pixelIndex x y)) = s.fb := by
    refine Memory.ext_read (Memory.write_wf hw _ _) hw fun i => ?_
    rw [Memory.read_write hw]
    split
    · next hi => rw [hi]
    · rfl
  simp only [State.pixelWrite, if_pos hin, hbyte, hfb]

/-- Writing the values the pixels have changes nothing. -/
theorem State.draw_eq_self {s : State} (hw : s.fb.wf) {ds : List Dot}
    (h : ∀ d ∈ ds, s.geom.inRange d.x d.y ∧ pixelAt s.geom s.fb d.x d.y = d.v) : s.draw ds = s := by
  induction ds with
  | nil => rfl
  | cons d ds ih =>
    obtain ⟨hin, hv⟩ := h d (by simp)
    rw [State.draw_cons, State.pixelWrite_eq_self hw hin hv]
    exact ih fun e he => h e (List.mem_cons_of_mem d he)

/-- The frame buffer keeps no trace of pixel writes once writes of one value have gone to all their pixels. -/
theorem State.draw_overwritten_fb {s : State} (hw : s.fb.wf) (hg : s.geom.legal) {v : Bool} {ds es : List Dot}
    (he : ∀ e ∈ es, e.v = v) (hcover : ∀ d ∈ ds, ∃ e ∈ es, e.x = d.x ∧ e.y = d.y) :
    ((s.draw ds).draw es).fb = (s.draw es).fb := by
  have hw' := State.draw_wf hw ds
  have hgeom := State.draw_geom s ds
  have hg' : (s.draw ds).geom.legal := hgeom ▸ hg
  refine Memory.ext_pixels hg (State.draw_wf hw' es) (State.draw_wf hw es) (fun x y hin => ?_) fun a ha => ?_
  · have hin' : (s.draw ds).geom.inRange x y := hgeom ▸ hin
    by_cases hit : ∃ e ∈ es, e.x = x ∧ e.y = y
    · have hagain := State.draw_pixelAt_hit hw' hg' hin' (fun e hm _ _ => he e hm) hit
      rw [hgeom] at hagain
      rw [hagain, State.draw_pixelAt_hit hw hg hin (fun e hm _ _ => he e hm) hit]
    · have hmiss : ∀ e ∈ es, ¬ (e.x = x ∧ e.y = y) := fun e hm hxy => hit ⟨e, hm, hxy⟩
      have hagain := State.draw_pixelAt_other hw' hg' hin' hmiss
      rw [hgeom] at hagain
      rw [hagain, State.draw_pixelAt_other hw hg hin hmiss]
      refine State.draw_pixelAt_other hw hg hin ?_
      rintro d hd ⟨rfl, rfl⟩
      exact hit (hcover d hd)
  · rw [State.draw_read_outside hw' hg' es (hgeom ▸ ha), State.draw_read_outside hw hg ds ha,
      State.draw_read_outside hw hg es ha]

/-- Pixel writes leave no trace once writes of one value have gone to all their pixels (`41_pixel.md` R174). -/
theorem State.draw_overwritten {s : State} (hw : s.fb.wf) (hg : s.geom.legal) {v : Bool} {ds es : List Dot}
    (he : ∀ e ∈ es, e.v = v) (hcover : ∀ d ∈ ds, ∃ e ∈ es, e.x = d.x ∧ e.y = d.y) :
    (s.draw ds).draw es = s.draw es := by
  have hoob : ((s.draw ds).draw es).sticky.fOob = (s.draw es).sticky.fOob := by
    rw [Bool.eq_iff_iff, State.draw_oob, State.draw_oob, State.draw_oob, State.draw_geom, or_assoc]
    refine or_congr_right (or_iff_right_of_imp ?_)
    rintro ⟨d, hd, hout⟩
    obtain ⟨e, hm, hx, hy⟩ := hcover d hd
    exact ⟨e, hm, hx ▸ hy ▸ hout⟩
  rw [State.draw_frame (s.draw ds) es, State.draw_frame s es, State.draw_overwritten_fb hw hg he hcover, hoob,
    State.draw_frame s ds]

/-- What a pixel reads after two pixel writes: the later one counts. -/
theorem State.pixelWrite_pixelWrite_pixelAt {s : State} (hw : s.fb.wf) (hg : s.geom.legal) {x y x' y' : Int}
    (v v' : Bool) {a b : Int} (hin : s.geom.inRange a b) :
    pixelAt s.geom ((s.pixelWrite x y v).pixelWrite x' y' v').fb a b =
      if x' = a ∧ y' = b then v' else if x = a ∧ y = b then v else pixelAt s.geom s.fb a b := by
  have hgeom := State.pixelWrite_geom s x y v
  have hlater := State.pixelWrite_pixelAt (State.pixelWrite_wf hw x y v) (hgeom ▸ hg) x' y' v' (hgeom ▸ hin)
  rwa [hgeom, State.pixelWrite_pixelAt hw hg x y v hin] at hlater

/-- Writes of different pixels leave the same frame buffer in either order (`41_pixel.md` R174). -/
theorem State.draw_swap_fb {s : State} (hw : s.fb.wf) (hg : s.geom.legal) {d e : Dot}
    (hne : ¬ (d.x = e.x ∧ d.y = e.y)) : (s.draw [d, e]).fb = (s.draw [e, d]).fb := by
  refine Memory.ext_pixels hg (State.draw_wf hw _) (State.draw_wf hw _) (fun a b hin => ?_) fun a ha => ?_
  · simp only [State.draw_cons, State.draw_nil, State.pixelWrite_pixelWrite_pixelAt hw hg _ _ hin]
    by_cases hd : d.x = a ∧ d.y = b
    · have he : ¬ (e.x = a ∧ e.y = b) := fun he => hne ⟨hd.1.trans he.1.symm, hd.2.trans he.2.symm⟩
      simp only [hd, he, and_self, if_true, if_false]
    · rw [if_neg hd, if_neg hd]
  · rw [State.draw_read_outside hw hg _ ha, State.draw_read_outside hw hg _ ha]

/-! #### What a command finds after SET_PIXEL -/

@[simp] theorem State.draw_opState (s : State) (ds : List Dot) : (s.draw ds).opState = s.opState := by
  rw [State.draw_frame]

@[simp] theorem State.draw_latch (s : State) (ds : List Dot) : (s.draw ds).latch = s.latch := by
  rw [State.draw_frame]

/-- A second SET_PIXEL with the same operands leaves what it would have left alone. -/
theorem exec_setPixel_again {s : State} (hr : s.ready) (v v' : Bool) :
    exec (.setPixel v') (s.draw [⟨s.latch.regs.a0.toInt, s.latch.regs.a1.toInt, v⟩]).finish =
      .next (s.draw [⟨s.latch.regs.a0.toInt, s.latch.regs.a1.toInt, v'⟩]).finish := by
  obtain ⟨ho, hg, hw⟩ := hr
  rw [exec_setPixel (by rwa [State.finish_opState, State.draw_opState]), State.finish_draw, State.finish_latch,
    State.draw_latch, State.draw_overwritten hw hg (v := v') (by simp) (by simp)]
  rfl

/-- GET_PIXEL reads back what SET_PIXEL wrote (`41_pixel.md` R174). -/
theorem exec_getPixel_after_setPixel {s : State} (hr : s.ready) (v : Bool)
    (hin : s.geom.inRange s.latch.regs.a0.toInt s.latch.regs.a1.toInt) :
    ∃ u, exec .getPixel (s.draw [⟨s.latch.regs.a0.toInt, s.latch.regs.a1.toInt, v⟩]).finish = .next u ∧
      u.result = if v then 1 else 0 := by
  obtain ⟨ho, hg, hw⟩ := hr
  have hread := State.draw_pixelAt_hit (ds := [⟨s.latch.regs.a0.toInt, s.latch.regs.a1.toInt, v⟩]) (v := v) hw hg hin
    (by simp) (by simp)
  refine ⟨_, exec_getPixel (by rwa [State.finish_opState, State.draw_opState]), ?_⟩
  rw [State.finish_result, State.finish_latch, State.draw_latch, State.resultFromPixel_inRange (by simpa using hin),
    State.finish_geom, State.draw_geom, State.finish_fb, hread]

/-- What SET_PIXEL with the operands `p` leaves of the fields a second SET_PIXEL reads. -/
theorem exec_setPixel_withOperands {s : State} (ho : s.opState.operational) (v : Bool) (p : OperandRegs) :
    ∃ t, exec (.setPixel v) (s.withOperands p) = .next t ∧ t.opState = s.opState ∧ t.geom = s.geom ∧
      t.fb = (s.draw [⟨p.a0.toInt, p.a1.toInt, v⟩]).fb := by
  refine ⟨_, exec_setPixel (by simpa using ho) v, ?_, ?_, ?_⟩
  · rw [State.finish_opState, State.draw_opState, State.withOperands_opState]
  · rw [State.finish_geom, State.draw_geom, State.withOperands_geom]
  · rw [State.finish_fb, State.withOperands_latch]
    exact State.draw_fb_congr (by rfl) (by rfl) _

/-- Two SET_PIXELs with operands of their own leave the frame buffer of their two pixel writes. -/
theorem exec_setPixel_twice {s : State} (ho : s.opState.operational) (v v' : Bool) (p q : OperandRegs) :
    ∃ t u, exec (.setPixel v) (s.withOperands p) = .next t ∧ exec (.setPixel v') (t.withOperands q) = .next u ∧
      u.fb = (s.draw [⟨p.a0.toInt, p.a1.toInt, v⟩, ⟨q.a0.toInt, q.a1.toInt, v'⟩]).fb := by
  obtain ⟨t, ht, hstate, hgeom, hfb⟩ := exec_setPixel_withOperands ho v p
  obtain ⟨u, hu, -, -, hfb'⟩ := exec_setPixel_withOperands (hstate ▸ ho) v' q
  refine ⟨t, u, ht, hu, ?_⟩
  rw [hfb', State.draw_fb_congr (hgeom.trans (State.draw_geom ..).symm) hfb, ← State.draw_append, List.singleton_append]

/-! #### The frame buffer after FILL -/

/-- FILL writes exactly the pixels of the surface (`41_pixel.md` R172). -/
theorem Geometry.mem_fillDots {g : Geometry} {v : Bool} {d : Dot} :
    d ∈ fillDots g.w.toNat g.h.toNat v ↔ d.v = v ∧ g.inRange d.x d.y :=
  Machine.mem_fillDots

theorem Geometry.exists_fillDot_iff (g : Geometry) (v : Bool) (x y : Int) :
    (∃ d ∈ fillDots g.w.toNat g.h.toNat v, d.x = x ∧ d.y = y) ↔ g.inRange x y := by
  constructor
  · rintro ⟨d, hd, rfl, rfl⟩
    exact (Geometry.mem_fillDots.1 hd).2
  · exact fun hin => ⟨⟨x, y, v⟩, Geometry.mem_fillDots.2 ⟨rfl, hin⟩, rfl, rfl⟩

/-- Every bit of a pixel byte is FILL's value (`41_pixel.md` R172). -/
theorem State.draw_fillDots_read {s : State} (hw : s.fb.wf) (hg : s.geom.legal) (v : Bool) {i : Nat} (h1 : 1 ≤ i)
    (h2 : i ≤ s.geom.pages.toNat * s.geom.w.toNat) :
    Memory.read (s.draw (fillDots s.geom.w.toNat s.geom.h.toNat v)).fb i = if v then 0xFF else 0x00 := by
  refine BitVec.eq_of_getLsbD_eq fun b hb => ?_
  obtain ⟨x, y, hin, hi, hy⟩ := Geometry.pixel_of_bit hg h1 h2 (Nat.le_of_lt_succ hb)
  have hpixel := State.draw_pixelAt_hit hw hg hin (fun d hd _ _ => (Geometry.mem_fillDots.1 hd).1)
    ((s.geom.exists_fillDot_iff v x y).2 hin)
  rw [pixelAt, hi, hy] at hpixel
  rw [hpixel]
  cases v
  · simp
  · exact (BitVec.getLsbD_allOnes.trans (decide_eq_true hb)).symm

/-- A second FILL leaves what it would have left alone. -/
theorem exec_fill_again {s : State} (hr : s.ready) (v v' : Bool) :
    exec (.fill v') (s.draw (fillDots s.geom.w.toNat s.geom.h.toNat v)).finish =
      .next (s.draw (fillDots s.geom.w.toNat s.geom.h.toNat v')).finish := by
  obtain ⟨ho, hg, hw⟩ := hr
  rw [exec_fill (by rwa [State.finish_opState, State.draw_opState]), State.finish_draw, State.finish_geom,
    State.draw_geom, State.draw_overwritten hw hg (fun d hd => (Geometry.mem_fillDots.1 hd).1) fun d hd =>
      (s.geom.exists_fillDot_iff v' d.x d.y).2 (Geometry.mem_fillDots.1 hd).2]
  rfl

/-- A successful INIT leaves a state ready for drawing (`40_sequencer.md` R143). -/
theorem State.initSurface_ready {s : State} (hw : s.fb.wf) {w h a : Nat} (hok : geometryOK w h a)
    (hcap : bufferSize w h ≤ Config.fbCapacity) (ext : Bool) : (s.initSurface w h a ext).ready :=
  ⟨.inl rfl, initGeometry_legal hok hcap ext, Memory.write_wf (Memory.zeroBelow_wf hw _) _ _⟩

/-- After a successful INIT every pixel is 0 (`40_sequencer.md` R143). -/
theorem State.initSurface_pixelAt {s : State} (hw : s.fb.wf) {w h a : Nat} (hok : geometryOK w h a)
    (hcap : bufferSize w h ≤ Config.fbCapacity) (ext : Bool) {x y : Int} (hin : (initGeometry w h a ext).inRange x y) :
    pixelAt (initGeometry w h a ext) (s.initSurface w h a ext).fb x y = false := by
  have hg := initGeometry_legal hok hcap ext
  have hindex := Geometry.pixelIndex_bounds hg hin
  obtain ⟨-, -, -, -, -, -, hsize, -⟩ := hg
  have hbufsize : (initGeometry w h a ext).bufsize.toNat = bufferSize w h :=
    (BitVec.toNat_ofNat ..).trans (Nat.mod_eq_of_lt (hcap.trans_lt (by decide)))
  rw [pixelAt, State.initSurface_read hw, if_neg (by omega), if_pos (by omega)]
  exact BitVec.getLsbD_zero

end Sys2Proof.Machine

namespace Sys2Proof

open Sys2Proof.Machine

/-- Settles O28: SET_PIXEL is the pixel write of its operands. -/
theorem setPixelDrawsOnePixel : Obligations.SetPixelDrawsOnePixel := by
  intro s v hr
  refine ⟨rfl, State.drawsExactly_of_draw hr (exec_setPixel hr.1 v) (by simp) fun x y => ?_⟩
  simp [eq_comm]

/-- Settles O29: GET_PIXEL by whether the pixel is in range, and the pixel as the shifted byte. -/
theorem getPixelReadsOnePixel : Obligations.GetPixelReadsOnePixel := by
  refine ⟨rfl, fun s ho => ⟨fun hin => ?_, fun hout => ?_⟩⟩
  · rw [exec_getPixel ho, State.resultFromPixel_inRange hin, pixelAt_word]
    rfl
  · rw [exec_getPixel ho, State.resultFromPixel_outOfRange hout]
    rfl

/-- Settles O30: the pixel writes of FILL are those of the surface. -/
theorem fillDrawsEveryPixel : Obligations.FillDrawsEveryPixel := by
  intro s v hr
  exact ⟨rfl, State.drawsExactly_of_draw hr (exec_fill hr.1 v)
    (fun d hd => (Geometry.mem_fillDots.1 hd).1) fun x y => (s.geom.exists_fillDot_iff v x y).symm⟩

/-- Settles O31: every bit of a pixel byte is a pixel of the surface, and no write is out of range. -/
theorem fillSetsEveryPixelByte : Obligations.FillSetsEveryPixelByte := by
  rintro s v ⟨ho, hg, hw⟩
  refine ⟨_, ?_, fun i h1 h2 => State.draw_fillDots_read hw hg v h1 h2, fun i hi => State.draw_read_outside hw hg _ hi⟩
  rw [exec_fill ho, State.draw_of_inRange fun d hd => (Geometry.mem_fillDots.1 hd).2]
  rfl

/-- Settles O34: the later of two writes of a pixel counts, and writes of different pixels commute. -/
theorem pixelWritesObeyThePixelLaws : Obligations.PixelWritesObeyThePixelLaws := by
  refine ⟨fun s v hr hin => ?_, fun s hr hin hclear => ?_, fun s v v' p q hr _ _ hne => ?_⟩
  · obtain ⟨u, hu, hresult⟩ := exec_getPixel_after_setPixel hr v hin
    exact ⟨_, u, exec_setPixel hr.1 v, hu, hresult, exec_setPixel_again hr v v⟩
  · refine ⟨_, _, exec_setPixel hr.1 true, exec_setPixel_again hr true false, ?_⟩
    rw [State.draw_eq_self hr.2.2 (by simpa using ⟨hin, hclear⟩)]
  · obtain ⟨ho, hg, hw⟩ := hr
    obtain ⟨t, u, ht, hu, hfb⟩ := exec_setPixel_twice ho v v' p q
    obtain ⟨t', u', ht', hu', hfb'⟩ := exec_setPixel_twice ho v' v q p
    refine ⟨t, u, t', u', ht, hu, ht', hu', ?_⟩
    rw [hfb, hfb']
    exact State.draw_swap_fb hw hg fun h => hne ⟨BitVec.toInt_inj.1 h.1, BitVec.toInt_inj.1 h.2⟩

/-- Settles O35: the second FILL overwrites the first, and every pixel is 0 after INIT. -/
theorem fillRoundTripRestoresTheInitState : Obligations.FillRoundTripRestoresTheInitState := by
  intro s ext hf hw hw1 hw2 hh1 hh2 h8 ha hcap
  have hok : geometryOK (size s.op0) (size s.op1) (size s.op2) := ⟨hw1, hw2, hh1, hh2, h8, ha⟩
  have hr := State.initSurface_ready hw hok hcap ext
  refine ⟨_, _, (exec_init_of_ne_failed hf ext).trans (congrArg _ (State.initWith_fits s hok hcap ext)),
    exec_fill hr.1 true, ?_⟩
  rw [exec_fill_again hr, State.draw_eq_self hr.2.2 fun d hd => ?_]
  · rfl
  · obtain ⟨hv, hin⟩ := Geometry.mem_fillDots.1 hd
    exact ⟨hin, (State.initSurface_pixelAt hw hok hcap ext hin).trans hv.symm⟩

/-- Settles O32: READ_FB by whether the index is below BUFSIZE; byte 0 is, and holds the data prefix. -/
theorem readFbReadsOneByte : Obligations.ReadFbReadsOneByte := by
  refine ⟨rfl, fun s ho => ⟨fun hlt => ?_, fun hge => ?_, fun hinv h0 => ?_⟩⟩
  · rw [exec_readFb ho, State.resultFromByte_below hlt, BitVec.ofNat_toNat]
    rfl
  · rw [exec_readFb ho, State.resultFromByte_beyond hge]
    rfl
  · obtain ⟨-, -, -, -, -, -, hsize, -⟩ := hinv.geometryLegal ho
    have hzero : s.latch.regs.a0.toNat = 0 := congrArg BitVec.toNat h0
    rw [exec_readFb ho, hzero, State.resultFromByte_below (by omega), hinv.dataMarker ho]
    rfl

end Sys2Proof

/-! ### The shapes -/

namespace Sys2Proof.Machine

/-! #### What each command of the family does in an operational state -/

/-- The pixel writes of LINE, in the order of its loop (`42_shapes.md` R194). -/
def lineDots (x0 y0 x1 y1 : Int) (v : Bool) : List Dot :=
  (linePixels x0 y0 x1 y1).map fun p => ⟨p.1, p.2, v⟩

theorem mem_lineDots {x0 y0 x1 y1 : Int} {v : Bool} {d : Dot} :
    d ∈ lineDots x0 y0 x1 y1 v ↔ d.v = v ∧ (d.x, d.y) ∈ linePixels x0 y0 x1 y1 := by
  obtain ⟨x, y, u⟩ := d
  simp only [lineDots, List.mem_map, Dot.mk.injEq]
  constructor
  · rintro ⟨p, hp, rfl, rfl, rfl⟩
    exact ⟨rfl, hp⟩
  · rintro ⟨rfl, hp⟩
    exact ⟨(x, y), hp, rfl, rfl, rfl⟩

section
variable {s : State} (ho : s.opState.operational)
include ho

theorem exec_rect (v f : Bool) :
    exec (.rect v f) s = .next (s.draw (rectDots s.latch.regs.a0.toInt s.latch.regs.a1.toInt
      s.latch.regs.a2.toNat s.latch.regs.a3.toNat v f)).finish :=
  congrArg _ (State.whenOperational_of ho _)

theorem exec_line (v : Bool) :
    exec (.line v) s = .next (s.draw (lineDots s.latch.regs.a0.toInt s.latch.regs.a1.toInt
      s.latch.regs.a2.toInt s.latch.regs.a3.toInt v)).finish :=
  congrArg _ (State.whenOperational_of ho _)

theorem exec_hline (v : Bool) :
    exec (.hline v) s = .next (s.draw (hlineDots s.latch.regs.a0.toInt s.latch.regs.a1.toInt
      s.latch.regs.a2.toInt v)).finish :=
  congrArg _ (State.whenOperational_of ho _)

theorem exec_vline (v : Bool) :
    exec (.vline v) s = .next (s.draw (vlineDots s.latch.regs.a0.toInt s.latch.regs.a1.toInt
      s.latch.regs.a2.toInt v)).finish :=
  congrArg _ (State.whenOperational_of ho _)

end

/-- A command whose pixel writes are those of value `v` to the pixels of `P` draws exactly `P`. -/
theorem State.drawsExactly_of_mem {s : State} (hr : s.ready) {i : Instr} {v : Bool} {ds : List Dot}
    {P : Int → Int → Prop} (he : exec i s = .next (s.draw ds).finish) (hm : ∀ d, d ∈ ds ↔ d.v = v ∧ P d.x d.y) :
    s.drawsExactly i v P := by
  refine State.drawsExactly_of_draw hr he (fun d hd => ((hm d).1 hd).1) fun x y => ⟨fun hp => ?_, ?_⟩
  · exact ⟨⟨x, y, v⟩, (hm _).2 ⟨rfl, hp⟩, rfl, rfl⟩
  · rintro ⟨d, hd, rfl, rfl⟩
    exact ((hm d).1 hd).2

/-- A command whose pixel writes are of one value, and are chosen by the latch and the geometry alone, leaves its own
result unchanged when it is performed again (`42_shapes.md` R199). -/
theorem exec_twice {s : State} (hr : s.ready) {i : Instr} {v : Bool} (ds : Latch → Geometry → List Dot)
    (he : ∀ t : State, t.opState.operational → exec i t = .next (t.draw (ds t.latch t.geom)).finish)
    (hv : ∀ d ∈ ds s.latch s.geom, d.v = v) : ∃ t, exec i s = .next t ∧ exec i t = .next t := by
  obtain ⟨ho, hg, hw⟩ := hr
  refine ⟨_, he s ho, ?_⟩
  rw [he _ (by rwa [State.finish_opState, State.draw_opState]), State.finish_latch, State.draw_latch, State.finish_geom,
    State.draw_geom, State.finish_draw, State.draw_overwritten hw hg hv fun d hd => ⟨d, hd, rfl, rfl⟩]
  rfl

/-- A byte whose eight bits are all `v`. -/
theorem byte_eq_of_bits {c : Byte} {v : Bool} (h : ∀ b < 8, c.getLsbD b = v) : c = if v then 0xFF else 0x00 := by
  refine BitVec.eq_of_getLsbD_eq fun b hb => ?_
  rw [h b hb]
  cases v
  · simp
  · exact (BitVec.getLsbD_allOnes.trans (decide_eq_true hb)).symm

/-- The pixel of column `x` in bit `b` of page `p` (`20_memory.md` R64). -/
theorem Geometry.pixel_of_page {g : Geometry} (hg : g.legal) {p b : Nat} {x : Int} (hp : p < g.pages.toNat)
    (h0 : 0 ≤ x) (hx : x < g.w.toNat) (hb : b < 8) :
    g.inRange x (8 * p + b) ∧ g.pixelIndex x (8 * p + b) = p + x.toNat * g.pages.toNat + 1 ∧
      pixelBit (8 * p + b) = b := by
  obtain ⟨-, -, -, -, -, hpages, -, -⟩ := hg
  refine ⟨⟨h0, hx, by omega, by omega⟩, ?_, ?_⟩
  · rw [Geometry.pixelIndex, show ((8 * p + b : Int).toNat) / 8 = p by omega]
  · rw [pixelBit]
    omega

/-! #### The pixels of a rectangle, listed once each (`42_shapes.md` R192) -/

theorem intRange_length (a : Int) (n : Nat) : (intRange a n).length = n := by
  rw [intRange, List.length_map, List.length_range]

theorem intRange_nodup (a : Int) (n : Nat) : (intRange a n).Nodup :=
  List.nodup_range.map fun k l h => by simpa using h

/-- The perimeter of a rectangle: the top and bottom edges, then what is left of the left and right ones. -/
def rectPerimeter (top left : Int) (w h : Nat) : List (Int × Int) :=
  intRange left w ×ˢ [top, top + h - 1] ++ [left, left + w - 1] ×ˢ intRange (top + 1) (h - 2)

/-- The interior of a rectangle. -/
def rectInterior (top left : Int) (w h : Nat) : List (Int × Int) :=
  intRange (left + 1) (w - 2) ×ˢ intRange (top + 1) (h - 2)

section
variable {top left : Int} {w h : Nat}

theorem rectPerimeter_nodup (hw : 2 ≤ w) (hh : 2 ≤ h) : (rectPerimeter top left w h).Nodup := by
  have hrows : [top, top + h - 1].Nodup := by
    simp only [List.nodup_cons, List.mem_singleton, List.not_mem_nil, not_false_eq_true, List.nodup_nil, and_true]
    omega
  have hcolumns : [left, left + w - 1].Nodup := by
    simp only [List.nodup_cons, List.mem_singleton, List.not_mem_nil, not_false_eq_true, List.nodup_nil, and_true]
    omega
  refine ((intRange_nodup ..).product hrows).append (hcolumns.product (intRange_nodup ..)) ?_
  rintro ⟨x, y⟩ hedge hside
  simp only [List.mem_product, mem_intRange, List.mem_cons, List.not_mem_nil, or_false] at hedge hside
  omega

theorem rectPerimeter_length (hw : 2 ≤ w) (hh : 2 ≤ h) : (rectPerimeter top left w h).length = 2 * (w + h) - 4 := by
  simp only [rectPerimeter, List.length_append, List.length_product, intRange_length, List.length_cons, List.length_nil]
  omega

theorem mem_rectPerimeter (hw : 2 ≤ w) (hh : 2 ≤ h) {x y : Int} :
    (x, y) ∈ rectPerimeter top left w h ↔ rectCovers top left w h false x y := by
  simp only [rectPerimeter, rectCovers, List.mem_append, List.mem_product, mem_intRange, List.mem_cons,
    List.not_mem_nil, or_false, Bool.false_eq_true, false_and]
  omega

theorem rectInterior_nodup : (rectInterior top left w h).Nodup := (intRange_nodup ..).product (intRange_nodup ..)

theorem rectInterior_length : (rectInterior top left w h).length = (w - 2) * (h - 2) := by
  rw [rectInterior, List.length_product, intRange_length, intRange_length]

theorem mem_rectInterior {x y : Int} :
    (x, y) ∈ rectInterior top left w h ↔
      rectCovers top left w h true x y ∧ ¬ rectCovers top left w h false x y := by
  simp only [rectInterior, rectCovers, List.mem_product, mem_intRange, Bool.false_eq_true, false_and, or_false,
    true_and]
  omega

theorem rectCovers_filled_iff {x y : Int} (hw : 1 ≤ w) (hh : 1 ≤ h) :
    rectCovers top left w h true x y ↔ left ≤ x ∧ x ≤ left + w - 1 ∧ top ≤ y ∧ y ≤ top + h - 1 := by
  simp only [rectCovers, true_and]
  omega

end

/-! #### The loop of LINE, one pass at a time (`42_shapes.md` R194) -/

/-- How far one pass of the loop moves x: the condition `e2 > -dy`. -/
def LinePlan.moveX (p : LinePlan) (err : Int) : Int := if -p.dy < 2 * err then p.sx else 0

/-- How far one pass of the loop moves y: the condition `e2 < dx`. -/
def LinePlan.moveY (p : LinePlan) (err : Int) : Int := if 2 * err < p.dx then p.sy else 0

/-- The error after one pass of the loop. -/
def LinePlan.nextErr (p : LinePlan) (err : Int) : Int :=
  err - (if -p.dy < 2 * err then p.dy else 0) + (if 2 * err < p.dx then p.dx else 0)

theorem LinePlan.walk_last {p : LinePlan} {x y : Int} (hx : x = p.x1) (hy : y = p.y1) (fuel : Nat) (err : Int) :
    p.walk (fuel + 1) x y err = [(x, y)] := by
  rw [LinePlan.walk, if_pos ⟨hx, hy⟩]

theorem LinePlan.walk_pass {p : LinePlan} {x y : Int} (h : ¬ (x = p.x1 ∧ y = p.y1)) (fuel : Nat) (err : Int) :
    p.walk (fuel + 1) x y err =
      (x, y) :: p.walk fuel (x + p.moveX err) (y + p.moveY err) (p.nextErr err) := by
  rw [LinePlan.walk, if_neg h]
  simp only [LinePlan.moveX, LinePlan.moveY, LinePlan.nextErr]
  congr 2 <;> split <;> simp

/-- The walk of a line of `n` steps. -/
theorem linePixels_eq_walk {x0 y0 x1 y1 : Int} {n : Nat} (hn : max |x1 - x0| |y1 - y0| = n) :
    linePixels x0 y0 x1 y1 = (linePlan x0 y0 x1 y1).walk (n + 1) x0 y0 (|x1 - x0| - |y1 - y0|) := by
  simp only [linePixels, linePlan, hn, Int.toNat_natCast]

theorem linePixels_self (x y : Int) : linePixels x y x y = [(x, y)] :=
  LinePlan.walk_last (p := linePlan x y x y) rfl rfl ..

/-- The loop from an error that does not change: every pass moves alike. -/
theorem LinePlan.walk_straight {p : LinePlan} {ux uy err : Int} (hmoveX : p.moveX err = ux) (hmoveY : p.moveY err = uy)
    (herr : p.nextErr err = err) (hne : ux ≠ 0 ∨ uy ≠ 0) (n : Nat) {x y : Int} (hx : p.x1 = x + n * ux)
    (hy : p.y1 = y + n * uy) :
    p.walk (n + 1) x y err = (List.range (n + 1)).map fun k : Nat => (x + k * ux, y + k * uy) := by
  induction n generalizing x y with
  | zero =>
    rw [LinePlan.walk_last (by simpa using hx.symm) (by simpa using hy.symm)]
    simp
  | succ n ih =>
    have hgo : ¬ (x = p.x1 ∧ y = p.y1) := by
      rw [hx, hy]
      rintro ⟨ex, ey⟩
      have hn : ((n + 1 : Nat) : Int) ≠ 0 := by omega
      have hx0 := (mul_eq_zero.1 (left_eq_add.1 ex)).resolve_left hn
      have hy0 := (mul_eq_zero.1 (left_eq_add.1 ey)).resolve_left hn
      exact hne.elim (· hx0) (· hy0)
    rw [LinePlan.walk_pass hgo, herr, hmoveX, hmoveY, ih (by rw [hx]; push_cast; ring) (by rw [hy]; push_cast; ring),
      List.range_succ_eq_map (n := n + 1), List.map_cons, List.map_map]
    refine congrArg₂ _ (by simp) (List.map_congr_left fun k _ => ?_)
    simp only [Function.comp_apply, Nat.succ_eq_add_one, Nat.cast_add, Nat.cast_one, Prod.mk.injEq]
    constructor <;> ring

/-! #### The error of a line whose x distance is the larger -/

/-- The state of the loop of such a line with `n` x steps left: `m` y steps are left, the error is the one these leave,
and it lies within bounds that make every pass step x. -/
structure LinePlan.Steered (p : LinePlan) (n : Nat) (m x y err : Int) : Prop where
  endX : p.x1 = x + n * p.sx
  endY : p.y1 = y + m * p.sy
  error : err = (1 - m) * p.dx + (n - 1) * p.dy
  above : -p.dy < 2 * err
  below : 2 * err < 3 * p.dx - 2 * p.dy

section
variable {p : LinePlan} (hdy : 0 ≤ p.dy) (hle : p.dy ≤ p.dx)
include hdy hle

/-- No x steps left means no y steps left: the loop is at its end point. -/
theorem LinePlan.Steered.at_end {m x y err : Int} (h : p.Steered 0 m x y err) : x = p.x1 ∧ y = p.y1 := by
  obtain ⟨hx, hy, he, ha, hb⟩ := h
  rw [Nat.cast_zero] at hx he
  have hm1 : m < 1 := by
    by_contra hm
    have := mul_nonneg (sub_nonneg.2 (not_lt.1 hm)) (hdy.trans hle)
    linarith
  have hm0 : -1 < m := by
    by_contra hm
    have := mul_nonneg (sub_nonneg.2 (not_lt.1 hm)) (hdy.trans hle)
    linarith
  obtain rfl : m = 0 := by omega
  exact ⟨by linear_combination -hx, by linear_combination -hy⟩

/-- A pass of the loop steps x, and keeps the error within its bounds. -/
theorem LinePlan.Steered.pass {n : Nat} {m x y err : Int} (h : p.Steered (n + 1) m x y err) :
    p.moveX err = p.sx ∧
      ∃ m', p.Steered n m' (x + p.moveX err) (y + p.moveY err) (p.nextErr err) := by
  obtain ⟨hx, hy, he, ha, hb⟩ := h
  have hmove : p.moveX err = p.sx := if_pos ha
  refine ⟨hmove, ?_⟩
  rw [hmove]
  push_cast at hx he
  by_cases hstep : 2 * err < p.dx
  · have hmoveY : p.moveY err = p.sy := if_pos hstep
    have hnext : p.nextErr err = err - p.dy + p.dx := by rw [LinePlan.nextErr, if_pos ha, if_pos hstep]
    rw [hmoveY, hnext]
    exact ⟨m - 1, by linear_combination hx, by linear_combination hy, by linear_combination he, by omega, by omega⟩
  · have hmoveY : p.moveY err = 0 := if_neg hstep
    have hnext : p.nextErr err = err - p.dy := by rw [LinePlan.nextErr, if_pos ha, if_neg hstep, add_zero]
    rw [hmoveY, hnext]
    exact ⟨m, by linear_combination hx, by linear_combination hy, by linear_combination he, by omega, by omega⟩

end

/-- A run of pixels from `a` to `b` in `n` steps, each of which moves x by `s` and y by at most 1 (`42_shapes.md` R195). -/
structure XRun (s : Int) (n : Nat) (a b : Int × Int) (ps : List (Int × Int)) : Prop where
  first : ps.head? = some a
  last : ps.getLast? = some b
  count : ps.length = n + 1
  steps : ps.IsChain fun p q => q.1 = p.1 + s ∧ |q.2 - p.2| ≤ 1

theorem XRun.single (s : Int) (a : Int × Int) : XRun s 0 a a [a] := ⟨rfl, rfl, rfl, .singleton a⟩

theorem XRun.cons {s : Int} {n : Nat} {a b c : Int × Int} {ps : List (Int × Int)} (h : XRun s n b c ps)
    (hx : b.1 = a.1 + s) (hy : |b.2 - a.2| ≤ 1) : XRun s (n + 1) a c (a :: ps) := by
  obtain ⟨hfirst, hlast, hcount, hsteps⟩ := h
  refine ⟨rfl, ?_, congrArg (· + 1) hcount, hsteps.cons fun q hq => ?_⟩
  · rw [List.getLast?_cons, hlast]
    rfl
  · obtain rfl := Option.some.inj (hfirst.symm.trans hq)
    exact ⟨hx, hy⟩

/-- The pixels of a run are distinct: its x values are. -/
theorem XRun.nodup {s : Int} {n : Nat} {a b : Int × Int} {ps : List (Int × Int)} (h : XRun s n a b ps)
    (hs : s = 1 ∨ s = -1) : ps.Nodup := by
  have hascend : ps.IsChain fun p q => s * p.1 < s * q.1 := h.steps.imp fun p q hpq => by
    rw [hpq.1]
    rcases hs with rfl | rfl <;> omega
  have : IsTrans (Int × Int) fun p q => s * p.1 < s * q.1 := ⟨fun _ _ _ => lt_trans⟩
  exact hascend.pairwise.imp fun hpq => by
    rintro rfl
    exact lt_irrefl _ hpq

/-- Each step of a run moves x by 1 and y by at most 1. -/
theorem XRun.step {s : Int} {n : Nat} {a b : Int × Int} {ps : List (Int × Int)} (h : XRun s n a b ps)
    (hs : s = 1 ∨ s = -1) {k : Nat} {p q : Int × Int} (hp : ps[k]? = some p) (hq : ps[k + 1]? = some q) :
    |q.1 - p.1| = 1 ∧ |q.2 - p.2| ≤ 1 := by
  obtain ⟨_, rfl⟩ := List.getElem?_eq_some_iff.1 hp
  obtain ⟨hk, rfl⟩ := List.getElem?_eq_some_iff.1 hq
  obtain ⟨hx, hy⟩ := List.isChain_iff_getElem.1 h.steps k hk
  refine ⟨?_, hy⟩
  rw [hx, add_sub_cancel_left, abs_eq zero_le_one]
  exact hs

/-- The loop of a line whose x distance is the larger runs to its end point. -/
theorem LinePlan.Steered.xRun {p : LinePlan} (hdy : 0 ≤ p.dy) (hle : p.dy ≤ p.dx) (hsx : p.sx = 1 ∨ p.sx = -1)
    (hsy : p.sy = 1 ∨ p.sy = -1) {n : Nat} {m x y err : Int} (h : p.Steered n m x y err) :
    XRun p.sx n (x, y) (p.x1, p.y1) (p.walk (n + 1) x y err) := by
  induction n generalizing m x y err with
  | zero =>
    obtain ⟨hx, hy⟩ := h.at_end hdy hle
    rw [LinePlan.walk_last hx hy, hx, hy]
    exact .single ..
  | succ n ih =>
    have hgo : ¬ (x = p.x1 ∧ y = p.y1) := by
      rintro ⟨hx, -⟩
      have := h.endX
      rcases hsx with e | e <;> rw [e] at this <;> push_cast at this <;> omega
    obtain ⟨hmove, m', h'⟩ := h.pass hdy hle
    rw [LinePlan.walk_pass hgo]
    refine (ih h').cons (congrArg (x + ·) hmove) ?_
    simp only [add_sub_cancel_left, LinePlan.moveY]
    rcases hsy with e | e <;> rw [e] <;> split <;> simp

/-- From `a`, `|b - a|` steps in the direction of `b` lead to `b`. -/
theorem add_distance_mul_direction (a b : Int) : b = a + |b - a| * (if a < b then 1 else -1) := by
  split
  · next h => rw [abs_of_pos (sub_pos.2 h)]; ring
  · next h => rw [abs_of_nonpos (sub_nonpos.2 (not_lt.1 h))]; ring

/-- A line whose x distance is the larger is a run to its end point (`42_shapes.md` R195). -/
theorem linePixels_xRun {x0 y0 x1 y1 : Int} (h : |y1 - y0| ≤ |x1 - x0|) :
    ∃ s, (s = 1 ∨ s = -1) ∧ XRun s |x1 - x0|.toNat (x0, y0) (x1, y1) (linePixels x0 y0 x1 y1) := by
  have hdy := abs_nonneg (y1 - y0)
  have hcast : ((|x1 - x0|.toNat : Nat) : Int) = |x1 - x0| := Int.toNat_of_nonneg (abs_nonneg _)
  by_cases hx : x1 = x0
  · subst hx
    obtain rfl : y1 = y0 := by simpa [sub_eq_zero] using h
    rw [linePixels_self, sub_self]
    exact ⟨1, .inl rfl, .single ..⟩
  have hpos : 0 < |x1 - x0| := abs_pos.2 (sub_ne_zero.2 hx)
  have hsteered : (linePlan x0 y0 x1 y1).Steered |x1 - x0|.toNat |y1 - y0| x0 y0 (|x1 - x0| - |y1 - y0|) := by
    refine ⟨?_, add_distance_mul_direction y0 y1, ?_, ?_, ?_⟩ <;> simp only [hcast, linePlan]
    · exact add_distance_mul_direction x0 x1
    · ring
    · omega
    · omega
  rw [linePixels_eq_walk ((max_eq_left h).trans hcast.symm)]
  exact ⟨_, ite_eq_or_eq .., hsteered.xRun hdy h (ite_eq_or_eq ..) (ite_eq_or_eq ..)⟩

/-! #### The line with x and y exchanged -/

/-- The setup of the line with x and y exchanged. -/
def LinePlan.swap (p : LinePlan) : LinePlan := ⟨p.y1, p.x1, p.dy, p.dx, p.sy, p.sx⟩

theorem LinePlan.moveX_swap (p : LinePlan) (err : Int) : p.swap.moveX (-err) = p.moveY err :=
  if_congr (by simp only [LinePlan.swap]; omega) rfl rfl

theorem LinePlan.moveY_swap (p : LinePlan) (err : Int) : p.swap.moveY (-err) = p.moveX err :=
  if_congr (by simp only [LinePlan.swap]; omega) rfl rfl

theorem LinePlan.nextErr_swap (p : LinePlan) (err : Int) : p.swap.nextErr (-err) = -p.nextErr err := by
  have hx : -p.dx < 2 * -err ↔ 2 * err < p.dx := by omega
  have hy : 2 * -err < p.dy ↔ -p.dy < 2 * err := by omega
  simp only [LinePlan.nextErr, LinePlan.swap, hx, hy]
  ring

theorem LinePlan.walk_swap (p : LinePlan) (fuel : Nat) (x y err : Int) :
    p.swap.walk fuel y x (-err) = (p.walk fuel x y err).map Prod.swap := by
  induction fuel generalizing x y err with
  | zero => rfl
  | succ fuel ih =>
    by_cases hend : x = p.x1 ∧ y = p.y1
    · rw [LinePlan.walk_last hend.1 hend.2, LinePlan.walk_last hend.2 hend.1]
      rfl
    · rw [LinePlan.walk_pass hend, LinePlan.walk_pass fun h => hend ⟨h.2, h.1⟩, LinePlan.moveX_swap,
        LinePlan.moveY_swap, LinePlan.nextErr_swap, ih, List.map_cons, Prod.swap_prod_mk]

/-- LINE treats x and y alike. -/
theorem linePixels_swap (x0 y0 x1 y1 : Int) :
    linePixels y0 x0 y1 x1 = (linePixels x0 y0 x1 y1).map Prod.swap := by
  have hwalk := (linePlan x0 y0 x1 y1).walk_swap ((max |y1 - y0| |x1 - x0|).toNat + 1) x0 y0 (|x1 - x0| - |y1 - y0|)
  rw [neg_sub, max_comm] at hwalk
  rw [linePixels, linePixels]
  exact max_comm |x1 - x0| |y1 - y0| ▸ hwalk

/-! #### Straight lines -/

/-- A coordinate that a straight line moves by `u` in each of its `n` steps: it stays, or its distance is `n` and its
direction `u` (`42_shapes.md` R194). -/
theorem distance_and_direction (a : Int) {n : Nat} (hn : 0 < n) {u : Int} (hu : |u| ≤ 1) :
    (u = 0 ∧ |a + n * u - a| = 0) ∨ (|a + n * u - a| = n ∧ (if a < a + n * u then 1 else -1) = u) := by
  obtain ⟨hlow, hhigh⟩ := abs_le.1 hu
  rw [add_sub_cancel_left]
  obtain rfl | rfl | rfl : u = 0 ∨ u = 1 ∨ u = -1 := by omega
  · exact .inl ⟨rfl, by simp⟩
  · exact .inr ⟨by simp, if_pos (by omega)⟩
  · exact .inr ⟨by simp, if_neg (by omega)⟩

/-- The first pass of a line in one of the eight straight directions moves in that direction and keeps the error. -/
theorem linePlan_straight (x y : Int) {n : Nat} (hn : 0 < n) {ux uy : Int} (hx : |ux| ≤ 1) (hy : |uy| ≤ 1)
    (hne : ux ≠ 0 ∨ uy ≠ 0) {p : LinePlan} (hp : p = linePlan x y (x + n * ux) (y + n * uy)) :
    max p.dx p.dy = n ∧ p.moveX (p.dx - p.dy) = ux ∧ p.moveY (p.dx - p.dy) = uy ∧
      p.nextErr (p.dx - p.dy) = p.dx - p.dy := by
  have hX : (ux = 0 ∧ p.dx = 0) ∨ (p.dx = n ∧ p.sx = ux) := hp ▸ distance_and_direction x hn hx
  have hY : (uy = 0 ∧ p.dy = 0) ∨ (p.dy = n ∧ p.sy = uy) := hp ▸ distance_and_direction y hn hy
  clear hp
  obtain ⟨rfl, hdx⟩ | ⟨hdx, hsx⟩ := hX <;> obtain ⟨rfl, hdy⟩ | ⟨hdy, hsy⟩ := hY
  · exact (hne.elim (· rfl) (· rfl)).elim
  · have hstay : ¬ -p.dy < 2 * (p.dx - p.dy) := by omega
    have hgo : 2 * (p.dx - p.dy) < p.dx := by omega
    refine ⟨by omega, if_neg hstay, (if_pos hgo).trans hsy, ?_⟩
    rw [LinePlan.nextErr, if_neg hstay, if_pos hgo]
    omega
  · have hgo : -p.dy < 2 * (p.dx - p.dy) := by omega
    have hstay : ¬ 2 * (p.dx - p.dy) < p.dx := by omega
    refine ⟨by omega, (if_pos hgo).trans hsx, if_neg hstay, ?_⟩
    rw [LinePlan.nextErr, if_pos hgo, if_neg hstay]
    omega
  · have hgoX : -p.dy < 2 * (p.dx - p.dy) := by omega
    have hgoY : 2 * (p.dx - p.dy) < p.dx := by omega
    refine ⟨by omega, (if_pos hgoX).trans hsx, (if_pos hgoY).trans hsy, ?_⟩
    rw [LinePlan.nextErr, if_pos hgoX, if_pos hgoY]
    omega

/-- A line in one of the eight straight directions moves alike in every step. -/
theorem linePixels_straight (x y : Int) (n : Nat) {ux uy : Int} (hx : |ux| ≤ 1) (hy : |uy| ≤ 1)
    (hne : ux ≠ 0 ∨ uy ≠ 0) :
    linePixels x y (x + n * ux) (y + n * uy) = (List.range (n + 1)).map fun k : Nat => (x + k * ux, y + k * uy) := by
  obtain rfl | hn := n.eq_zero_or_pos
  · simp [linePixels_self]
  obtain ⟨hmax, hmoveX, hmoveY, herr⟩ := linePlan_straight x y hn hx hy hne rfl
  rw [linePixels_eq_walk hmax]
  exact LinePlan.walk_straight hmoveX hmoveY herr hne n rfl rfl

end Sys2Proof.Machine

namespace Sys2Proof

open Sys2Proof.Machine

/-- Settles O37: the pixel writes of RECT are those of its edges and, if filled, its interior. -/
theorem rectDrawsEdgesAndInterior : Obligations.RectDrawsEdgesAndInterior :=
  fun _ v f hr => ⟨rfl, State.drawsExactly_of_mem hr (exec_rect hr.1 v f) fun _ => mem_rectDots⟩

/-- Settles O38: the perimeter and the interior, each pixel listed once. -/
theorem rectPerimeterHasItsCount : Obligations.RectPerimeterHasItsCount :=
  ⟨fun _ _ _ _ _ _ hw hh => rectCovers_filled_iff hw hh, fun top left w h hw hh =>
    ⟨⟨rectPerimeter top left w h, rectPerimeter_nodup hw hh, rectPerimeter_length hw hh, fun _ => mem_rectPerimeter hw hh⟩,
      ⟨rectInterior top left w h, rectInterior_nodup, rectInterior_length, fun _ => mem_rectInterior⟩⟩⟩

/-- Settles O40: a line whose x distance is the larger is a run of x steps, and any other is one with x and y exchanged. -/
theorem lineWalkObeysTheLineLaws : Obligations.LineWalkObeysTheLineLaws := by
  intro x0 y0 x1 y1
  rcases le_or_gt |y1 - y0| |x1 - x0| with hmajor | hmajor
  · obtain ⟨s, hs, hrun⟩ := linePixels_xRun hmajor
    refine ⟨hrun.first, hrun.last, by rw [max_eq_left hmajor]; exact hrun.count, hrun.nodup hs, fun k p q hp hq => ?_⟩
    obtain ⟨hx, hy⟩ := hrun.step hs hp hq
    exact ⟨hx.le, hy, fun _ => hx, fun h => absurd h hmajor.not_gt⟩
  · obtain ⟨s, hs, hrun⟩ := linePixels_xRun hmajor.le
    rw [linePixels_swap y0 x0 y1 x1]
    refine ⟨by rw [List.head?_map, hrun.first]; rfl, by rw [List.getLast?_map, hrun.last]; rfl,
      by rw [List.length_map, max_eq_right hmajor.le]; exact hrun.count,
      (hrun.nodup hs).map Prod.swap_injective, fun k p q hp hq => ?_⟩
    rw [List.getElem?_map, Option.map_eq_some_iff] at hp hq
    obtain ⟨p, hp, rfl⟩ := hp
    obtain ⟨q, hq, rfl⟩ := hq
    obtain ⟨hx, hy⟩ := hrun.step hs hp hq
    exact ⟨hy, hx.le, fun h => absurd h hmajor.not_ge, fun _ => hx⟩

/-- Settles O42: the pixel writes of HLINE are those of its row. -/
theorem hlineDrawsItsRow : Obligations.HlineDrawsItsRow :=
  fun _ v hr => ⟨rfl, State.drawsExactly_of_mem hr (exec_hline hr.1 v) fun _ => mem_hlineDots⟩

/-- Settles O43: the pixel writes of VLINE are those of its column. -/
theorem vlineDrawsItsColumn : Obligations.VlineDrawsItsColumn :=
  fun _ v hr => ⟨rfl, State.drawsExactly_of_mem hr (exec_vline hr.1 v) fun _ => mem_vlineDots⟩

/-- Settles O44: each bit of the byte is a pixel of the run, and each pixel of the run is a bit of that byte. -/
theorem vlineOverOnePageSetsOneByte : Obligations.VlineOverOnePageSetsOneByte := by
  rintro s v p ⟨ho, hg, hw⟩ hp ha hb h0 hx
  refine ⟨_, exec_vline ho v, byte_eq_of_bits fun b hb8 => ?_, fun a hne => State.draw_read_other hw fun d hd _ hi => ?_⟩
  · obtain ⟨hin, hindex, hbit⟩ := Geometry.pixel_of_page hg hp h0 hx hb8
    have hwritten : (⟨s.latch.regs.a2.toInt, 8 * p + b, v⟩ : Dot) ∈
        vlineDots s.latch.regs.a0.toInt s.latch.regs.a1.toInt s.latch.regs.a2.toInt v :=
      mem_vlineDots.2 ⟨rfl, by dsimp only; omega, by dsimp only; omega, rfl⟩
    have hpixel := State.draw_pixelAt_hit hw hg hin (fun d hd _ _ => (mem_vlineDots.1 hd).1) ⟨_, hwritten, rfl, rfl⟩
    rwa [pixelAt, hindex, hbit] at hpixel
  · obtain ⟨-, hlow, hhigh, hcolumn⟩ := mem_vlineDots.1 hd
    obtain ⟨b, hy, hb8⟩ : ∃ b : Nat, d.y = 8 * p + b ∧ b < 8 := ⟨(d.y - 8 * p).toNat, by omega, by omega⟩
    obtain ⟨-, hindex, -⟩ := Geometry.pixel_of_page hg hp h0 hx hb8
    rw [hcolumn, hy, hindex] at hi
    exact hne hi.symm

/-- Settles O45: the three kinds of line are straight, of the directions (1, 0), (0, 1) and (±1, ±1). -/
theorem straightLinesVisitTheirRuns : Obligations.StraightLinesVisitTheirRuns := by
  refine ⟨fun a b y hab => ?_, fun a b x hab => ?_, fun x y n sx sy hsx hsy => ?_⟩
  · obtain ⟨n, rfl⟩ := Int.le.dest hab
    have hline := linePixels_straight a y n (ux := 1) (uy := 0) (by decide) (by decide) (.inl one_ne_zero)
    simpa [intSpan, intRange, add_sub_cancel_left, Function.comp_def] using hline
  · obtain ⟨n, rfl⟩ := Int.le.dest hab
    have hline := linePixels_straight x a n (ux := 0) (uy := 1) (by decide) (by decide) (.inr one_ne_zero)
    simpa [intSpan, intRange, add_sub_cancel_left, Function.comp_def] using hline
  · have hunit : ∀ s : Int, s = 1 ∨ s = -1 → |s| ≤ 1 ∧ s ≠ 0 := by
      rintro s (rfl | rfl) <;> decide
    exact linePixels_straight x y n (hunit sx hsx).1 (hunit sy hsy).1 (.inl (hunit sx hsx).2)

/-- Settles O46: each of the six commands makes pixel writes of one value, chosen by its operands and the geometry. -/
theorem drawingTwiceIsDrawingOnce : Obligations.DrawingTwiceIsDrawingOnce := by
  rintro s i hr ⟨v, f, rfl | rfl | rfl | rfl | rfl | rfl⟩
  · exact exec_twice hr
      (fun l _ => rectDots l.regs.a0.toInt l.regs.a1.toInt l.regs.a2.toNat l.regs.a3.toNat v f)
      (fun _ ht => exec_rect ht v f) fun _ hd => (mem_rectDots.1 hd).1
  · exact exec_twice hr (fun l _ => lineDots l.regs.a0.toInt l.regs.a1.toInt l.regs.a2.toInt l.regs.a3.toInt v)
      (fun _ ht => exec_line ht v) fun _ hd => (mem_lineDots.1 hd).1
  · exact exec_twice hr (fun l _ => hlineDots l.regs.a0.toInt l.regs.a1.toInt l.regs.a2.toInt v)
      (fun _ ht => exec_hline ht v) fun _ hd => (mem_hlineDots.1 hd).1
  · exact exec_twice hr (fun l _ => vlineDots l.regs.a0.toInt l.regs.a1.toInt l.regs.a2.toInt v)
      (fun _ ht => exec_vline ht v) fun _ hd => (mem_vlineDots.1 hd).1
  · exact exec_twice hr (fun l _ => [⟨l.regs.a0.toInt, l.regs.a1.toInt, v⟩])
      (fun _ ht => exec_setPixel ht v) fun _ hd => congrArg Dot.v (List.mem_singleton.1 hd)
  · exact exec_twice hr (fun _ g => fillDots g.w.toNat g.h.toNat v)
      (fun _ ht => exec_fill ht v) fun _ hd => (mem_fillDots.1 hd).1

/-- Settles O41: the four walks, evaluated. -/
theorem reversedLineMayDiffer : Obligations.ReversedLineMayDiffer := by
  unfold Obligations.ReversedLineMayDiffer
  decide

end Sys2Proof

/-! ### The glyphs -/

namespace Sys2Proof.Machine

/-! #### What each command of the family does in an operational state -/

section
variable {s : State} (ho : s.opState.operational)
include ho

/-- CHAR draws one cell. -/
theorem exec_char : exec .char s = .next (s.blitAll
    [⟨BitVec.ofNat 8 (s.latch.regs.a0.toNat % 256), s.latch.regs.a1.toInt, s.latch.regs.a2.toInt⟩]).finish := by
  rw [State.blitAll_singleton, ← lowByte_eq_ofNat]
  exact congrArg _ (State.whenOperational_of ho _)

theorem exec_string : exec .string s = .next
    (s.drawString s.latch.regs.a0.toNat s.latch.regs.a1.toInt s.latch.regs.a2.toInt) :=
  congrArg _ (State.whenOperational_of ho _)

end

theorem State.drawString_tooLong (s : State) {n : Nat} (h : Config.textCap < n) (x y : Int) :
    s.drawString n x y = (s.raise .illegal).finish :=
  if_pos h

theorem State.drawString_fits (s : State) {n : Nat} (h : n ≤ Config.textCap) (x y : Int) :
    s.drawString n x y =
      (s.blitAll (stringLayout s.geom.w.toNat s.geom.h.toNat (s.latch.text.toList.take n) x y)).finish :=
  if_neg h.not_gt

/-! #### Glyph numbers (`43_glyph.md` R220) -/

theorem glyphNumber_of_mapped {r : FontRom} {c : Byte} {n : Nat} (h : mappedGlyph r c = some n) :
    glyphNumber r c = n ∧ mappedGlyph r c ≠ none := by
  simp [glyphNumber, h]

theorem glyphNumber_of_unmapped {r : FontRom} {c : Byte} (h : mappedGlyph r c = none) :
    glyphNumber r c = 0 ∧ mappedGlyph r c = none := by
  simp [glyphNumber, h]

/-! #### The pixels of a cell (`43_glyph.md` R221) -/

/-- A pixel of a cell is in column `i` and row `j` of it, both at most 7. -/
theorem cellCovers_iff {x y px py : Int} :
    cellCovers x y px py ↔ ∃ i j : Nat, i ≤ 7 ∧ j ≤ 7 ∧ x + i = px ∧ y + j = py := by
  constructor
  · rintro ⟨hx, hx', hy, hy'⟩
    exact ⟨(px - x).toNat, (py - y).toNat, by omega, by omega, by omega, by omega⟩
  · rintro ⟨i, j, hi, hj, rfl, rfl⟩
    exact ⟨by omega, by omega, by omega, by omega⟩

/-- The pixel writes of a glyph go to the pixels of its cell. -/
theorem exists_glyphDot_iff {r : FontRom} {c : Byte} {x y px py : Int} :
    (∃ d ∈ glyphDots r c x y, d.x = px ∧ d.y = py) ↔ cellCovers x y px py := by
  rw [cellCovers_iff]
  constructor
  · rintro ⟨d, hd, rfl, rfl⟩
    obtain ⟨i, j, hi, hj, rfl⟩ := mem_glyphDots.1 hd
    exact ⟨i, j, hi, hj, rfl, rfl⟩
  · rintro ⟨i, j, hi, hj, rfl, rfl⟩
    exact ⟨_, mem_glyphDots.2 ⟨i, j, hi, hj, rfl⟩, rfl, rfl⟩

theorem cellCovers_of_mem_glyphDots {r : FontRom} {c : Byte} {x y : Int} {d : Dot} (h : d ∈ glyphDots r c x y) :
    cellCovers x y d.x d.y :=
  exists_glyphDot_iff.1 ⟨d, h, rfl, rfl⟩

/-- Cells with no pixel in common. -/
def GlyphCell.Disjoint (g g' : GlyphCell) : Prop :=
  ∀ px py, ¬ (cellCovers g.x g.y px py ∧ cellCovers g'.x g'.y px py)

/-- Of pairwise disjoint cells, one at most has a given pixel. -/
theorem eq_of_cellCovers {cells : List GlyphCell} (h : cells.Pairwise GlyphCell.Disjoint) {g g' : GlyphCell}
    (hg : g ∈ cells) (hg' : g' ∈ cells) {px py : Int} (hc : cellCovers g.x g.y px py)
    (hc' : cellCovers g'.x g'.y px py) : g = g' := by
  have hsymm : Std.Symm GlyphCell.Disjoint := ⟨fun _ _ hd px py hboth => hd px py hboth.symm⟩
  by_contra hne
  exact h.forall hg hg' hne px py ⟨hc, hc'⟩

/-! #### The flags and the pixels after glyphs -/

theorem State.blit_oob (s : State) (c : Byte) (x y : Int) :
    (s.blit c x y).sticky.fOob = true ↔
      s.sticky.fOob = true ∨ ∃ px py, cellCovers x y px py ∧ ¬ s.geom.inRange px py := by
  have hflag : (if mappedGlyph s.rom c = none then s.raise .char else s).sticky.fOob = s.sticky.fOob := by
    split <;> rfl
  have hgeom : (if mappedGlyph s.rom c = none then s.raise .char else s).geom = s.geom := by
    split <;> rfl
  simp only [State.blit, State.draw_oob_iff_pixel, hflag, hgeom, exists_glyphDot_iff]

/-- F_OOB after glyphs: it was set, or a cell has an out-of-range pixel. -/
theorem State.blitAll_oob (s : State) (cells : List GlyphCell) :
    (s.blitAll cells).sticky.fOob = true ↔ s.sticky.fOob = true ∨
      ∃ g ∈ cells, ∃ px py, cellCovers g.x g.y px py ∧ ¬ s.geom.inRange px py := by
  induction cells generalizing s with
  | nil => simp [State.blitAll]
  | cons g cells ih =>
    have hgeom : (s.blit g.c g.x g.y).geom = s.geom := (congrArg State.geom (s.blit_frame g.c g.x g.y) :)
    calc ((s.blit g.c g.x g.y).blitAll cells).sticky.fOob = true
      _ ↔ (s.sticky.fOob = true ∨ ∃ px py, cellCovers g.x g.y px py ∧ ¬ s.geom.inRange px py) ∨
            ∃ g' ∈ cells, ∃ px py, cellCovers g'.x g'.y px py ∧ ¬ s.geom.inRange px py := by
        rw [ih, State.blit_oob, hgeom]
      _ ↔ _ := by simp only [List.mem_cons, exists_eq_or_imp, or_assoc]

/-- W_CHAR after glyphs: it was set, or a character is unmapped. -/
theorem State.blitAll_wChar (s : State) (cells : List GlyphCell) :
    (s.blitAll cells).sticky.wChar = true ↔
      s.sticky.wChar = true ∨ ∃ g ∈ cells, mappedGlyph s.rom g.c = none := by
  induction cells generalizing s with
  | nil => simp [State.blitAll]
  | cons g cells ih =>
    have hframe := s.blit_frame g.c g.x g.y
    have hrom : (s.blit g.c g.x g.y).rom = s.rom := (congrArg State.rom hframe :)
    have hflag : (s.blit g.c g.x g.y).sticky.wChar = (s.sticky.wChar || decide (mappedGlyph s.rom g.c = none)) :=
      (congrArg (·.sticky.wChar) hframe :)
    calc ((s.blit g.c g.x g.y).blitAll cells).sticky.wChar = true
      _ ↔ (s.sticky.wChar = true ∨ mappedGlyph s.rom g.c = none) ∨
            ∃ g' ∈ cells, mappedGlyph s.rom g'.c = none := by
        rw [ih, hrom, hflag, Bool.or_eq_true, decide_eq_true_iff]
      _ ↔ _ := by simp only [List.mem_cons, exists_eq_or_imp, or_assoc]

section
variable {s : State} (hw : s.fb.wf) {cells : List GlyphCell}
include hw

/-- A byte that holds no pixel of a cell reads as before. -/
theorem State.blitAll_read_other {a : Nat}
    (ha : ∀ g ∈ cells, ∀ px py, cellCovers g.x g.y px py → s.geom.inRange px py → s.geom.pixelIndex px py ≠ a) :
    Memory.read (s.blitAll cells).fb a = Memory.read s.fb a := by
  rw [State.blitAll_fb]
  refine State.draw_read_other hw fun d hd => ?_
  obtain ⟨g, hg, hd⟩ := List.mem_flatMap.1 hd
  exact ha g hg d.x d.y (cellCovers_of_mem_glyphDots hd)

variable (hg : s.geom.legal)
include hg

/-- A pixel of no cell reads as before. -/
theorem State.blitAll_pixelAt_other {px py : Int} (hin : s.geom.inRange px py)
    (hmiss : ∀ g ∈ cells, ¬ cellCovers g.x g.y px py) :
    pixelAt s.geom (s.blitAll cells).fb px py = pixelAt s.geom s.fb px py := by
  rw [State.blitAll_fb]
  refine State.draw_pixelAt_other hw hg hin ?_
  rintro d hd ⟨rfl, rfl⟩
  obtain ⟨g, hgc, hd⟩ := List.mem_flatMap.1 hd
  exact hmiss g hgc (cellCovers_of_mem_glyphDots hd)

/-- A pixel of one of several disjoint cells reads its bit of the font. -/
theorem State.blitAll_pixelAt_cell (hdisj : cells.Pairwise GlyphCell.Disjoint) {g : GlyphCell} (hgc : g ∈ cells)
    {i j : Nat} (hi : i ≤ 7) (hj : j ≤ 7) (hin : s.geom.inRange (g.x + i) (g.y + j)) :
    pixelAt s.geom (s.blitAll cells).fb (g.x + i) (g.y + j) =
      (fontRead s.rom (8 * glyphNumber s.rom g.c + i)).getLsbD j := by
  rw [State.blitAll_fb]
  refine State.draw_pixelAt_hit hw hg hin (fun d hd hx hy => ?_)
    ⟨_, List.mem_flatMap.2 ⟨g, hgc, mem_glyphDots.2 ⟨i, j, hi, hj, rfl⟩⟩, rfl, rfl⟩
  obtain ⟨g', hgc', hd⟩ := List.mem_flatMap.1 hd
  have hcovers' : cellCovers g'.x g'.y (g.x + i) (g.y + j) := exists_glyphDot_iff.1 ⟨d, hd, hx, hy⟩
  obtain rfl := eq_of_cellCovers hdisj hgc hgc' (cellCovers_iff.2 ⟨i, j, hi, hj, rfl, rfl⟩) hcovers'
  obtain ⟨i', j', -, -, rfl⟩ := mem_glyphDots.1 hd
  obtain rfl : i' = i := by simpa using hx
  obtain rfl : j' = j := by simpa using hy
  rfl

end

/-! #### The layout of a string (`43_glyph.md` R223 to R225) -/

/-- How the characters `chars`, up to the end of the text, are laid out from `(x, y)` on a surface of `w` by `h`: after
each cell the layout stops, wraps to the next row or advances in its row. -/
inductive TextLayout (w h : Nat) : (chars : List Byte) → (x y : Int) → (cells : List GlyphCell) → Prop
  | ended (x y : Int) : TextLayout w h [] x y []
  | stop {c : Byte} {rest : List Byte} {x y : Int} (hwide : w < x + 16) (hhigh : h < y + 16) :
      TextLayout w h (c :: rest) x y [⟨c, x, y⟩]
  | wrap {c : Byte} {rest : List Byte} {x y : Int} {cells : List GlyphCell} (hwide : w < x + 16) (hroom : y + 16 ≤ h)
      (next : TextLayout w h rest 0 (y + 8) cells) : TextLayout w h (c :: rest) x y (⟨c, x, y⟩ :: cells)
  | advance {c : Byte} {rest : List Byte} {x y : Int} {cells : List GlyphCell} (hroom : x + 16 ≤ w)
      (next : TextLayout w h rest (x + 8) y cells) : TextLayout w h (c :: rest) x y (⟨c, x, y⟩ :: cells)

/-- STRING lays out the characters before the first 0x00. -/
theorem textLayout_stringLayout (w h : Nat) (text : List Byte) (x y : Int) :
    TextLayout w h (text.takeWhile fun c => c != 0) x y (stringLayout w h text x y) := by
  induction text generalizing x y with
  | nil => exact .ended x y
  | cons c rest ih =>
    unfold stringLayout
    split_ifs with hc hwide hhigh
    · simpa [hc] using TextLayout.ended x y
    all_goals rw [List.takeWhile_cons_of_pos (by simpa using hc)]
    · exact .stop (by omega) (by omega)
    · exact .wrap (by omega) (by omega) (ih 0 (y + 8))
    · exact .advance (by omega) (ih (x + 8) y)

/-- The cell `g'` comes right after `g`: 8 further in its row where the surface has room, else at the next row's start. -/
def GlyphCell.Next (w h : Nat) (g g' : GlyphCell) : Prop :=
  (g.x + 16 ≤ w ∧ g'.x = g.x + 8 ∧ g'.y = g.y) ∨ (w < g.x + 16 ∧ g.y + 16 ≤ h ∧ g'.x = 0 ∧ g'.y = g.y + 8)

section
variable {w h : Nat} {chars : List Byte} {x y : Int} {cells : List GlyphCell} (hl : TextLayout w h chars x y cells)
include hl

/-- The first cell is at the given origin. -/
theorem TextLayout.head {g : GlyphCell} (hg : cells.head? = some g) : g.x = x ∧ g.y = y := by
  cases hl with
  | ended => cases hg
  | stop | wrap | advance => cases hg; exact ⟨rfl, rfl⟩

theorem TextLayout.ne_nil (hne : chars ≠ []) : cells ≠ [] := by
  cases hl with
  | ended => exact absurd rfl hne
  | stop | wrap | advance => exact List.cons_ne_nil _ _

/-- The cells hold the characters in order, as many as there are cells. -/
theorem TextLayout.chars_eq : cells.map GlyphCell.c = chars.take cells.length := by
  induction hl with
  | ended | stop => rfl
  | wrap _ _ _ ih | advance _ _ ih => exact congrArg (List.cons _) ih

/-- Each cell is followed by the next in its row or in the row below. -/
theorem TextLayout.isChain : cells.IsChain (GlyphCell.Next w h) := by
  induction hl with
  | ended => exact .nil
  | stop => exact .singleton _
  | wrap hwide hroom next ih =>
    exact List.isChain_cons.2 ⟨fun g' hg' => .inr ⟨hwide, hroom, next.head hg'⟩, ih⟩
  | advance hroom next ih =>
    exact List.isChain_cons.2 ⟨fun g' hg' => .inl ⟨hroom, next.head hg'⟩, ih⟩

/-- A layout that leaves characters out ends where neither this row nor the next has room. -/
theorem TextLayout.getLast_of_lt (hlt : cells.length < chars.length) :
    ∃ g, cells.getLast? = some g ∧ w < g.x + 16 ∧ h < g.y + 16 := by
  induction hl with
  | ended => exact absurd hlt (lt_irrefl _)
  | stop hwide hhigh => exact ⟨_, rfl, hwide, hhigh⟩
  | wrap _ _ _ ih | advance _ _ ih =>
    obtain ⟨g, hlast, hfull⟩ := ih (Nat.lt_of_succ_lt_succ hlt)
    exact ⟨g, by rw [List.getLast?_cons, hlast]; rfl, hfull⟩

end

/-- `g'` lies 8 or more to the right of `g` in its row, or 8 or more below it. -/
def GlyphCell.Before (g g' : GlyphCell) : Prop := (g'.y = g.y ∧ g.x + 8 ≤ g'.x) ∨ g.y + 8 ≤ g'.y

theorem GlyphCell.Next.before {w h : Nat} {g g' : GlyphCell} (hn : g.Next w h g') : g.Before g' := by
  rcases hn with ⟨-, hx, hy⟩ | ⟨-, -, -, hy⟩
  · exact .inl ⟨hy, hx.ge⟩
  · exact .inr hy.ge

theorem GlyphCell.Before.trans {a b c : GlyphCell} (hab : a.Before b) (hbc : b.Before c) : a.Before c := by
  unfold GlyphCell.Before at *
  omega

theorem GlyphCell.Before.disjoint {g g' : GlyphCell} (hb : g.Before g') : g.Disjoint g' := by
  rintro px py ⟨⟨-, hx, -, hy⟩, hx', -, hy', -⟩
  unfold GlyphCell.Before at hb
  omega

/-- The cells of a layout are pairwise disjoint: each lies before all that follow it. -/
theorem stringLayout_disjoint (w h : Nat) (text : List Byte) (x y : Int) :
    (stringLayout w h text x y).Pairwise GlyphCell.Disjoint := by
  let htrans : Trans GlyphCell.Before GlyphCell.Before GlyphCell.Before := ⟨GlyphCell.Before.trans⟩
  have hbefore := ((textLayout_stringLayout w h text x y).isChain.imp fun _ _ hn => hn.before).pairwise
  exact hbefore.imp GlyphCell.Before.disjoint

end Sys2Proof.Machine

namespace Sys2Proof

open Sys2Proof.Machine

/-- Settles O47: three ranges of bytes are mapped, and no other byte is. -/
theorem glyphNumbersFollowTheCharacterClasses : Obligations.GlyphNumbersFollowTheCharacterClasses := by
  refine fun r c => ⟨fun hlow hhigh => ?_, fun hlow hhigh => ?_, fun hlow hhigh => ?_, fun hgap => ?_⟩
  · exact glyphNumber_of_mapped (mappedGlyph_eq_some.2 (.inl ⟨hlow, hhigh, rfl⟩))
  · exact glyphNumber_of_mapped (mappedGlyph_eq_some.2 (.inr (.inl ⟨hlow, hhigh, rfl⟩)))
  · exact glyphNumber_of_mapped (mappedGlyph_eq_some.2 (.inr (.inr ⟨hlow, hhigh, rfl⟩)))
  · refine glyphNumber_of_unmapped (Option.eq_none_iff_forall_ne_some.2 fun n hn => ?_)
    rcases mappedGlyph_eq_some.1 hn with h | h | h <;> omega

/-- Settles O49: CHAR is the drawing of one cell. -/
theorem charDrawsItsCell : Obligations.CharDrawsItsCell := by
  refine ⟨rfl, ?_⟩
  rintro s ⟨ho, hg, hw⟩ c x y
  refine ⟨(s.blitAll [⟨c, x, y⟩]).fb, (s.blitAll [⟨c, x, y⟩]).sticky.fOob, ?_, ?_, fun i j hi hj hin => ?_,
    fun px py hin hmiss => ?_, fun a ha => ?_⟩
  · rw [exec_char ho, State.blitAll_singleton, State.blit_frame]
    rfl
  · simp [State.blitAll_oob]
  · exact State.blitAll_pixelAt_cell hw hg (List.pairwise_singleton ..) (List.mem_singleton_self _) hi hj hin
  · exact State.blitAll_pixelAt_other hw hg hin (by simpa using hmiss)
  · exact State.blitAll_read_other hw (by simpa using ha)

/-- Settles O50: the eight pixels of a column of an aligned cell are the eight bits of one byte. -/
theorem alignedGlyphCopiesItsBytes : Obligations.AlignedGlyphCopiesItsBytes := by
  rintro s t i ⟨ho, hg, hw⟩ hi x y halign hin hcorner hexec
  obtain ⟨p, hp⟩ : ∃ p : Nat, y = 8 * p := ⟨y.toNat / 8, by omega⟩
  have hpage : y.toNat / 8 = p := by omega
  have hplt : p < s.geom.pages.toNat := hpage ▸ Geometry.page_lt hg hin
  have hcolumn : x.toNat + i = (x + i).toNat := by omega
  obtain rfl := Host.Outcome.next.inj ((exec_char ho).symm.trans hexec)
  refine BitVec.eq_of_getLsbD_eq fun j hj => ?_
  obtain ⟨hpixel, hindex, hbit⟩ :=
    Geometry.pixel_of_page hg hplt (x := x + i) (by omega) (by omega) hj
  rw [← hp] at hpixel hindex hbit
  rw [hpage, hcolumn, ← hindex]
  have hfont := State.blitAll_pixelAt_cell hw hg (List.pairwise_singleton ..)
    (List.mem_singleton_self (⟨BitVec.ofNat 8 (s.latch.regs.a0.toNat % 256), x, y⟩ : GlyphCell)) hi (by omega) hpixel
  rwa [pixelAt, hbit] at hfont

/-- Settles O51: STRING is the drawing of its cells, which are disjoint, so that no glyph spoils another. -/
theorem stringDrawsItsLayout : Obligations.StringDrawsItsLayout := by
  refine ⟨rfl, fun _ _ _ _ => rfl, fun _ _ _ _ _ _ => rfl, ?_⟩
  rintro s ⟨ho, hg, hw⟩
  refine ⟨fun hlong => ?_, fun hfits => ?_⟩
  · rw [exec_string ho, State.drawString_tooLong s hlong]
    rfl
  · intro cells
    refine ⟨(s.blitAll cells).fb, (s.blitAll cells).sticky.fOob, (s.blitAll cells).sticky.wChar, ?_,
      s.blitAll_wChar cells, s.blitAll_oob cells, fun g hgc i j hi hj hin => ?_, fun px py hin hmiss => ?_,
      fun a ha => ?_⟩
    · rw [exec_string ho, State.drawString_fits s hfits, State.blitAll_frame]
      rfl
    · exact State.blitAll_pixelAt_cell hw hg (stringLayout_disjoint ..) hgc hi hj hin
    · exact State.blitAll_pixelAt_other hw hg hin hmiss
    · exact State.blitAll_read_other hw ha

/-- Settles O52: the layout is a chain of cells, each followed in its row or at the start of the next. -/
theorem stringLayoutAdvancesWrapsAndStops : Obligations.StringLayoutAdvancesWrapsAndStops := by
  intro w h text x y
  have hl := textLayout_stringLayout w h text x y
  refine ⟨fun _ hg => hl.head hg, hl.ne_nil, hl.chars_eq, fun k g g' hk hk' => ?_, hl.getLast_of_lt,
    stringLayout_disjoint w h text x y⟩
  obtain ⟨_, rfl⟩ := List.getElem?_eq_some_iff.1 hk
  obtain ⟨hlt, rfl⟩ := List.getElem?_eq_some_iff.1 hk'
  exact List.isChain_iff_getElem.1 hl.isChain k hlt

end Sys2Proof

/-! ### The exceptions -/

namespace Sys2Proof.Machine

/-! #### FAILED (`60_exceptions.md` R244) -/

/-- In FAILED no operation is accepted or running. -/
theorem Inv.idle_of_failed {s : State} (h : Inv s) (hf : s.opState = .failed) : s.phase = .idle := by
  rcases hp : s.phase with _ | _ | ⟨op, k⟩
  · rfl
  · exact absurd hf (h.acceptedState hp)
  · exact absurd hf (OpState.ne_failed_of_operational (h.pendingIsNext op k hp).1)

theorem Inv.not_busy_of_failed {s : State} (h : Inv s) (hf : s.opState = .failed) : s.busy = false := by
  rw [← Bool.not_eq_true, h.busyPhase, not_not]
  exact h.idle_of_failed hf

theorem Inv.pending_of_failed {s : State} (h : Inv s) (hf : s.opState = .failed) : s.pending = none :=
  h.idlePending fun op k => by rw [h.idle_of_failed hf]; exact nofun

/-- What the host's turn can change in FAILED: a write of CMD is discarded. -/
theorem State.hostTurn_failed_frame {s t : State} (hb : s.busy = false) (hf : s.opState = .failed)
    (h : s.hostTurn = .next t) :
    t = { s with regs := t.regs, text := t.text, host := t.host, reads := t.reads } := by
  rcases State.hostTurn_cases h with ⟨-, rfl⟩ | ⟨a, rest, -, -, -, rfl⟩
  · rfl
  · rcases State.access_idle (s := { s with host := rest }) hb a with ⟨hnf, -⟩ | e
    · exact absurd hf hnf
    · rw [e]

/-- What a step can change in FAILED, short of reset. -/
theorem step_failed_frame {s t : State} (h : Inv s) (hf : s.opState = .failed)
    (hnp : s.schedule.head? ≠ some .platform) (ht : step s = .next t) :
    t = { s with schedule := t.schedule, host := t.host, reads := t.reads, regs := t.regs, text := t.text } := by
  rcases step_cases ht with ⟨-, rfl⟩ | ⟨r, -, ht⟩ | ⟨r, -, hp, -⟩ | ⟨r, -, -, rfl⟩ | ⟨r, -, rfl⟩ | ⟨r, hs, -⟩
  · rfl
  · have e := State.hostTurn_failed_frame (s := { s with schedule := r }) (h.not_busy_of_failed hf) hf ht
    rw [e]
  · exact absurd hf (h.acceptedState hp)
  · rfl
  · rw [State.transportTurn_none (s := { s with schedule := r }) (h.pending_of_failed hf)]
  · exact absurd (congrArg List.head? hs) hnp

/-! #### The bits a turn raises (`60_exceptions.md` R241) -/

/-- Setting one bit is raising a set of one bit. -/
theorem Sticky.set_eq_union (k : Sticky) (f : StatusFault) : k.set f = k.union (Sticky.clear.set f) := by
  rw [← Sticky.set_union, Sticky.union_clear]

/-- `s` with other sticky bits. -/
def State.withSticky (s : State) (k : Sticky) : State :=
  { s with sticky := k }

/-- From `s` the operation raises one set of bits, the same whatever bits were set, and otherwise does the same. -/
def State.RaisesOneSet (op : State → State) (s : State) : Prop :=
  ∃ raised : Sticky, ∀ k, op (s.withSticky k) = (op s).withSticky (k.union raised)

namespace State.RaisesOneSet

/-- An operation that no sticky bit touches raises the empty set. -/
theorem of_commutes {op : State → State} {s : State} (h : ∀ k, op (s.withSticky k) = (op s).withSticky k) :
    RaisesOneSet op s :=
  ⟨Sticky.clear, fun k => by rw [h, Sticky.union_clear]⟩

theorem raise (s : State) (f : StatusFault) : RaisesOneSet (·.raise f) s :=
  ⟨Sticky.clear.set f, fun k => congrArg s.withSticky (k.set_eq_union f)⟩

/-- An operation that goes with another from `s`, whatever the sticky bits, raises what the other raises. -/
theorem congr {f g : State → State} {s : State} (hg : RaisesOneSet g s)
    (h : ∀ k, f (s.withSticky k) = g (s.withSticky k)) : RaisesOneSet f s := by
  obtain ⟨d, hg⟩ := hg
  have hs : f s = g s := h s.sticky
  exact ⟨d, fun k => by rw [h, hg, hs]⟩

/-- One operation after another raises the bits of both. -/
theorem comp {f g : State → State} {s : State} (hg : RaisesOneSet g (f s)) (hf : RaisesOneSet f s) :
    RaisesOneSet (fun u => g (f u)) s := by
  obtain ⟨d, hf⟩ := hf
  obtain ⟨e, hg⟩ := hg
  exact ⟨d.union e, fun k => by rw [← Sticky.union_assoc, ← hg, ← hf]⟩

/-- A choice that reads no sticky bit. -/
theorem ite {p : State → Prop} [DecidablePred p] {f g : State → State} {s : State}
    (hp : ∀ k, p (s.withSticky k) ↔ p s) (hf : RaisesOneSet f s) (hg : RaisesOneSet g s) :
    RaisesOneSet (fun u => if p u then f u else g u) s := by
  by_cases h : p s
  · exact hf.congr fun k => if_pos ((hp k).2 h)
  · exact hg.congr fun k => if_neg (mt (hp k).1 h)

/-- A loop raises the bits of its passes. -/
theorem foldl {α : Type} {f : State → α → State} (hf : ∀ u a, RaisesOneSet (f · a) u) (l : List α) (s : State) :
    RaisesOneSet (l.foldl f) s := by
  induction l generalizing s with
  | nil => exact of_commutes fun _ => rfl
  | cons a l ih => exact (ih (f s a)).comp (hf s a)

theorem finish {op : State → State} {s : State} (h : RaisesOneSet op s) : RaisesOneSet (fun u => (op u).finish) s :=
  comp (g := State.finish) (of_commutes fun _ => rfl) h

theorem pixelWrite (s : State) (x y : Int) (v : Bool) : RaisesOneSet (·.pixelWrite x y v) s :=
  ite (fun _ => .rfl) (of_commutes fun _ => rfl) (raise s .oob)

theorem draw (s : State) (ds : List Dot) : RaisesOneSet (·.draw ds) s :=
  foldl (fun u d => pixelWrite u d.x d.y d.v) ds s

/-- A drawing whose pixels depend on no sticky bit. -/
theorem drawFrom {ds : State → List Dot} {s : State} (hds : ∀ k, ds (s.withSticky k) = ds s) :
    RaisesOneSet (fun u => u.draw (ds u)) s :=
  (draw s (ds s)).congr fun k => by rw [hds]

theorem blit (s : State) (c : Byte) (x y : Int) : RaisesOneSet (·.blit c x y) s := by
  have hwarn : RaisesOneSet (fun u => if mappedGlyph u.rom c = none then u.raise .char else u) s :=
    ite (fun _ => .rfl) (raise s .char) (of_commutes fun _ => rfl)
  exact ((draw _ (glyphDots s.rom c x y)).comp hwarn).congr fun _ => rfl

theorem blitAll (s : State) (cells : List GlyphCell) : RaisesOneSet (·.blitAll cells) s := by
  have hglyph : ∀ (u : State) (g : GlyphCell), RaisesOneSet (·.blit g.c g.x g.y) u := fun u g => blit u g.c g.x g.y
  unfold State.blitAll
  exact foldl hglyph cells s

theorem drawString (s : State) (n : Nat) (x y : Int) : RaisesOneSet (·.drawString n x y) s := by
  by_cases h : Config.textCap < n
  · exact (raise s .illegal).finish.congr fun _ => if_pos h
  · exact (blitAll s (stringLayout s.geom.w.toNat s.geom.h.toNat (s.textBytes n) x y)).finish.congr fun _ => if_neg h

/-- Ending a read with RESULT = 0 and F_OOB (`41_pixel.md` R171, R173). -/
theorem raise_result (s : State) (v : Word) : RaisesOneSet (fun u => { u.raise .oob with result := v }) s :=
  comp (g := fun u => { u with result := v }) (of_commutes fun _ => rfl) (raise s .oob)

theorem resultFromPixel (s : State) (x y : Int) : RaisesOneSet (·.resultFromPixel x y) s :=
  ite (fun _ => .rfl) (of_commutes fun _ => rfl) (raise_result s 0)

theorem resultFromByte (s : State) (i : Nat) : RaisesOneSet (·.resultFromByte i) s :=
  ite (fun _ => .rfl) (of_commutes fun _ => rfl) (raise_result s 0)

theorem initOverflow (s : State) : RaisesOneSet State.initOverflow s :=
  ⟨Sticky.clear.set .alloc, fun k => congrArg s.initOverflow.withSticky (k.set_eq_union .alloc)⟩

theorem initWith (s : State) (w h a : Nat) (ext : Bool) : RaisesOneSet (·.initWith w h a ext) s := by
  by_cases hok : geometryOK w h a
  · rcases le_or_gt (bufferSize w h) Config.fbCapacity with hcap | hcap
    · exact (of_commutes (op := (·.initSurface w h a ext)) fun _ => rfl).congr fun k =>
        State.initWith_fits (s.withSticky k) hok hcap ext
    · exact (initOverflow s).congr fun k => State.initWith_overflow (s.withSticky k) hok hcap ext
  · exact (raise s .geom).finish.congr fun k => State.initWith_illegal (s.withSticky k) hok ext

theorem emitFrom (s : State) (op : BusOp) (n : Nat) : RaisesOneSet (·.emitFrom op n) s := by
  refine of_commutes fun k => ?_
  have hcongr := BusOp.txns_congr (s := s) (t := s.withSticky k) rfl rfl rfl op
  rcases h : (op.txns s)[n]? with _ | t
  · rw [State.emitFrom_none h, State.emitFrom_none (hcongr ▸ h)]
    rfl
  · rw [State.emitFrom_some h, State.emitFrom_some (hcongr ▸ h)]
    rfl

/-- The check of STATE raises F_NOINIT or runs the body (`60_exceptions.md` R245). -/
theorem whenOperational {body : State → State} {s : State} (hb : RaisesOneSet body s) :
    RaisesOneSet (·.whenOperational body) s := by
  rcases State.whenOperational_cases s body with ⟨h, -⟩ | ⟨h, -⟩ | ⟨h, -⟩
  · exact (of_commutes (op := State.finish) fun _ => rfl).congr fun k =>
      State.whenOperational_failed (s := s.withSticky k) h body
  · exact (raise s .noinit).finish.congr fun k => State.whenOperational_reset (s := s.withSticky k) h body
  · exact hb.congr fun k => State.whenOperational_of (s := s.withSticky k) h body

theorem transportTurn (s : State) : RaisesOneSet State.transportTurn s := by
  rcases ht : s.pending with _ | t
  · exact (of_commutes (op := id) fun _ => rfl).congr fun k => State.transportTurn_none (s := s.withSticky k) ht
  have hlog : RaisesOneSet (fun u => { u with log := u.log ++ [t], pending := none }) s := of_commutes fun _ => rfl
  rcases hp : s.phase with _ | _ | ⟨op, n⟩
  · exact hlog.congr fun k => by simp only [State.transportTurn, State.withSticky, ht, hp]
  · exact hlog.congr fun k => by simp only [State.transportTurn, State.withSticky, ht, hp]
  · exact (comp (emitFrom _ op (n + 1)) hlog).congr fun k =>
      State.transportTurn_running (s := s.withSticky k) hp ht

end State.RaisesOneSet

/-- Every command answers what an operation answers that raises one set of bits. -/
theorem exec_raisesOneSet (i : Instr) (s : State) :
    ∃ op : State → State, (∀ u, exec i u = .next (op u)) ∧ State.RaisesOneSet op s := by
  cases i with
  | init ext =>
    refine ⟨fun u => if u.opState = .failed then u.finish
      else u.initWith (size u.op0) (size u.op1) (size u.op2) ext, fun u => ?_, ?_⟩
    · by_cases hf : u.opState = .failed
      · exact (exec_init_failed hf ext).trans (congrArg _ (if_pos hf).symm)
      · exact (exec_init_of_ne_failed hf ext).trans (congrArg _ (if_neg hf).symm)
    · exact .ite (fun _ => .rfl) (.of_commutes fun _ => rfl)
        (.congr (.initWith s (size s.op0) (size s.op1) (size s.op2) ext) fun _ => rfl)
  | config => exact ⟨_, fun _ => rfl, .whenOperational (.emitFrom s .config 0)⟩
  | sendCmd => exact ⟨_, fun _ => rfl, .whenOperational (.emitFrom s .sendCmd 0)⟩
  | flush =>
    have hwarn : State.RaisesOneSet (fun u => if u.opState = .unconfigured then u.raise .unconf else u) s :=
      .ite (fun _ => .rfl) (.raise s .unconf) (.of_commutes fun _ => rfl)
    exact ⟨_, fun _ => rfl, .whenOperational (.comp (.emitFrom _ .flush 0) hwarn)⟩
  | setPixel v =>
    have hbody := State.RaisesOneSet.pixelWrite s (coord s.op0) (coord s.op1) v
    exact ⟨_, fun _ => rfl, .whenOperational (hbody.finish.congr fun _ => rfl)⟩
  | getPixel =>
    have hbody := State.RaisesOneSet.resultFromPixel s (coord s.op0) (coord s.op1)
    exact ⟨_, fun _ => rfl, .whenOperational (hbody.finish.congr fun _ => rfl)⟩
  | readFb =>
    have hbody := State.RaisesOneSet.resultFromByte s (size s.op0)
    exact ⟨_, fun _ => rfl, .whenOperational (hbody.finish.congr fun _ => rfl)⟩
  | fill | rect | line | hline | vline =>
    exact ⟨_, fun _ => rfl, .whenOperational (.finish (.drawFrom fun _ => rfl))⟩
  | char =>
    have hbody := State.RaisesOneSet.blit s (lowByte s.op0) (coord s.op1) (coord s.op2)
    exact ⟨_, fun _ => rfl, .whenOperational (hbody.finish.congr fun _ => rfl)⟩
  | string =>
    have hbody := State.RaisesOneSet.drawString s (size s.op0) (coord s.op1) (coord s.op2)
    exact ⟨_, fun _ => rfl, .whenOperational (hbody.congr fun _ => rfl)⟩

/-- The engine's turn goes the same way for every value of the sticky bits. -/
theorem State.engineTurn_raisesOneSet (s : State) :
    ∃ op : State → State, (∀ k, (s.withSticky k).engineTurn = .next (op (s.withSticky k))) ∧
      State.RaisesOneSet op s := by
  rcases hp : s.phase with _ | _ | ⟨op, n⟩
  · exact ⟨id, fun k => by simp only [State.engineTurn, State.withSticky, hp, id], .of_commutes fun _ => rfl⟩
  · rcases hd : decode s.latch.cmd with e | i
    · refine ⟨fun u => (u.raise .illegal).finish, fun k => ?_, .finish (.raise s .illegal)⟩
      simp only [State.engineTurn, State.perform, State.withSticky, hp, hd]
    · obtain ⟨op, hexec, hop⟩ := exec_raisesOneSet i s
      refine ⟨op, fun k => ?_, hop⟩
      simp only [State.engineTurn, State.perform, State.withSticky, hp, hd, hexec]
  · exact ⟨id, fun k => by simp only [State.engineTurn, State.withSticky, hp, id], .of_commutes fun _ => rfl⟩

/-- The turn of the engine and of the transport raises one set of bits, the same whatever bits were set. -/
theorem step_raises {s t : State} {a : Agent} {r : List Agent} (hs : s.schedule = a :: r)
    (ha : a = .engine ∨ a = .transport) (h : step s = .next t) :
    ∃ raised : Sticky, t.sticky = s.sticky.union raised ∧
      ∀ k, step (s.withSticky k) = .next (t.withSticky (k.union raised)) := by
  obtain ⟨op, hstep, raised, hop⟩ : ∃ op : State → State,
      (∀ k, step (s.withSticky k) = .next (op (({ s with schedule := r } : State).withSticky k))) ∧
      State.RaisesOneSet op { s with schedule := r } := by
    rcases ha with rfl | rfl
    · obtain ⟨op, hturn, hop⟩ := State.engineTurn_raisesOneSet { s with schedule := r }
      refine ⟨op, fun k => ?_, hop⟩
      rw [← hturn k]
      simp only [step, State.withSticky, hs]
    · exact ⟨State.transportTurn, fun k => by simp only [step, State.withSticky, hs], .transportTurn _⟩
  have ht : op { s with schedule := r } = t := Host.Outcome.next.inj ((hstep s.sticky).symm.trans h)
  have hall : ∀ k, step (s.withSticky k) = .next (t.withSticky (k.union raised)) := fun k => by
    rw [hstep, hop, ht]
  exact ⟨raised, congrArg State.sticky (Host.Outcome.next.inj (h.symm.trans (hall s.sticky))), hall⟩

/-- A sticky bit stays set until reset (`60_exceptions.md` R241). -/
theorem step_keeps_stickyBit {s t : State} {f : StatusFault} (h : step s = .next t)
    (hnp : s.schedule.head? ≠ some .platform) (hset : s.sticky.get f = true) : t.sticky.get f = true := by
  rcases step_frame h with ⟨-, rfl⟩ | ⟨r, -, e⟩ | ⟨r, hs, -⟩ | ⟨r, -, e⟩ | ⟨r, hs, -⟩
  · exact hset
  · exact (congrArg (fun u => u.sticky.get f) e).trans hset
  · obtain ⟨raised, hk, -⟩ := step_raises hs (.inl rfl) h
    rw [hk, Sticky.get_union, hset, Bool.true_or]
  · exact (congrArg (fun u => u.sticky.get f) e).trans hset
  · exact absurd (congrArg List.head? hs) hnp

end Sys2Proof.Machine

namespace Sys2Proof

open Sys2Proof.Machine

/-- Settles O15: every command but INIT passes the check of STATE first. -/
theorem commandsBeforeInitOnlySetFNoinit : Obligations.CommandsBeforeInitOnlySetFNoinit :=
  fun _ _ hr hi => State.endsWithNoinit_of_reset hi hr

/-- Settles O14: with BUSY = 0 and nothing running or pending, only the host and reset can act. -/
theorem failedIsStuckUntilReset : Obligations.FailedIsStuckUntilReset := by
  refine ⟨fun _ _ => rfl, fun s w h r hinv hf hs hh => step_cmd_failed hs hh (hinv.not_busy_of_failed hf) hf,
    fun s h r hinv hf hs => ?_, fun s t hinv hf hnp ht => step_failed_frame hinv hf hnp ht⟩
  have hb := hinv.not_busy_of_failed hf
  refine ⟨fun v => ?_, fun i v hh => ?_, fun off hw he hh => ⟨_, step_rd16 hs (by omega) (by omega) hh⟩,
    fun i hh => ⟨_, step_rd8 hs (textOffset_lt (by omega)) (by omega) hh⟩⟩
  · simp only [List.forall_mem_cons]
    refine ⟨?_, ?_, ?_, ?_, nofun⟩ <;> exact step_wr16 hs hb (by decide) (by decide)
  · rw [step_wr8 hs hb (textOffset_lt (by omega)) (by omega) hh, State.write8_eq, if_pos (by omega),
      Nat.add_sub_cancel_left]

/-- Settles O13: raising is setting one bit, and no turn reads the bits it sets. -/
theorem stickyBitsOnlyGrowAndAreNeverRead : Obligations.StickyBitsOnlyGrowAndAreNeverRead := by
  refine ⟨fun s f => ⟨rfl, fun g => ?_, ?_⟩, fun s t f h hnp hset => step_keeps_stickyBit h hnp hset,
    fun s t a r hs ha h => step_raises hs ha h⟩
  · rw [State.raise_sticky, Sticky.get_set]
    simp only [eq_comm]
  · have hset : (s.sticky.set f).get f = true := by simp [Sticky.get_set]
    exact congrArg s.withSticky (Sticky.set_of_get hset)

end Sys2Proof

/-! ### Reset and hazards -/

namespace Sys2Proof.Machine

/-- Every turn uses up one entry of the schedule (log 1). -/
theorem step_schedule {s t : State} (h : step s = .next t) : t.schedule = s.schedule.tail := by
  rcases step_frame h with ⟨hs, rfl⟩ | ⟨r, hs, e⟩ | ⟨r, hs, e⟩ | ⟨r, hs, e⟩ | ⟨r, hs, e⟩
  · rw [hs, List.tail_nil]
  all_goals
    rw [hs, List.tail_cons]
    exact congrArg State.schedule e

theorem step_of_schedule_nil {s : State} (hs : s.schedule = []) : step s = .next s := by
  simp only [step, hs]

theorem step_platform {s : State} {r : List Agent} (hs : s.schedule = .platform :: r) :
    step s = .next ({ s with schedule := r } : State).platformReset := by
  simp only [step, hs]

/-- The engine waits unless a command is accepted (`10_state.md` R29). -/
theorem State.engineTurn_of_not_accepted {s : State} (hp : s.phase ≠ .accepted) : s.engineTurn = .next s := by
  unfold State.engineTurn
  split
  · next h => exact absurd h hp
  · rfl
  · rfl

/-- With no operation the engine does nothing (`70_reset_and_hazards.md` R272). -/
theorem step_engine_idle {s : State} {r : List Agent} (hs : s.schedule = .engine :: r) (hp : s.phase = .idle) :
    step s = .next { s with schedule := r } := by
  simp only [step, hs]
  exact State.engineTurn_of_not_accepted (s := { s with schedule := r }) (by rw [hp]; exact nofun)

/-- With nothing pending the transport does nothing (`20_memory.md` R81). -/
theorem step_transport_of_no_pending {s : State} {r : List Agent} (hs : s.schedule = .transport :: r)
    (hn : s.pending = none) : step s = .next { s with schedule := r } := by
  simp only [step, hs]
  exact congrArg _ (State.transportTurn_none (s := { s with schedule := r }) hn)

theorem Inv.pending_of_idle {s : State} (h : Inv s) (hp : s.phase = .idle) : s.pending = none :=
  h.idlePending fun op k => by rw [hp]; exact nofun

theorem Inv.busy_of_running {s : State} (h : Inv s) {op : BusOp} {k : Nat} (hp : s.phase = .running op k) :
    s.busy = true :=
  h.busyPhase.2 (by rw [hp]; exact nofun)

/-! #### A silent transport (`70_reset_and_hazards.md` R278) -/

/-- From `s` to `t` only the host's program, what its reads returned and the schedule have moved. -/
def State.ChangesOnlyHostSide (s t : State) : Prop :=
  t = { s with schedule := t.schedule, host := t.host, reads := t.reads }

theorem State.ChangesOnlyHostSide.refl (s : State) : s.ChangesOnlyHostSide s := rfl

theorem State.ChangesOnlyHostSide.trans {s t u : State} (hst : s.ChangesOnlyHostSide t)
    (htu : t.ChangesOnlyHostSide u) : s.ChangesOnlyHostSide u :=
  Eq.trans htu (congrArg (fun v : State => { v with schedule := u.schedule, host := u.host, reads := u.reads }) hst)

theorem State.ChangesOnlyHostSide.busy_eq {s t : State} (h : s.ChangesOnlyHostSide t) : t.busy = s.busy :=
  (congrArg State.busy h :)

theorem State.ChangesOnlyHostSide.phase_eq {s t : State} (h : s.ChangesOnlyHostSide t) : t.phase = s.phase :=
  (congrArg State.phase h :)

/-- While BUSY the host's turn only returns a read: a write stays its next access (`10_state.md` R29). -/
theorem State.hostTurn_busy {s t : State} (hb : s.busy = true) (h : s.hostTurn = .next t) :
    t = { s with host := t.host, reads := t.reads } := by
  rcases State.hostTurn_cases h with ⟨-, rfl⟩ | ⟨a, rest, -, -, -, rfl⟩
  · rfl
  · rw [State.access_busy (s := { s with host := rest }) hb]

/-- While a command waits for the transport, no turn of the host or the engine moves it. -/
theorem step_waiting {s t : State} (hb : s.busy = true) (hp : s.phase ≠ .accepted)
    (hq : ∀ a ∈ s.schedule, a = .host ∨ a = .engine) (h : step s = .next t) : s.ChangesOnlyHostSide t := by
  rcases step_cases h with ⟨-, rfl⟩ | ⟨r, -, ht⟩ | ⟨r, -, ha, -⟩ | ⟨r, -, -, rfl⟩ | ⟨r, hs, -⟩ | ⟨r, hs, -⟩
  · exact .refl t
  · have e := State.hostTurn_busy (s := { s with schedule := r }) hb ht
    rw [State.ChangesOnlyHostSide, e]
  · exact absurd ha hp
  · rfl
  · exact absurd (hq .transport (hs ▸ List.mem_cons_self)) (by decide)
  · exact absurd (hq .platform (hs ▸ List.mem_cons_self)) (by decide)

/-- A run of `n + 1` steps that answers a state is one step and a run of `n`. -/
theorem run_succ {n : Nat} {s u : State} (h : Sys2Proof.core.run (n + 1) s = .next u) :
    ∃ t, step s = .next t ∧ Sys2Proof.core.run n t = .next u := by
  simp only [Host.Core.run, Sys2Proof.core] at h
  split at h
  · next t hs => exact ⟨t, hs, h⟩
  · cases h
  · cases h

/-- `step_waiting` along a run of any length: what it needs of a state it leaves true of the next. -/
theorem run_waiting {n : Nat} {s t : State} (hb : s.busy = true) (hp : s.phase ≠ .accepted)
    (hq : ∀ a ∈ s.schedule, a = .host ∨ a = .engine) (h : Sys2Proof.core.run n s = .next t) :
    s.ChangesOnlyHostSide t := by
  induction n generalizing s with
  | zero =>
    cases h
    exact .refl _
  | succ n ih =>
    obtain ⟨u, hstep, hrun⟩ := run_succ h
    have hu := step_waiting hb hp hq hstep
    have hqu : ∀ a ∈ u.schedule, a = .host ∨ a = .engine := fun a ha =>
      hq a (List.mem_of_mem_tail (step_schedule hstep ▸ ha))
    exact hu.trans (ih (hu.busy_eq.trans hb) (hu.phase_eq ▸ hp) hqu hrun)

end Sys2Proof.Machine

namespace Sys2Proof

open Sys2Proof.Machine

/-- Settles O27: only the transport moves a bus operation on, so a silent one leaves it BUSY. -/
theorem silentTransportHangsTheEngine : Obligations.SilentTransportHangsTheEngine := by
  intro n s t op k hinv hp hq hrun
  have hb := hinv.busy_of_running hp
  have ht := run_waiting hb (by rw [hp]; exact nofun) hq hrun
  exact ⟨ht.busy_eq.trans hb, ht⟩

/-- Settles O17: the turn of the platform is the reset itself, whatever was running. -/
theorem resetRestoresEveryRegister : Obligations.ResetRestoresEveryRegister :=
  fun _ _ hs => ⟨_, _, _, step_platform hs⟩

/-- Settles O18: with no operation nothing is pending, so neither agent has anything to do. -/
theorem nothingRunsWithoutACommand : Obligations.NothingRunsWithoutACommand := by
  refine ⟨fun _ hs => step_of_schedule_nil hs, fun s a r hinv hp hs ha => ?_⟩
  rcases ha with rfl | rfl
  · exact step_engine_idle hs hp
  · exact step_transport_of_no_pending hs (hinv.pending_of_idle hp)

end Sys2Proof

/-! ### The recurrence of LINE -/

namespace Sys2Proof.Machine

/-- The error before pass `k` of the loop, from the error `err` before its first (`42_shapes.md` R194). -/
def LinePlan.errAt (p : LinePlan) (err : Int) (k : Nat) : Int := p.nextErr^[k] err

theorem LinePlan.errAt_succ (p : LinePlan) (err : Int) (k : Nat) :
    p.errAt err (k + 1) = p.nextErr (p.errAt err k) :=
  Function.iterate_succ_apply' ..

theorem LinePlan.add_moveX (p : LinePlan) (x err : Int) :
    x + p.moveX err = if -p.dy < 2 * err then x + p.sx else x := by
  rw [LinePlan.moveX, add_ite, add_zero]

theorem LinePlan.add_moveY (p : LinePlan) (y err : Int) :
    y + p.moveY err = if 2 * err < p.dx then y + p.sy else y := by
  rw [LinePlan.moveY, add_ite, add_zero]

theorem LinePlan.eq_of_walk_first {p : LinePlan} {fuel : Nat} {x y err : Int} {a : Int × Int}
    (h : (p.walk fuel x y err)[0]? = some a) : a = (x, y) := by
  cases fuel with
  | zero => cases h
  | succ fuel => exact (Option.some.inj h).symm

/-- Of two pixels visited in a row the first is not the end point, and one pass of the loop leads from it to the second. -/
theorem LinePlan.walk_consecutive {p : LinePlan} {fuel k : Nat} {x y err : Int} {a b : Int × Int}
    (ha : (p.walk fuel x y err)[k]? = some a) (hb : (p.walk fuel x y err)[k + 1]? = some b) :
    a ≠ (p.x1, p.y1) ∧ b = (a.1 + p.moveX (p.errAt err k), a.2 + p.moveY (p.errAt err k)) := by
  induction fuel generalizing k x y err with
  | zero => cases ha
  | succ fuel ih =>
    by_cases hend : x = p.x1 ∧ y = p.y1
    · rw [LinePlan.walk_last hend.1 hend.2] at hb
      cases hb
    · rw [LinePlan.walk_pass hend] at ha hb
      cases k with
      | zero =>
        cases Option.some.inj ha
        exact ⟨fun h => hend (Prod.mk.inj h), LinePlan.eq_of_walk_first hb⟩
      | succ k => exact (ih ha hb :)

end Sys2Proof.Machine

namespace Sys2Proof

open Sys2Proof.Machine

/-- A pixel of a line other than its last end point is followed by another: the list ends with that end point
(`42_shapes.md` R195 law 1). -/
theorem linePixels_continues {x0 y0 x1 y1 : Int} {k : Nat} {a : Int × Int}
    (ha : (linePixels x0 y0 x1 y1)[k]? = some a) (hne : a ≠ (x1, y1)) :
    ∃ b, (linePixels x0 y0 x1 y1)[k + 1]? = some b := by
  obtain ⟨-, hlast, -⟩ := lineWalkObeysTheLineLaws x0 y0 x1 y1
  obtain ⟨hk, rfl⟩ := List.getElem?_eq_some_iff.1 ha
  refine ⟨_, List.getElem?_eq_getElem (Nat.lt_of_le_of_ne hk fun hlen => hne ?_)⟩
  rw [List.getLast?_eq_getElem?, ← hlen, Nat.succ_sub_one, ha] at hlast
  exact Option.some.inj hlast

/-- Settles O39: the pixel writes are those of the visited pixels, the loop gives each next pixel, and it is not cut
short before the last end point. -/
theorem lineDrawsTheVisitedPixels : Obligations.LineDrawsTheVisitedPixels := by
  refine ⟨fun s v hr => ⟨rfl, State.drawsExactly_of_mem hr (exec_line hr.1 v) fun _ => mem_lineDots⟩,
    fun x0 y0 x1 y1 => ⟨rfl, (linePlan x0 y0 x1 y1).errAt (|x1 - x0| - |y1 - y0|), rfl, fun k a ha => ⟨?_, ?_⟩⟩⟩
  · rintro rfl
    exact Option.eq_none_iff_forall_ne_some.2 fun b hb => (LinePlan.walk_consecutive ha hb).1 rfl
  · intro hne
    obtain ⟨b, hb⟩ := linePixels_continues ha hne
    obtain ⟨-, hnext⟩ := LinePlan.walk_consecutive ha hb
    rw [LinePlan.add_moveX, LinePlan.add_moveY] at hnext
    exact ⟨hb.trans (congrArg some hnext), LinePlan.errAt_succ ..⟩

end Sys2Proof
